-- ==== Sys2Proof/Word.lean ====
section
/-! DEFINITION. The word and byte types, and the small vocabulary that commands and state share: the five
flag classes, a set of five one-bit flags, and the configuration half of a CFG head word. -/

namespace Sys2Proof

/-- A word of the command stream, an address register, the tick counter, a result value (R49, R18, R29, R60). -/
abbrev Word := BitVec 32

/-- The smallest addressable unit of the memory space (R35). -/
abbrev Byte := BitVec 8

/-- A buffer slot of a channel: `false` is slot 0 and `true` is slot 1, the numbering `ct` uses (R14, R23).
The `1 - s` of the rules is `!s`. -/
abbrev Slot := Bool

/-- The five flag classes of a channel (R7, R19). -/
inductive Cls where
  | tc   -- transfer complete
  | ht   -- half transfer
  | te   -- transfer error
  | fe   -- FIFO error
  | dme  -- direct-mode error
deriving DecidableEq, Repr

/-- The three classes the engine raises by itself (R83, R119). -/
inductive ErrCls where
  | te
  | fe
  | dme
deriving DecidableEq, Repr

/-- An error class as a flag class. -/
def ErrCls.cls : ErrCls → Cls
  | .te => .te
  | .fe => .fe
  | .dme => .dme

/-- One bit for each flag class: a channel's event flags (R19), its interrupt enables (R14), the snapshot
mask of the notifier (R30) and the mask of CLRF (R54). -/
structure Flags where
  tc  : Bool
  ht  : Bool
  te  : Bool
  fe  : Bool
  dme : Bool
deriving DecidableEq, Repr

/-- No class set. -/
def Flags.zero : Flags := ⟨false, false, false, false, false⟩

/-- The configuration fields of a CFG head word, bits 15:1, at the bit positions of CR (R52, R14). `dir`,
`usize` and `prio` stay the bits they are: CFG itself rejects the reserved values (R67). -/
structure CfgHead where
  ie    : Flags
  dir   : BitVec 2
  circ  : Bool
  pinc  : Bool
  minc  : Bool
  usize : BitVec 2
  prio  : BitVec 2
  dbm   : Bool
deriving DecidableEq, Repr

end Sys2Proof
end

