-- ==== Sys2Proof/Syntax.lean ====
section
/-! DEFINITION. The syntax of the host's commands: one constructor per row of spec/opcode_table.json (R51). -/

namespace Sys2Proof

/-- The host commands (R51). `c` is the channel field (R50); operand words are carried as they stand. -/
inductive Instr where
  /-- Configure a channel: head fields, PAR, M0AR, M1AR, NDT (R52, R66). -/
  | cfg (c : BitVec 4) (h : CfgHead) (par m0ar m1ar ndt : Word)
  /-- Arm and enable a channel (R53, R70). -/
  | start (c : BitVec 4)
  /-- Disable a channel and return it to IDLE (R53, R72). -/
  | stop (c : BitVec 4)
  /-- Read the status word (R53, R74). -/
  | rdstat (c : BitVec 4)
  /-- Clear the flags selected by a mask (R54, R75). -/
  | clrf (c : BitVec 4) (mask : BitVec 5)
  /-- Read the remaining count (R53, R76). -/
  | rdcnt (c : BitVec 4)
  /-- Read the control register (R53, R77). -/
  | rdcr (c : BitVec 4)
  /-- Poll a one-shot transfer against a timeout of `t` ticks (R53, R102). -/
  | swait (c : BitVec 4) (t : Word)
  /-- Acknowledge a terminal state (R53, R106). -/
  | sack (c : BitVec 4)
  /-- Take the next completion event (R53, R107). -/
  | sevt (c : BitVec 4)
  /-- Wait `n` ticks (R55, R108). -/
  | dly (n : Word)
  /-- Read buffer memory: size field, address (R56, R115). -/
  | hrd (sz : BitVec 2) (a : Word)
  /-- Write buffer memory: size field, address, value (R56, R116). -/
  | hwr (sz : BitVec 2) (a v : Word)
deriving DecidableEq, Repr

/-- The length of a command in words (R12, R51). -/
def Instr.length : Instr → Nat
  | .cfg .. => 5
  | .start _ => 1
  | .stop _ => 1
  | .rdstat _ => 1
  | .clrf .. => 1
  | .rdcnt _ => 1
  | .rdcr _ => 1
  | .swait .. => 2
  | .sack _ => 1
  | .sevt _ => 1
  | .dly _ => 2
  | .hrd .. => 2
  | .hwr .. => 3

end Sys2Proof
end

