-- ==== Sys2Proof/WellFormed.lean ====
section
/-! DEFINITION. Which terms of `Instr` are commands. The widths of the fields are in their types; the one
value a field of a command may not have is the size field 11 of HRD and HWR (R56, R58). -/

namespace Sys2Proof

/-- `sz` names a width: 00 is 1 byte, 01 is 2 bytes, 10 is 4 bytes; 11 is illegal (R56). -/
abbrev SizeOk (sz : BitVec 2) : Prop := sz ≠ 3#2

/-- The command can stand in a command stream: the encoding has a word for it (R52 to R56). -/
def Instr.WellFormed : Instr → Prop
  | .cfg .. => True
  | .start _ => True
  | .stop _ => True
  | .rdstat _ => True
  | .clrf .. => True
  | .rdcnt _ => True
  | .rdcr _ => True
  | .swait .. => True
  | .sack _ => True
  | .sevt _ => True
  | .dly _ => True
  | .hrd sz _ => SizeOk sz
  | .hwr sz _ _ => SizeOk sz

end Sys2Proof
end

