-- ==== Sys2Proof/Decode.lean ====
section
/-! DEFINITION. Decoding the command words at the command pointer, in the order of R57, and the encoder
written from the same formats (R50 to R56). -/

namespace Sys2Proof

/-- The opcodes of R51. -/
inductive Op where
  | cfg | start | stop | rdstat | clrf | rdcnt | rdcr | swait | sack | sevt | dly | hrd | hwr
deriving DecidableEq, Repr

/-- The opcode numbers of R51. -/
def Op.code : Op → BitVec 6
  | .cfg => 0x01#6
  | .start => 0x02#6
  | .stop => 0x03#6
  | .rdstat => 0x04#6
  | .clrf => 0x05#6
  | .rdcnt => 0x06#6
  | .rdcr => 0x07#6
  | .swait => 0x08#6
  | .sack => 0x09#6
  | .sevt => 0x0A#6
  | .dly => 0x0B#6
  | .hrd => 0x10#6
  | .hwr => 0x11#6

/-- Every opcode, in the order of R51. -/
def Op.all : List Op :=
  [.cfg, .start, .stop, .rdstat, .clrf, .rdcnt, .rdcr, .swait, .sack, .sevt, .dly, .hrd, .hwr]

/-- The opcode of a number; `none` for the numbers R51 does not list. -/
def Op.ofCode (n : BitVec 6) : Option Op := Op.all.find? fun o => o.code == n

/-- `len(op)`, in words (R51). -/
def Op.len : Op → Nat
  | .cfg => 5
  | .start => 1
  | .stop => 1
  | .rdstat => 1
  | .clrf => 1
  | .rdcnt => 1
  | .rdcr => 1
  | .swait => 2
  | .sack => 1
  | .sevt => 1
  | .dly => 2
  | .hrd => 2
  | .hwr => 3

/-- The bits of the head word that must be 0: the bits the mask of the format fixes, but for the opcode
(R52 to R56). -/
def Op.reserved : Op → Word
  | .cfg => 0x003F0001#32
  | .start => 0x003FFFFF#32
  | .stop => 0x003FFFFF#32
  | .rdstat => 0x003FFFFF#32
  | .clrf => 0x003FFFE0#32
  | .rdcnt => 0x003FFFFF#32
  | .rdcr => 0x003FFFFF#32
  | .swait => 0x003FFFFF#32
  | .sack => 0x003FFFFF#32
  | .sevt => 0x003FFFFF#32
  | .dly => 0x03FFFFFF#32
  | .hrd => 0x03FFFFFC#32
  | .hwr => 0x03FFFFFC#32

/-- Why words are no command (R57). -/
inductive Reject where
  /-- The opcode is not in R51 (check 1). -/
  | unknownOpcode
  /-- The stream holds fewer words than the command has (check 2). -/
  | truncated
  /-- A reserved bit of the head word is 1 (check 3); the command's length. -/
  | reservedBits (len : Nat)
  /-- The size field of HRD or HWR is 11 (check 3); the command's length. -/
  | badSize (len : Nat)
deriving DecidableEq, Repr

/-- `w[hi:lo]` (R8), with the width `n = hi - lo + 1`. -/
def field (w : Word) (lo n : Nat) : BitVec n := w.extractLsb' lo n

/-- The opcode field, bits 31:26 (R50). -/
def opField (w : Word) : BitVec 6 := field w 26 6

/-- The channel field, bits 25:22 (R50). -/
def chField (w : Word) : BitVec 4 := field w 22 4

/-- The size field of HRD and HWR, bits 1:0 (R56). -/
def szField (w : Word) : BitVec 2 := field w 0 2

/-- The configuration fields of a CFG head word (R52). -/
def cfgHeadOf (w : Word) : CfgHead where
  ie    := ⟨w.getLsbD 1, w.getLsbD 2, w.getLsbD 3, w.getLsbD 4, w.getLsbD 5⟩
  dir   := field w 6 2
  circ  := w.getLsbD 8
  pinc  := w.getLsbD 9
  minc  := w.getLsbD 10
  usize := field w 11 2
  prio  := field w 13 2
  dbm   := w.getLsbD 15

/-- The command of an opcode, its head word and its operand words, all checks passed (R52 to R56). -/
def Op.build (o : Op) (w : Word) (ops : List Word) : Instr :=
  match o with
  | .cfg => .cfg (chField w) (cfgHeadOf w) (ops.getD 0 0) (ops.getD 1 0) (ops.getD 2 0) (ops.getD 3 0)
  | .start => .start (chField w)
  | .stop => .stop (chField w)
  | .rdstat => .rdstat (chField w)
  | .clrf => .clrf (chField w) (field w 0 5)
  | .rdcnt => .rdcnt (chField w)
  | .rdcr => .rdcr (chField w)
  | .swait => .swait (chField w) (ops.getD 0 0)
  | .sack => .sack (chField w)
  | .sevt => .sevt (chField w)
  | .dly => .dly (ops.getD 0 0)
  | .hrd => .hrd (szField w) (ops.getD 0 0)
  | .hwr => .hwr (szField w) (ops.getD 0 0) (ops.getD 1 0)

/-- The opcode has a size field (R56). -/
def Op.hasSize (o : Op) : Bool := o == .hrd || o == .hwr

/-- Checks 2 and 3 of R57, for a head word `w` of a known opcode and the words `ops` after it. -/
def decodeOp (o : Op) (w : Word) (ops : List Word) : Except Reject Instr :=
  if ops.length + 1 < o.len then .error .truncated
  else if w &&& o.reserved ≠ 0#32 then .error (.reservedBits o.len)
  else if o.hasSize = true ∧ szField w = 3#2 then .error (.badSize o.len)
  else .ok (o.build w ops)

/-- Decode the command that starts the words, by checks 1 to 3 of R57 in that order. Check 4, the channel
number, needs the machine's `NUM_CHANNELS` and is made by the meanings (`onChannel`). No words at all are
a truncated command; the host never decodes there (R137). -/
def decode (ws : List Word) : Except Reject Instr :=
  match ws with
  | [] => .error .truncated
  | w :: ops =>
    match Op.ofCode (opField w) with
    | none => .error .unknownOpcode
    | some o => decodeOp o w ops

/-! ## Encoding -/

/-- The word with `x` in the bits from `lo` up, and 0 elsewhere. -/
def place {n : Nat} (lo : Nat) (x : BitVec n) : Word := x.setWidth 32 <<< lo

/-- The word with one bit `b` at `lo`. -/
def placeBit (lo : Nat) (b : Bool) : Word := place lo (BitVec.ofBool b)

/-- The word with five flags in the bits from `lo` up, in the order TC, HT, TE, FE, DME (R14, R54, R61). -/
def placeFlags (lo : Nat) (f : Flags) : Word :=
  placeBit lo f.tc ||| placeBit (lo + 1) f.ht ||| placeBit (lo + 2) f.te ||| placeBit (lo + 3) f.fe |||
    placeBit (lo + 4) f.dme

/-- A head word: opcode, channel field and the fields below (R50). -/
def headOf (o : Op) (c : BitVec 4) (low : Word) : Word := place 26 o.code ||| place 22 c ||| low

/-- The configuration fields, bits 15:1 of a CFG head word and of CR (R52, R14). -/
def cfgBits (h : CfgHead) : Word :=
  placeFlags 1 h.ie ||| place 6 h.dir ||| placeBit 8 h.circ ||| placeBit 9 h.pinc ||| placeBit 10 h.minc |||
    place 11 h.usize ||| place 13 h.prio ||| placeBit 15 h.dbm

/-- The words of a command (R52 to R56). -/
def encode : Instr → List Word
  | .cfg c h par m0ar m1ar ndt => [headOf .cfg c (cfgBits h), par, m0ar, m1ar, ndt]
  | .start c => [headOf .start c 0]
  | .stop c => [headOf .stop c 0]
  | .rdstat c => [headOf .rdstat c 0]
  | .clrf c mask => [headOf .clrf c (place 0 mask)]
  | .rdcnt c => [headOf .rdcnt c 0]
  | .rdcr c => [headOf .rdcr c 0]
  | .swait c t => [headOf .swait c 0, t]
  | .sack c => [headOf .sack c 0]
  | .sevt c => [headOf .sevt c 0]
  | .dly n => [headOf .dly 0 0, n]
  | .hrd sz a => [headOf .hrd 0 (place 0 sz), a]
  | .hwr sz a v => [headOf .hwr 0 (place 0 sz), a, v]

/-! ## A command given as one number -/

/-- Word `k` of a command whose bits are `w`, of which `nbits` are given and the rest are 0: bit 0 is the
least significant bit of the first word, and a later word's bits count on from it. -/
def tableWord (nbits w k : Nat) : Word := BitVec.ofNat 32 ((w % 2 ^ nbits) / 2 ^ (32 * k))

/-- The words of such a command, up to the longest command's five (R51). -/
def tableWords (nbits w : Nat) : List Word :=
  [tableWord nbits w 0, tableWord nbits w 1, tableWord nbits w 2, tableWord nbits w 3, tableWord nbits w 4]

/-- The command the decoder reads from such a number; `none` where it rejects. -/
def decodeTableWord (nbits w : Nat) : Option Instr :=
  match decode (tableWords nbits w) with
  | .ok i => some i
  | .error _ => none

end Sys2Proof
end

