-- ==== Sys2Proof/Config.lean ====
section
/-! DEFINITION. The implementation parameters of R7 that are left OPEN by the spec, as plain data, and the
free values: constants with no body, of which no proof can see the value. -/

namespace Sys2Proof

/-- The peripheral oracle (R42). `unconstrained` may answer any value and is the one observations are stated
over; `loopback` is the deterministic oracle R42 names. -/
inductive Oracle where
  | unconstrained
  | loopback
deriving DecidableEq, Repr

/-- The native width, in bytes, of the peripheral that channel `chan` reaches at address `addr` (R42,
`native_width(c, a)`). A pair with no entry has the width `ANY`. -/
structure PortWidth where
  chan  : Nat
  addr  : Nat
  bytes : Nat
deriving DecidableEq, Repr

/-- The OPEN parameters of R7, but for `NUM_CHANNELS` (the length of the machine's channel list) and `MEM0`
(the memory a run is launched with). -/
structure Config where
  /-- `EVQ_DEPTH`, 1..255: the capacity of each channel's event queue. -/
  evqDepth     : Nat
  /-- `ACK_TIMEOUT`, in ticks. -/
  ackTimeout   : Nat
  /-- `ACK_HANG_ADMITTED`. -/
  hangAdmitted : Bool
  /-- `EN_ACK_BOUND`, in ticks; `none` is `INF`. -/
  enAckBound   : Option Nat
  /-- `TE` is in `ERRORS_ADMITTED`. -/
  errTE        : Bool
  /-- `FE` is in `ERRORS_ADMITTED`. -/
  errFE        : Bool
  /-- `DME` is in `ERRORS_ADMITTED`. -/
  errDME       : Bool
  /-- `IS_RAM`, as half-open address ranges `[lo, hi)` (log 6). -/
  ram          : List (Nat × Nat)
  /-- `PERIPH`. -/
  oracle       : Oracle
  /-- The oracle's native widths (R42). -/
  widths       : List PortWidth
deriving DecidableEq, Repr

/-- `DIS_ACK_BOUND`, fixed by R7. -/
def Config.disAckBound : Nat := 1

/-- The error class is in `ERRORS_ADMITTED` (R7, R83). -/
def Config.admits (p : Config) : ErrCls → Bool
  | .te => p.errTE
  | .fe => p.errFE
  | .dme => p.errDME

/-- `IS_RAM(a)`, a predicate on 32-bit addresses (R7, R40): no number from 2^32 on is one. -/
def Config.isRam (p : Config) (a : Nat) : Bool :=
  decide (a < 2 ^ 32) && p.ram.any fun r => decide (r.1 ≤ a) && decide (a < r.2)

/-- `native_width(c, a)`; `none` is `ANY` (R42). -/
def Config.nativeWidth (p : Config) (c a : Nat) : Option Nat :=
  (p.widths.find? fun w => w.chan == c && w.addr == a).map (·.bytes)

/-- The largest `NUM_CHANNELS` of R7: the channel field of a command is 4 bits wide. -/
def Config.maxChannels : Nat := 16

/-- The ranges R7 gives the OPEN parameters, `NUM_CHANNELS` (here `n`) among them. -/
abbrev Config.wf (p : Config) (n : Nat) : Prop :=
  1 ≤ n ∧ n ≤ Config.maxChannels ∧ 1 ≤ p.evqDepth ∧ p.evqDepth ≤ 255 ∧ 1 ≤ p.ackTimeout ∧ p.ackTimeout < 2 ^ 32 ∧
    (p.hangAdmitted = false → 2 ≤ p.ackTimeout)

/-- The parameters the reset state carries. DESIGN CHOICE (log 2): R7 leaves every one OPEN; the widest
machine is taken where a parameter only admits behaviour, and the values of `95_test_vectors.md` P0 for the
two sizes. A claim is about every state, so about every choice of them. -/
def Config.atReset : Config where
  evqDepth     := 4
  ackTimeout   := 10
  hangAdmitted := true
  enAckBound   := none
  errTE        := true
  errFE        := true
  errDME       := true
  ram          := [(0, 2 ^ 32)]
  oracle       := .unconstrained
  widths       := []

/-- `NUM_CHANNELS` of the reset state. DESIGN CHOICE (log 2): the largest R7 allows. -/
def Config.channelsAtReset : Nat := Config.maxChannels

/-- FREE VALUE (log 4): the `k`-th value the spec leaves unconstrained, a peripheral's answer (R42). -/
opaque Config.freeWord : Nat → Word

/-- FREE VALUE (log 3): the scheduler's `k`-th choice among the enabled steps (R5). -/
opaque Config.freeMove : Nat → Nat

end Sys2Proof
end

