-- ==== Sys2Proof/Machine/State.lean ====
section
/-! DEFINITION. The state of the machine as plain data (R10 to R34), its faults and refusals, and the state
after reset (R134). -/

namespace Sys2Proof.Machine

/-- The lifecycle state of a channel and its session (R20). -/
inductive CState where
  | idle
  | configured
  | armed
  | running
  | completed
  | error
deriving DecidableEq, Repr

/-- The pending error of a channel (R21). -/
inductive PErr where
  | none
  | te
  | fe
  | dme
  | ackto
deriving DecidableEq, Repr

/-- The owner of a buffer slot (R25). -/
inductive Owner where
  | app
  | hw
deriving DecidableEq, Repr

/-- The slot scheme of a channel (R22). -/
inductive Scheme where
  | oneshot
  | halves
  | dual
deriving DecidableEq, Repr

/-- The outcome an event carries (R63). -/
inductive EvOutcome where
  | success
  | transferError
  | fifoError
deriving DecidableEq, Repr

/-- An event record (R63): its class, its outcome and the slot it is about. -/
structure EventRec where
  src     : Cls
  outcome : EvOutcome
  slot    : Slot
deriving DecidableEq, Repr

/-- The status of a result record (R60). -/
inductive Status where
  | ok
  | configurationRejected
  | invalidStateError
  | hardwareAcknowledgeTimeout
  | timeoutError
  | transferError
  | fifoError
  | invalidConfiguration
  | illegalCommand
  | empty
  | invalidChannel
deriving DecidableEq, Repr

/-- The fault kinds of R120 with what each records. A raised fault is recorded in `State.faults` by a step
that answers the next state; the machine's next step then stops with it (R121, log 7). -/
inductive Fault where
  /-- Raised by HRD and HWR when the access touches a slot the hardware owns (R114). Safe: the source calls
  the access a race and gives it no outcome, and the model stops. -/
  | ownershipViolation (cp addr width chan : Nat) (slot : Slot)
  /-- Raised by HRD and HWR at an address that is not a multiple of the width (R114). Safe: the model stops. -/
  | hostMisaligned (cp addr width : Nat)
  /-- Raised by HRD and HWR on a byte outside `IS_RAM` (R114). Safe: the model stops. -/
  | hostNotRam (cp addr width : Nat)
  /-- Raised by the notifier's dispatch when it delivers into a full event queue (R94). Safe: the model
  stops where an event would be lost. -/
  | evqOverflow (chan : Nat) (event : EventRec)
  /-- Raised by the host at a command whose operand words run past the end of the stream (R59). Safe: there
  is no command to run. -/
  | malformedStream (cp : Nat)
deriving DecidableEq, Repr

/-- Why a step has no meaning. -/
inductive Refusal where
  /-- Raised by an arm of `exec` whose instruction has no meaning yet. Safe: the model stops. -/
  | notModelled (mnemonic : String)
  /-- Raised by `step` when no agent has an enabled step and no fault is recorded. It never happens (R129,
  "No deadlock"), which is one of the statements. Safe: the model stops. -/
  | noEnabledStep
deriving DecidableEq, Repr

/-- An entry of the event history (R33, R42, R60). -/
inductive HistEvent where
  /-- A host command's result, with the `cp` and head word of the command (R60). -/
  | result (cp : Nat) (head : Word) (status : Status) (value : Word)
  /-- A fault (R121). -/
  | fault (f : Fault)
  /-- An engine transfer: channel, slot, element index, memory address, peripheral address, value (R80). -/
  | xfer (chan : Nat) (slot : Slot) (i am ap : Nat) (v : Nat)
  /-- A peripheral read and its answer (R42). -/
  | periphRead (chan addr width : Nat) (v : Nat)
  /-- A peripheral write (R42). -/
  | periphWrite (chan addr width : Nat) (v : Nat)
  /-- An enable acknowledgement (R79). -/
  | ackOn (chan : Nat)
  /-- A disable acknowledgement (R85). -/
  | ackOff (chan : Nat)
  /-- An engine flag event (R80, R83). -/
  | flag (chan : Nat) (k : Cls)
  /-- A snapshot (R90). -/
  | snap (chan : Nat) (mask : Flags)
  /-- A dispatch (R92). -/
  | dispatch (chan : Nat) (mask : Flags)
  /-- A delivered event (R94). -/
  | event (chan : Nat) (e : EventRec)
  /-- A tick (R128). -/
  | tick
deriving DecidableEq, Repr

/-- The notifier's phase (R30). -/
inductive Ntf where
  | idle
  | snapped (chan : Nat) (mask : Flags)
deriving DecidableEq, Repr

/-- The host's wait context (R31). -/
inductive Wait where
  | none
  | startWait (chan : Nat) (t0 : Word)
  | stopWait (chan : Nat) (t0 : Word)
  | swaitPoll (chan : Nat) (t0 timeout : Word)
  | swaitStop (chan : Nat) (t0 : Word)
  | dlyWait (t0 n : Word)
deriving DecidableEq, Repr

/-- One step of one agent, as the scheduler names it (R5): the host; an engine's enable acknowledgement
(R79), disable acknowledgement (R85), transfer or bus error (R80, R84) and spontaneous error (R83); the
notifier's snapshot (R90) and dispatch (R92); the tick (R128). -/
inductive Move where
  | host
  | ackOn (chan : Nat)
  | ackOff (chan : Nat)
  | xfer (chan : Nat)
  | err (chan : Nat) (k : ErrCls)
  | snap (chan : Nat)
  | dispatch
  | tick
deriving DecidableEq, Repr

/-- The state of one channel (R13). -/
structure Channel where
  /-- The enable request the host last wrote, CR bit 17 (R14, R15). -/
  enReq  : Bool
  /-- The acknowledged enable, CR bit 0 (R14, R15). -/
  enAck  : Bool
  /-- The interrupt enables `tcie`, `htie`, `teie`, `feie`, `dmeie`, CR bits 5:1 (R14). -/
  ie     : Flags
  /-- Direction, CR bits 7:6 (R14). -/
  dir    : BitVec 2
  /-- Circular mode, CR bit 8 (R14). -/
  circ   : Bool
  /-- Peripheral increment, CR bit 9 (R14). -/
  pinc   : Bool
  /-- Memory increment, CR bit 10 (R14). -/
  minc   : Bool
  /-- Unit size, CR bits 12:11 (R14). -/
  usize  : BitVec 2
  /-- Priority, CR bits 14:13, with no effect (R14, R86). -/
  prio   : BitVec 2
  /-- Double-buffer mode, CR bit 15 (R14). -/
  dbm    : Bool
  /-- Current target, CR bit 16 (R14). -/
  ct     : Slot
  /-- Remaining elements of the current cycle (R16). -/
  ndtr   : BitVec 16
  /-- The configured element count `N` (R17). -/
  reload : BitVec 16
  /-- Peripheral address (R18). -/
  par    : Word
  /-- Base address of slot 0 (R18). -/
  m0ar   : Word
  /-- Base address of slot 1 (R18). -/
  m1ar   : Word
  /-- The event flags `tcif`, `htif`, `teif`, `feif`, `dmeif` (R19). -/
  flags  : Flags
  /-- Lifecycle state (R20). -/
  cstate : CState
  /-- Pending error (R21). -/
  perr   : PErr
  /-- Owner of slot 0, `own[0]` (R25). -/
  own0   : Owner
  /-- Owner of slot 1, `own[1]` (R25). -/
  own1   : Owner
  /-- Event queue, oldest first (R26). -/
  evq    : List EventRec
  /-- Acknowledgement age (R27). -/
  ackAge : Nat
deriving DecidableEq, Repr

/-- The byte memory (R35): the bytes that differ from what an unlisted address reads as, by rising address. -/
abbrev Memory := List Host.Cell

/-- The state of the machine. The first nine fields are R10's tuple; the last five are the model's own: the
parameters and inputs of R34, which one argument of `step` must carry (log 1), and the free values' counter. -/
structure State where
  /-- The channels; `NUM_CHANNELS`, 1..16, is the length of the list (R7, R10, R13; `Config.wf`). -/
  chs     : List Channel
  /-- The memory space (R35). -/
  mem     : Memory
  /-- The tick counter (R29). -/
  tick    : Word
  /-- The DMA clock enable (R28). -/
  clkEn   : Bool
  /-- The notifier's phase (R30). -/
  ntf     : Ntf
  /-- The command pointer (R12). -/
  cp      : Nat
  /-- The host's wait context (R31). -/
  hw      : Wait
  /-- The recorded faults (R32). -/
  faults  : List Fault
  /-- The event history, oldest first (R33). -/
  hist    : List HistEvent
  /-- MODEL'S OWN: the parameters of R7. No step writes them. -/
  params  : Config
  /-- MODEL'S OWN: the command stream, an input (R34, R49). No step writes it. -/
  stream  : List Word
  /-- MODEL'S OWN: the scheduler's choices still to come (R5); once it is used up the choice is free. -/
  sched   : List Move
  /-- MODEL'S OWN: the peripherals' answers still to come (R42); once it is used up the answer is free. -/
  answers : List Word
  /-- MODEL'S OWN: how many free values have been drawn. -/
  draws   : Nat
deriving DecidableEq, Repr

/-- A channel after reset (R134). -/
def Channel.reset : Channel where
  enReq  := false
  enAck  := false
  ie     := .zero
  dir    := 0
  circ   := false
  pinc   := false
  minc   := false
  usize  := 0
  prio   := 0
  dbm    := false
  ct     := false
  ndtr   := 0
  reload := 0
  par    := 0
  m0ar   := 0
  m1ar   := 0
  flags  := .zero
  cstate := .idle
  perr   := .none
  own0   := .app
  own1   := .app
  evq    := []
  ackAge := 0

/-- The machine after reset (R134). The spec leaves `tick` unspecified and `NUM_CHANNELS`, `MEM0` and the
parameters OPEN: DESIGN CHOICE, logs 2, 5 and 8. No program is loaded and no choice or answer is scripted. -/
def State.reset : State where
  chs     := List.replicate Config.channelsAtReset Channel.reset
  mem     := []
  tick    := 0
  clkEn   := false
  ntf     := .idle
  cp      := 0
  hw      := .none
  faults  := []
  hist    := []
  params  := Config.atReset
  stream  := []
  sched   := []
  answers := []
  draws   := 0

end Sys2Proof.Machine
end

