-- ==== Sys2Proof/Machine/Ops.lean ====
section
/-! DEFINITION. The named operations over channels, memory, results, faults, the history, the peripheral space
and the notifier's entry and return. Every rule is written over these. -/

namespace Sys2Proof.Machine

/-- What a step answers. -/
abbrev Result := Host.Outcome State Fault Refusal

/-! ## Channels (R10, R13) -/

/-- `NUM_CHANNELS` (R7). -/
def State.numChannels (s : State) : Nat := s.chs.length

/-- `ch[c]` (R9). A number that is no channel reads as a channel at reset; no rule reads one. -/
def State.ch (s : State) (c : Nat) : Channel := s.chs.getD c Channel.reset

/-- `ch[c] <- f ch[c]` (R9). -/
def State.modCh (s : State) (c : Nat) (f : Channel → Channel) : State := { s with chs := s.chs.modify c f }

/-! ## History, results and faults -/

/-- `record(ev)` (R9, R33). -/
def State.record (s : State) (e : HistEvent) : State := { s with hist := s.hist ++ [e] }

/-- The head word of the command at `cp` (R60). -/
def State.headWord (s : State) : Word := s.stream.getD s.cp 0

/-- `result(status, value); cp <- cp + len` (R9, R60). -/
def State.result (s : State) (len : Nat) (st : Status) (v : Word) : State :=
  { s with cp := s.cp + len, hist := s.hist ++ [.result s.cp s.headWord st v] }

/-- `hw <- NONE; result(status, value); cp <- cp + len`: how a blocking command completes. -/
def State.finish (s : State) (len : Nat) (st : Status) (v : Word) : State :=
  ({ s with hw := .none } : State).result len st v

/-- `raise Fault(kind)`: the fault and its history record are added, and nothing else changes (R9, R121).
This is the one shared operation by which a contract breach is taken. -/
def State.raise (s : State) (f : Fault) : State :=
  { s with faults := s.faults ++ [f], hist := s.hist ++ [.fault f] }

/-- Check 4 of R57: a command with a channel field whose number is no channel completes with
`InvalidChannel` and has no other effect; otherwise the command's own rule applies to channel `c`. -/
def onChannel (c : BitVec 4) (len : Nat) (s : State) (rule : Nat → State) : Result :=
  if c.toNat < s.numChannels then .next (rule c.toNat) else .next (s.result len .invalidChannel 0)

/-- `tick -_32 t0` (R29). -/
def State.elapsed (s : State) (t0 : Word) : Nat := (s.tick - t0).toNat

/-! ## Memory (R35, R37) -/

/-- What an address that memory does not list reads as. DESIGN CHOICE (log 5): `MEM0` is OPEN, and the reset
memory takes every byte 0. -/
def Memory.unlisted : Byte := 0

/-- One byte of memory. -/
def Memory.read : Memory → Nat → Byte
  | [], _ => Memory.unlisted
  | (b, w) :: m, a => if b = a then w else Memory.read m a

/-- A memory whose first entry may be `(a, v)`: an entry equal to an unlisted byte is left out. -/
def Memory.consByte (a : Nat) (v : Byte) (m : Memory) : Memory :=
  if v = Memory.unlisted then m else (a, v) :: m

/-- Store one byte, keeping the canonical form. -/
def Memory.write : Memory → Nat → Byte → Memory
  | [], a, v => Memory.consByte a v []
  | (b, w) :: m, a, v =>
    if a < b then Memory.consByte a v ((b, w) :: m)
    else if a = b then Memory.consByte a v m
    else (b, w) :: Memory.write m a v

/-- `MemRead(a, n)`: the `n` bytes at `a ..`, assembled little-endian (R9, R37). -/
def Memory.readLE (m : Memory) (a : Nat) : Nat → Nat
  | 0 => 0
  | n + 1 => (Memory.read m a).toNat + 256 * Memory.readLE m (a + 1) n

/-- `MemWrite(a, n, v)`: the low `n` bytes of `v` at `a ..`, little-endian (R9, R37). -/
def Memory.writeLE (m : Memory) (a : Nat) : Nat → Nat → Memory
  | 0, _ => m
  | n + 1, v => Memory.writeLE (Memory.write m a (BitVec.ofNat 8 v)) (a + 1) n (v / 256)

/-- Every address is above `lo`, the addresses rise strictly, lie in the 32-bit space, and no entry equals
what an unlisted address reads as. -/
def Memory.canonAbove : Option Nat → Memory → Bool
  | _, [] => true
  | lo, (a, v) :: m =>
    (match lo with
      | none => true
      | some l => decide (l < a)) &&
      decide (a < 2 ^ 32) && decide (v ≠ Memory.unlisted) && Memory.canonAbove (some a) m

/-- The canonical form of memory: two memories in it that read alike are equal. -/
def Memory.wf (m : Memory) : Bool := Memory.canonAbove none m

/-! ## The peripheral space (R36, R42) -/

/-- Draw a value the oracle is free to answer: the next scripted answer, else a free value. -/
def State.drawWord (s : State) : Word × State :=
  match s.answers with
  | v :: vs => (v, { s with answers := vs })
  | [] => (Config.freeWord s.draws, { s with draws := s.draws + 1 })

/-- The writes to peripheral address `a` not yet answered, each with its width in bytes, oldest first, after history
`h`, when `q` were waiting before it (R42, `LOOPBACK`). DESIGN CHOICE (log 4): a read of the address uses up the
oldest write whole, whatever channel made it and whatever its width. -/
def loopbackQueue (a : Nat) : List HistEvent → List (Nat × Nat) → List (Nat × Nat)
  | [], q => q
  | e :: h, q =>
    match e with
    | .periphWrite _ b n v => loopbackQueue a h (if b = a then q ++ [(n, v)] else q)
    | .periphRead _ b _ _ => loopbackQueue a h (if b = a then q.tail else q)
    | .result .. => loopbackQueue a h q
    | .fault _ => loopbackQueue a h q
    | .xfer .. => loopbackQueue a h q
    | .ackOn _ => loopbackQueue a h q
    | .ackOff _ => loopbackQueue a h q
    | .flag .. => loopbackQueue a h q
    | .snap .. => loopbackQueue a h q
    | .dispatch .. => loopbackQueue a h q
    | .event .. => loopbackQueue a h q
    | .tick => loopbackQueue a h q

/-- The answer a deterministic oracle forces, where it forces one and the unit size matches the peripheral's
native width; `none` is an unconstrained value (R42, R146). DESIGN CHOICE (log 4): R42 does not say what a
`LOOPBACK` read of `n` bytes answers when the oldest write there had another width, and the value is then
unconstrained. -/
def State.oracleAnswer (s : State) (c a n : Nat) : Option Nat :=
  match s.params.nativeWidth c a with
  | some w => if w = n then forced else none
  | none => forced
where
  /-- What the oracle says at a matching width. -/
  forced : Option Nat :=
    match s.params.oracle with
    | .unconstrained => none
    | .loopback =>
      match loopbackQueue a s.hist [] with
      | [] => none
      | (w, v) :: _ => if w = n then some v else none

/-- `PeriphRead(c, a, n)`: an `n`-byte value from the oracle, recorded in the history (R9, R42). -/
def State.periphRead (s : State) (c a n : Nat) : Nat × State :=
  match s.oracleAnswer c a n with
  | some v => (v % 256 ^ n, s.record (.periphRead c a n (v % 256 ^ n)))
  | none => (s.drawWord.1.toNat % 256 ^ n, s.drawWord.2.record (.periphRead c a n (s.drawWord.1.toNat % 256 ^ n)))

/-- `PeriphWrite(c, a, n, v)`: recorded in the history, and nothing else (R9, R42). -/
def State.periphWrite (s : State) (c a n v : Nat) : State := s.record (.periphWrite c a n v)

/-! ## Interrupt entry and return (R124, R125) -/

/-- Interrupt entry: the notifier takes the snapshot mask `m` of channel `c`. Nothing is saved and only `ntf`
changes (R90, R124). -/
def State.enterNotifier (s : State) (c : Nat) (m : Flags) : State :=
  ({ s with ntf := .snapped c m } : State).record (.snap c m)

/-- Interrupt return: the notifier is idle again and nothing is restored (R92, R125). -/
def State.leaveNotifier (s : State) (c : Nat) (m : Flags) : State :=
  ({ s with ntf := .idle } : State).record (.dispatch c m)

/-! ## Lifecycle moves shared by several rules -/

/-- A consumed terminal state, or an acknowledged STOP: IDLE, both slots the application's, no pending error
(R73, R103, R104, R106). -/
def Channel.release (ch : Channel) : Channel :=
  { ch with cstate := .idle, own0 := .app, own1 := .app, perr := .none }

/-- An acknowledgement that did not arrive in time: ERROR with `perr = ACKTO` (R71, R73, R104). -/
def Channel.ackTimedOut (ch : Channel) : Channel := { ch with cstate := .error, perr := .ackto }

/-- The remaining count as a result value, `zext_32(ndtr)` (R73, R76). -/
def Channel.remaining (ch : Channel) : Word := ch.ndtr.setWidth 32

end Sys2Proof.Machine
end

