-- ==== Sys2Proof/Machine/Operands.lean ====
section
/-! DEFINITION. What commands and engine steps name by their operands: unit sizes, the slot scheme and slot
ranges (R22 to R24), the engine's addresses (R78), the validity of a configuration (R67) and the check of a
host access (R113, R114). -/

namespace Sys2Proof.Machine

/-- `ub = 2^usize`, the unit size in bytes (R8, R14). -/
def unitBytes (usize : BitVec 2) : Nat := 2 ^ usize.toNat

/-- The width of a host access in bytes, `n = 2^sz` (R115, R116). -/
def accessBytes (sz : BitVec 2) : Nat := 2 ^ sz.toNat

namespace Channel

/-- The slot scheme (R22). -/
def scheme (ch : Channel) : Scheme :=
  if ch.circ = false then .oneshot else if ch.dbm = false then .halves else .dual

/-- `ub` of the channel. -/
def ub (ch : Channel) : Nat := unitBytes ch.usize

/-- `N`, the configured count (R17). -/
def count (ch : Channel) : Nat := ch.reload.toNat

/-- `i = reload - ndtr`, the index of the next element of the cycle (R24, R78). -/
def index (ch : Channel) : Nat := ch.reload.toNat - ch.ndtr.toNat

/-- The bytes `n` elements span from a base: `n * ub` with the memory increment, `ub` without (R23). -/
def spanBytes (ch : Channel) (n : Nat) : Nat := if ch.minc then n * ch.ub else ch.ub

/-- `slot_range(c, s)` as a half-open range; the empty one is `(0, 0)` (R23). -/
def slotRange (ch : Channel) (s : Slot) : Nat × Nat :=
  match ch.scheme, s with
  | .oneshot, false => (ch.m0ar.toNat, ch.m0ar.toNat + ch.spanBytes ch.count)
  | .oneshot, true => (0, 0)
  | .halves, false => (ch.m0ar.toNat, ch.m0ar.toNat + ch.spanBytes (ch.count / 2))
  | .halves, true =>
    if ch.minc then (ch.m0ar.toNat + ch.count / 2 * ch.ub, ch.m0ar.toNat + ch.count * ch.ub)
    else (ch.m0ar.toNat, ch.m0ar.toNat + ch.ub)
  | .dual, false => (ch.m0ar.toNat, ch.m0ar.toNat + ch.spanBytes ch.count)
  | .dual, true => (ch.m1ar.toNat, ch.m1ar.toNat + ch.spanBytes ch.count)

/-- `cur_slot(c)`, the slot the engine's next element falls in (R24). -/
def curSlot (ch : Channel) : Slot :=
  match ch.scheme with
  | .oneshot => false
  | .halves => !decide (ch.index < ch.count / 2)
  | .dual => ch.ct

/-- `own[s]` (R25). -/
def own (ch : Channel) (s : Slot) : Owner := if s then ch.own1 else ch.own0

/-- `own[s] <- o` (R25). -/
def setOwn (ch : Channel) (s : Slot) (o : Owner) : Channel :=
  if s then { ch with own1 := o } else { ch with own0 := o }

/-- `base(c)` (R78). -/
def base (ch : Channel) : Nat := if ch.scheme = .dual ∧ ch.ct = true then ch.m1ar.toNat else ch.m0ar.toNat

/-- `maddr(c, i)` (R78). -/
def maddr (ch : Channel) (i : Nat) : Nat := ch.base + if ch.minc then i * ch.ub else 0

/-- `paddr(c, i)` (R78). -/
def paddr (ch : Channel) (i : Nat) : Nat := ch.par.toNat + if ch.pinc then i * ch.ub else 0

end Channel

/-- Every byte of `[a, a + n)` is in `IS_RAM` (R80, R114). -/
def allRam (p : Config) (a : Nat) : Nat → Bool
  | 0 => true
  | n + 1 => p.isRam a && allRam p (a + 1) n

/-- `cfg_valid` (R67), its nine conditions in their order, over the naturals, with `N = NDT[15:0]` and
`ub = 2^us`. -/
def cfgValid (h : CfgHead) (par m0ar m1ar ndt : Word) : Bool :=
  let n := ndt.toNat % 2 ^ 16
  let ub := unitBytes h.usize
  (h.dir == 0#2 || h.dir == 1#2) &&
  (h.usize == 0#2 || h.usize == 1#2 || h.usize == 2#2) &&
  (ndt.toNat / 2 ^ 16 == 0 && decide (1 ≤ n)) &&
  !(h.dbm && !h.circ) &&
  !(h.circ && !h.dbm && decide (n < 2)) &&
  (par.toNat % ub == 0 && m0ar.toNat % ub == 0 && (!h.dbm || m1ar.toNat % ub == 0)) &&
  decide (par.toNat + (if h.pinc then n * ub else ub) ≤ 2 ^ 32) &&
  decide (m0ar.toNat + (if h.minc then n * ub else ub) ≤ 2 ^ 32) &&
  (!h.dbm || decide (m1ar.toNat + (if h.minc then n * ub else ub) ≤ 2 ^ 32))

/-- `cfg_write` on the channel (R68); `clk_en` is written beside it. -/
def Channel.configure (ch : Channel) (h : CfgHead) (par m0ar m1ar ndt : Word) : Channel :=
  { ch with
    ie := h.ie, dir := h.dir, circ := h.circ, pinc := h.pinc, minc := h.minc, usize := h.usize
    prio := h.prio, dbm := h.dbm, ct := false, par := par, m0ar := m0ar, m1ar := m1ar
    reload := ndt.setWidth 16, ndtr := ndt.setWidth 16, perr := .none, cstate := .configured }

/-- `[a, a + n)` and the half-open range meet (R113). -/
def meets (a n : Nat) (r : Nat × Nat) : Bool := decide (max a r.1 < min (a + n) r.2)

/-- Every slot of the channels from `c` on, by rising channel and slot. -/
def slotsFrom : List Channel → Nat → List (Nat × Slot × Channel)
  | [], _ => []
  | ch :: l, c => (c, false, ch) :: (c, true, ch) :: slotsFrom l (c + 1)

/-- The first HW-owned slot the access `[a, a + n)` touches, by rising channel and slot (R113; log 9). -/
def State.hwTouch (s : State) (a n : Nat) : Option (Nat × Slot) :=
  ((slotsFrom s.chs 0).find? fun x => x.2.2.own x.2.1 == .hw && meets a n (x.2.2.slotRange x.2.1)).map
    fun x => (x.1, x.2.1)

/-- `hacc_check(A, n)`: the fault of the first check that fails, if any (R114). -/
def State.haccCheck (s : State) (a n : Nat) : Option Fault :=
  if a % n ≠ 0 then some (.hostMisaligned s.cp a n)
  else if allRam s.params a n = false then some (.hostNotRam s.cp a n)
  else
    match s.hwTouch a n with
    | some (c, sl) => some (.ownershipViolation s.cp a n c sl)
    | none => none

end Sys2Proof.Machine
end

