-- ==== Sys2Proof/Machine/Flags.lean ====
section
/-! DEFINITION. The flags and the words computed from state: masks (R54, R90), the interrupt line (R89), the
status word (R61), the control word (R62), the event word (R63) and the code numbers (R20, R21, R60, R63). -/

namespace Sys2Proof

namespace Flags

/-- The bit of class `k`. -/
def get (f : Flags) : Cls → Bool
  | .tc => f.tc
  | .ht => f.ht
  | .te => f.te
  | .fe => f.fe
  | .dme => f.dme

/-- Set the bit of class `k`. -/
def raised (f : Flags) : Cls → Flags
  | .tc => { f with tc := true }
  | .ht => { f with ht := true }
  | .te => { f with te := true }
  | .fe => { f with fe := true }
  | .dme => { f with dme := true }

/-- Write-to-clear: the bits set in the mask become 0, the others stay (R75, R92). -/
def clear (f m : Flags) : Flags :=
  ⟨f.tc && !m.tc, f.ht && !m.ht, f.te && !m.te, f.fe && !m.fe, f.dme && !m.dme⟩

/-- The bits set in both and then joined: is some flag set with its enable set (R89)? -/
def meetsAny (f ie : Flags) : Bool :=
  (f.tc && ie.tc) || (f.ht && ie.ht) || (f.te && ie.te) || (f.fe && ie.fe) || (f.dme && ie.dme)

/-- A 5-bit mask, bit 0 TC, 1 HT, 2 TE, 3 FE, 4 DME (R54). -/
def ofBits (m : BitVec 5) : Flags := ⟨m.getLsbD 0, m.getLsbD 1, m.getLsbD 2, m.getLsbD 3, m.getLsbD 4⟩

end Flags

/-- The code of a flag class as an event's `src` (R63). -/
def Cls.code : Cls → BitVec 3
  | .tc => 0
  | .ht => 1
  | .te => 2
  | .fe => 3
  | .dme => 4

/-- The pending error of an error class (R83). -/
def ErrCls.perr : ErrCls → Machine.PErr
  | .te => .te
  | .fe => .fe
  | .dme => .dme

namespace Machine

/-- The code by which RDSTAT reports `cstate` (R20). -/
def CState.code : CState → BitVec 3
  | .idle => 0
  | .configured => 1
  | .armed => 2
  | .running => 3
  | .completed => 4
  | .error => 5

/-- The code by which RDSTAT reports `perr` (R21). -/
def PErr.code : PErr → BitVec 3
  | .none => 0
  | .te => 1
  | .fe => 2
  | .dme => 3
  | .ackto => 4

/-- 1 is HW and 0 is APP (R61). -/
def Owner.bit : Owner → Bool
  | .app => false
  | .hw => true

/-- The code of an event's outcome (R63). -/
def EvOutcome.code : EvOutcome → BitVec 2
  | .success => 0
  | .transferError => 1
  | .fifoError => 2

/-- The 4-bit status codes (R60). -/
def Status.code : Status → BitVec 4
  | .ok => 0
  | .configurationRejected => 1
  | .invalidStateError => 2
  | .hardwareAcknowledgeTimeout => 3
  | .timeoutError => 4
  | .transferError => 5
  | .fifoError => 6
  | .invalidConfiguration => 7
  | .illegalCommand => 8
  | .empty => 9
  | .invalidChannel => 10

/-- `outcome_map(perr)`, the status of a consumed ERROR (R101). R101 maps the four errors; `NONE` does not
occur in ERROR (R135), and answers as an acknowledgement timeout here (log 10). -/
def outcomeMap : PErr → Status
  | .te => .transferError
  | .fe => .fifoError
  | .dme => .fifoError
  | .ackto => .hardwareAcknowledgeTimeout
  | .none => .hardwareAcknowledgeTimeout

/-- `irq(c)`, the level-sensitive interrupt line (R89). -/
def Channel.irq (ch : Channel) : Bool := ch.flags.meetsAny ch.ie

/-- A channel is enabled when either side of the enable is 1 (R15). -/
def Channel.enabled (ch : Channel) : Bool := ch.enReq || ch.enAck

/-- `en_pending(c)` (R15, R128). -/
def Channel.enPending (ch : Channel) : Bool := ch.enReq && !ch.enAck && ch.cstate == .armed

/-- `dis_pending(c)` (R15, R128). -/
def Channel.disPending (ch : Channel) : Bool := !ch.enReq && ch.enAck

/-- `ack_pending(c)` (R128). -/
def Channel.ackPending (ch : Channel) : Bool := ch.enPending || ch.disPending

/-- `status_word(c)` (R61). -/
def statusWord (clkEn : Bool) (ch : Channel) : Word :=
  placeFlags 0 ch.flags ||| place 8 ch.cstate.code ||| placeBit 12 ch.own0.bit ||| placeBit 13 ch.own1.bit |||
    place 16 ch.perr.code ||| place 20 (BitVec.ofNat 8 ch.evq.length) ||| placeBit 31 clkEn

/-- The configuration fields a channel holds, as the CFG head that would write them (R14, R68). -/
def Channel.head (ch : Channel) : CfgHead :=
  ⟨ch.ie, ch.dir, ch.circ, ch.pinc, ch.minc, ch.usize, ch.prio, ch.dbm⟩

/-- `cr_word(c)` (R62, R14). -/
def crWord (ch : Channel) : Word :=
  placeBit 0 ch.enAck ||| cfgBits ch.head ||| placeBit 16 ch.ct ||| placeBit 17 ch.enReq

/-- `event_word(e)` (R63). -/
def eventWord (e : EventRec) : Word := place 0 e.src.code ||| place 4 e.outcome.code ||| placeBit 8 e.slot

end Machine

end Sys2Proof
end

