-- ==== Sys2Proof/Machine/Engine.lean ====
section
/-! DEFINITION. The steps of the transfer engine of a channel (R78 to R85): enable acknowledgement, element
transfer with half and full points, wrap and swap, errors, disable acknowledgement. -/

namespace Sys2Proof.Machine

/-- Enable acknowledgement (R79). -/
def ackOnStep (c : Nat) (s : State) : State :=
  (s.modCh c fun ch => { ch with enAck := true, cstate := .running }).record (.ackOn c)

/-- Disable acknowledgement (R85). -/
def ackOffStep (c : Nat) (s : State) : State :=
  (s.modCh c fun ch => { ch with enAck := false }).record (.ackOff c)

/-- The next element's bytes are all in `IS_RAM` (R80, R84). -/
def Channel.targetInRam (p : Config) (ch : Channel) : Bool := allRam p (ch.maddr ch.index) ch.ub

/-- Move one element between peripheral and memory; the value moved and the state after (R80, R39). -/
def moveElement (c : Nat) (s : State) : Nat × State :=
  let ch := s.ch c
  let am := ch.maddr ch.index
  let ap := ch.paddr ch.index
  if ch.dir = 0#2 then
    let r := s.periphRead c ap ch.ub
    (r.1, { r.2 with mem := Memory.writeLE r.2.mem am ch.ub r.1 })
  else
    let v := Memory.readLE s.mem am ch.ub
    (v, s.periphWrite c ap ch.ub v)

namespace Channel

/-- The element being transferred completes the half of its cycle (R81). -/
def atHalf (ch : Channel) : Bool := decide (2 ≤ ch.count) && decide (ch.index + 1 = ch.count / 2)

/-- The element being transferred is the last of its cycle (R80). -/
def atFull (ch : Channel) : Bool := ch.ndtr - 1 == 0

/-- The count and, at the half-transfer point, the flag and in HALVES the entry into slot 1 (R80). -/
def countElement (ch : Channel) : Channel :=
  if ch.atHalf then
    { ch with
      ndtr := ch.ndtr - 1, flags := ch.flags.raised .ht
      own1 := if ch.scheme = .halves then .hw else ch.own1 }
  else { ch with ndtr := ch.ndtr - 1 }

/-- The full-transfer point: a one-shot channel disables itself; a circular one wraps, and the engine enters
the other slot of DUAL or slot 0 of HALVES (R80). -/
def endCycle (ch : Channel) : Channel :=
  match ch.scheme with
  | .oneshot =>
    { ch with
      flags := ch.flags.raised .tc, enAck := false, enReq := false
      cstate := if ch.cstate = .running then .completed else ch.cstate }
  | .dual =>
    { ch with flags := ch.flags.raised .tc, ndtr := ch.reload, ct := !ch.ct }.setOwn (!ch.ct) .hw
  | .halves => { ch with flags := ch.flags.raised .tc, ndtr := ch.reload, own0 := .hw }

/-- What an element transfer does to its channel (R80). -/
def advance (ch : Channel) : Channel := if ch.atFull then ch.countElement.endCycle else ch.countElement

/-- The flag events of an element transfer, in R80's order. -/
def advanceEvents (c : Nat) (ch : Channel) : List HistEvent :=
  (if ch.atHalf then [.flag c .ht] else []) ++ (if ch.atFull then [.flag c .tc] else [])

/-- A spontaneous error of class `k` ends the transfer (R83). -/
def fail (k : ErrCls) (ch : Channel) : Channel :=
  { ch with
    flags := ch.flags.raised k.cls, enAck := false, enReq := false
    cstate := if ch.cstate = .running then .error else ch.cstate
    perr := if ch.cstate = .running then k.perr else ch.perr }

end Channel

/-- Element transfer (R80). -/
def transferStep (c : Nat) (s : State) : State :=
  let ch := s.ch c
  let r := moveElement c s
  let t := (r.2.record (.xfer c ch.curSlot ch.index (ch.maddr ch.index) (ch.paddr ch.index) r.1)).modCh c
    Channel.advance
  { t with hist := t.hist ++ ch.advanceEvents c }

/-- Spontaneous error (R83). -/
def errStep (c : Nat) (k : ErrCls) (s : State) : State :=
  (s.modCh c (Channel.fail k)).record (.flag c k.cls)

/-- The transfer step of the schedule: an element transfer, or the bus error in its place when some byte is
outside `IS_RAM` (R80, R84). -/
def xferStep (c : Nat) (s : State) : State :=
  if Channel.targetInRam s.params (s.ch c) then transferStep c s else errStep c .te s

end Sys2Proof.Machine
end

