-- ==== Sys2Proof/Machine/Channel.lean ====
section
/-! DEFINITION. The channel controller commands: CFG, START, STOP, RDSTAT, CLRF, RDCNT, RDCR (R66 to R77).
START and STOP are two host steps each: the issue step here as the command's meaning, and the poll step that
ends its wait. -/

namespace Sys2Proof.Machine

/-- CFG (R66): enabled, then state, then validity; then `cfg_write` (R68). -/
def execCfg (c : BitVec 4) (h : CfgHead) (par m0ar m1ar ndt : Word) (s : State) : Result :=
  onChannel c 5 s fun c =>
    let ch := s.ch c
    if ch.enabled then s.result 5 .configurationRejected 0
    else if ch.cstate ≠ .idle ∧ ch.cstate ≠ .configured then s.result 5 .invalidStateError 0
    else if cfgValid h par m0ar m1ar ndt = false then s.result 5 .invalidConfiguration 0
    else
      ({ s.modCh c (·.configure h par m0ar m1ar ndt) with clkEn := true } : State).result 5 .ok 0

/-- The change START's issue makes to its channel (R70). -/
def Channel.arm (ch : Channel) : Channel :=
  { ch with flags := .zero, enReq := true, cstate := .armed, own0 := .hw, own1 := .app, ackAge := 0 }

/-- START, issue step (R70). -/
def execStart (c : BitVec 4) (s : State) : Result :=
  onChannel c 1 s fun c =>
    if (s.ch c).cstate ≠ .configured then s.result 1 .invalidStateError 0
    else { s.modCh c Channel.arm with hw := .startWait c s.tick }

/-- START, poll step, taken when the channel has left ARMED or the acknowledgement has timed out (R71). -/
def startPoll (c : Nat) (s : State) : State :=
  if (s.ch c).cstate ≠ .armed then s.finish 1 .ok 0
  else
    (s.modCh c fun ch => { ch with enReq := false }.ackTimedOut).finish 1 .hardwareAcknowledgeTimeout 0

/-- The change STOP's issue, and SWAIT's timeout, make to their channel (R72, R103). -/
def Channel.requestDisable (ch : Channel) : Channel := { ch with enReq := false, ackAge := 0 }

/-- STOP, issue step (R72). -/
def execStop (c : BitVec 4) (s : State) : Result :=
  onChannel c 1 s fun c => { s.modCh c Channel.requestDisable with hw := .stopWait c s.tick }

/-- STOP, poll step, taken when the disable is acknowledged or has timed out (R73). -/
def stopPoll (c : Nat) (s : State) : State :=
  if (s.ch c).enAck = false then (s.modCh c Channel.release).finish 1 .ok (s.ch c).remaining
  else (s.modCh c Channel.ackTimedOut).finish 1 .hardwareAcknowledgeTimeout (s.ch c).remaining

/-- RDSTAT (R74). -/
def execRdstat (c : BitVec 4) (s : State) : Result :=
  onChannel c 1 s fun c => s.result 1 .ok (statusWord s.clkEn (s.ch c))

/-- CLRF (R75). -/
def execClrf (c : BitVec 4) (mask : BitVec 5) (s : State) : Result :=
  onChannel c 1 s fun c =>
    (s.modCh c fun ch => { ch with flags := ch.flags.clear (.ofBits mask) }).result 1 .ok 0

/-- RDCNT (R76). -/
def execRdcnt (c : BitVec 4) (s : State) : Result :=
  onChannel c 1 s fun c => s.result 1 .ok (s.ch c).remaining

/-- RDCR (R77). -/
def execRdcr (c : BitVec 4) (s : State) : Result :=
  onChannel c 1 s fun c => s.result 1 .ok (crWord (s.ch c))

end Sys2Proof.Machine
end

