-- ==== Sys2Proof/Machine/HostAccess.lean ====
section
/-! DEFINITION. Host buffer access: HRD and HWR (R113 to R116). -/

namespace Sys2Proof.Machine

/-- HRD (R115). A failed check raises its fault: the command does not complete and `cp` stays (R114, R121). -/
def execHrd (sz : BitVec 2) (a : Word) (s : State) : Result :=
  match s.haccCheck a.toNat (accessBytes sz) with
  | some f => .next (s.raise f)
  | none => .next (s.result 2 .ok (BitVec.ofNat 32 (Memory.readLE s.mem a.toNat (accessBytes sz))))

/-- HWR (R116). The bits of the value above the width are ignored. -/
def execHwr (sz : BitVec 2) (a v : Word) (s : State) : Result :=
  match s.haccCheck a.toNat (accessBytes sz) with
  | some f => .next (s.raise f)
  | none =>
    .next (({ s with mem := Memory.writeLE s.mem a.toNat (accessBytes sz) v.toNat } : State).result 3 .ok 0)

end Sys2Proof.Machine
end

