-- ==== Sys2Proof/Machine/Session.lean ====
section
/-! DEFINITION. The session orchestrator: SWAIT, SACK, SEVT, DLY (R101 to R108), each blocking command with its
poll steps. -/

namespace Sys2Proof.Machine

/-- SWAIT, issue step (R102). -/
def execSwait (c : BitVec 4) (t : Word) (s : State) : Result :=
  onChannel c 2 s fun c =>
    let ch := s.ch c
    if ch.scheme ≠ .oneshot ∨ (ch.cstate ≠ .running ∧ ch.cstate ≠ .completed ∧ ch.cstate ≠ .error) then
      s.result 2 .invalidStateError 0
    else { s with hw := .swaitPoll c s.tick t }

/-- SWAIT, poll step: completion, then error, then timeout (R103). DEDUCED (log 18): an ERROR of a stopped engine is
consumed here also where START's timeout made it, as R103 and R109 say and R111, which is derived from R103, does not. -/
def swaitPollStep (c : Nat) (s : State) : State :=
  let ch := s.ch c
  match ch.cstate with
  | .completed => (s.modCh c Channel.release).finish 2 .ok ch.remaining
  | .error =>
    if ch.enAck = false then (s.modCh c Channel.release).finish 2 (outcomeMap ch.perr) ch.remaining
    else s.finish 2 (outcomeMap ch.perr) ch.remaining
  | .idle => timedOut
  | .configured => timedOut
  | .armed => timedOut
  | .running => timedOut
where
  /-- The timeout branch: the disable is requested and the wait goes on for its acknowledgement. -/
  timedOut : State := { s.modCh c Channel.requestDisable with hw := .swaitStop c s.tick }

/-- The status of a timed-out SWAIT whose disable is acknowledged: the outcome that landed meanwhile, else
`TimeoutError` (R104). -/
def stoppedStatus (ch : Channel) : Status :=
  match ch.cstate with
  | .completed => .ok
  | .error => outcomeMap ch.perr
  | .idle => .timeoutError
  | .configured => .timeoutError
  | .armed => .timeoutError
  | .running => .timeoutError

/-- SWAIT, stop step after a timeout (R104). DEDUCED (log 19): with the disable acknowledged it leaves IDLE from
COMPLETED and ERROR also, as R104 says, where R109's table lists RUNNING only. -/
def swaitStopStep (c : Nat) (s : State) : State :=
  let ch := s.ch c
  if ch.enAck = false then (s.modCh c Channel.release).finish 2 (stoppedStatus ch) ch.remaining
  else (s.modCh c Channel.ackTimedOut).finish 2 .hardwareAcknowledgeTimeout ch.remaining

/-- SACK (R106). -/
def execSack (c : BitVec 4) (s : State) : Result :=
  onChannel c 1 s fun c =>
    let ch := s.ch c
    if ch.cstate = .completed ∧ ch.enAck = false then
      (s.modCh c Channel.release).result 1 .ok ch.remaining
    else if ch.cstate = .error ∧ ch.enAck = false then
      (s.modCh c Channel.release).result 1 (outcomeMap ch.perr) ch.remaining
    else s.result 1 .invalidStateError 0

/-- SEVT (R107). -/
def execSevt (c : BitVec 4) (s : State) : Result :=
  onChannel c 1 s fun c =>
    match (s.ch c).evq with
    | [] => s.result 1 .empty 0
    | e :: q => (s.modCh c fun ch => { ch with evq := q }).result 1 .ok (eventWord e)

/-- DLY, issue step (R108). -/
def execDly (n : Word) (s : State) : Result := .next { s with hw := .dlyWait s.tick n }

/-- DLY, poll step (R108). -/
def dlyPoll (s : State) : State := s.finish 2 .ok 0

end Sys2Proof.Machine
end

