-- ==== Sys2Proof/Machine/Dispatch.lean ====
section
/-! DEFINITION. One arm per command: the host's issue step of a command (R5, R51). -/

namespace Sys2Proof.Machine

def exec (i : Instr) (s : State) : Host.Outcome State Fault Refusal :=
  match i with
  | .cfg c h par m0ar m1ar ndt => Sys2Proof.Machine.execCfg c h par m0ar m1ar ndt s
  | .start c => Sys2Proof.Machine.execStart c s
  | .stop c => Sys2Proof.Machine.execStop c s
  | .rdstat c => Sys2Proof.Machine.execRdstat c s
  | .clrf c mask => Sys2Proof.Machine.execClrf c mask s
  | .rdcnt c => Sys2Proof.Machine.execRdcnt c s
  | .rdcr c => Sys2Proof.Machine.execRdcr c s
  | .swait c t => Sys2Proof.Machine.execSwait c t s
  | .sack c => Sys2Proof.Machine.execSack c s
  | .sevt c => Sys2Proof.Machine.execSevt c s
  | .dly n => Sys2Proof.Machine.execDly n s
  | .hrd sz a => Sys2Proof.Machine.execHrd sz a s
  | .hwr sz a v => Sys2Proof.Machine.execHwr sz a v s

end Sys2Proof.Machine
end

