-- ==== Sys2Proof/Machine/Poll.lean ====
section
/-! DEFINITION. The host's wait context: when a held command's poll step is enabled and what it does (R31, R71,
R73, R103, R104, R108). -/

namespace Sys2Proof.Machine

/-- The poll condition of the wait context holds (R71, R73, R103, R104, R108; R129, condition 2). -/
def State.pollReady (s : State) : Bool :=
  match s.hw with
  | .none => false
  | .startWait c t0 => (s.ch c).cstate != .armed || decide (s.params.ackTimeout ≤ s.elapsed t0)
  | .stopWait c t0 => !(s.ch c).enAck || decide (s.params.ackTimeout ≤ s.elapsed t0)
  | .swaitPoll c t0 timeout =>
    (s.ch c).cstate == .completed || (s.ch c).cstate == .error || decide (timeout.toNat ≤ s.elapsed t0)
  | .swaitStop c t0 => !(s.ch c).enAck || decide (s.params.ackTimeout ≤ s.elapsed t0)
  | .dlyWait t0 n => decide (n.toNat ≤ s.elapsed t0)

/-- The poll step of the command that opened the wait (R31). -/
def pollStep (s : State) : State :=
  match s.hw with
  | .none => s
  | .startWait c _ => startPoll c s
  | .stopWait c _ => stopPoll c s
  | .swaitPoll c _ _ => swaitPollStep c s
  | .swaitStop c _ => swaitStopStep c s
  | .dlyWait _ _ => dlyPoll s

end Sys2Proof.Machine
end

