-- ==== Sys2Proof/Machine/HostStep.lean ====
section
/-! DEFINITION. The host's step: the poll of a held command, or the fetch, decode and issue of the command at
`cp` (R31, R57 to R59). -/

namespace Sys2Proof.Machine

/-- The words from the command pointer on. -/
def State.fetch (s : State) : List Word := s.stream.drop s.cp

/-- The length of an illegal command: 1 for an unknown opcode, else the opcode's (R58). -/
def illegalLength : Reject → Nat
  | .unknownOpcode => 1
  | .truncated => 1
  | .reservedBits len => len
  | .badSize len => len

/-- What the host does with words that are no command: a truncated command is a fault (R59), any other is an
illegal command that completes at once with no other effect (R58). -/
def rejectStep (r : Reject) (s : State) : State :=
  if r = .truncated then s.raise (.malformedStream s.cp) else s.result (illegalLength r) .illegalCommand 0

/-- The host's issue step: decode at `cp` (R57) and run what is there. -/
def issueStep (s : State) : Result :=
  match decode s.fetch with
  | .ok i => exec i s
  | .error r => .next (rejectStep r s)

/-- The host has an enabled step: never while the notifier runs (R91); in a wait, when the poll condition holds
(R31); else while the stream has words left (R137). -/
def State.hostReady (s : State) : Bool :=
  s.ntf == .idle && if s.hw = .none then decide (s.cp < s.stream.length) else s.pollReady

/-- One host step. -/
def hostStep (s : State) : Result := if s.hw = .none then issueStep s else .next (pollStep s)

end Sys2Proof.Machine
end

