-- ==== Sys2Proof/Machine/Notifier.lean ====
section
/-! DEFINITION. The completion notifier: SNAPSHOT and DISPATCH (R90 to R96), ownership handoff (R93) and event
delivery (R94). -/

namespace Sys2Proof.Machine

/-- SNAPSHOT: all five flags as they stand (R90). -/
def snapStep (c : Nat) (s : State) : State := s.enterNotifier c (s.ch c).flags

/-- The class marks a slot boundary in the scheme (R93). -/
def isBoundary (k : Cls) (sch : Scheme) : Bool :=
  match k, sch with
  | .tc, .halves => true
  | .tc, .dual => true
  | .ht, .halves => true
  | .tc, .oneshot => false
  | .ht, .oneshot => false
  | .ht, .dual => false
  | .te, _ => false
  | .fe, _ => false
  | .dme, _ => false

/-- The class ends the transfer in the scheme (R93). -/
def isTerminal (k : Cls) (sch : Scheme) : Bool :=
  match k, sch with
  | .te, _ => true
  | .fe, _ => true
  | .dme, _ => true
  | .tc, .oneshot => true
  | .tc, .halves => false
  | .tc, .dual => false
  | .ht, _ => false

/-- `own_effect(c, k)`: the ownership handoff at callback time (R93). -/
def Channel.ownEffect (k : Cls) (ch : Channel) : Channel :=
  if (isBoundary k ch.scheme || isTerminal k ch.scheme) && !ch.enAck then { ch with own0 := .app, own1 := .app }
  else if isBoundary k ch.scheme then ch.setOwn (!ch.curSlot) .app
  else ch

/-- The outcome an event of class `k` carries (R94). -/
def outcomeOf : Cls → EvOutcome
  | .ht => .success
  | .tc => .success
  | .te => .transferError
  | .fe => .fifoError
  | .dme => .fifoError

/-- The slot an event of class `k` is about (R94). -/
def Channel.eventSlot (k : Cls) (ch : Channel) : Slot :=
  match ch.scheme with
  | .oneshot => false
  | .halves => if k = .ht then false else if k = .tc then true else ch.curSlot
  | .dual => if k = .tc then !ch.ct else ch.ct

/-- The event record delivered for class `k` (R94). -/
def Channel.eventOf (k : Cls) (ch : Channel) : EventRec := ⟨k, outcomeOf k, ch.eventSlot k⟩

/-- `deliver(c, k)` into a queue that is not full (R94). -/
def deliver (c : Nat) (k : Cls) (s : State) : State :=
  let e := (s.ch c).eventOf k
  (s.modCh c fun ch => { ch with evq := ch.evq ++ [e] }).record (.event c e)

/-- The queue of the channel is full (R94). -/
def State.queueFull (s : State) (c : Nat) : Bool := (s.ch c).evq.length == s.params.evqDepth

/-- The classes of a dispatch in their order (R92, R95). -/
def dispatchOrder : List Cls := [.te, .fe, .dme, .ht, .tc]

/-- The classes of a snapshot processed one after the other; after the last the notifier returns. A delivery
into a full queue raises `EVQ_OVERFLOW` and stops there: what was processed stays and `ntf` stays SNAPPED
(R92, R94, R121). -/
def dispatchClasses (c : Nat) (m : Flags) : List Cls → State → State
  | [], s => s.leaveNotifier c m
  | k :: ks, s =>
    if m.get k then
      let t := s.modCh c (Channel.ownEffect k)
      if (t.ch c).ie.get k then
        if t.queueFull c then t.raise (.evqOverflow c ((t.ch c).eventOf k))
        else dispatchClasses c m ks (deliver c k t)
      else dispatchClasses c m ks t
    else dispatchClasses c m ks s

/-- DISPATCH: write-to-clear of exactly the snapshot, then its classes (R92). -/
def dispatchStep (s : State) : State :=
  match s.ntf with
  | .idle => s
  | .snapped c m =>
    dispatchClasses c m dispatchOrder (s.modCh c fun ch => { ch with flags := ch.flags.clear m })

end Sys2Proof.Machine
end

