-- ==== Sys2Proof/Machine/Tick.lean ====
section
/-! DEFINITION. The tick (R128) and when it may advance (R129). -/

namespace Sys2Proof.Machine

/-- The channel's pending acknowledgement has reached its bound (R129, condition 3). -/
def ackBoundReached (p : Config) (ch : Channel) : Bool :=
  (ch.disPending && decide (Config.disAckBound ≤ ch.ackAge)) ||
    (ch.enPending &&
      match p.enAckBound with
      | none => false
      | some b => decide (b ≤ ch.ackAge))

/-- `tick_allowed()` (R129). -/
def State.tickAllowed (s : State) : Bool :=
  s.faults.isEmpty && !s.pollReady &&
    (s.params.hangAdmitted || !s.chs.any (ackBoundReached s.params))

/-- A channel over one tick (R128). -/
def Channel.age (ch : Channel) : Channel :=
  if ch.ackPending then { ch with ackAge := ch.ackAge + 1 } else ch

/-- The TICK step (R128). -/
def tickStep (s : State) : State :=
  ({ s with tick := s.tick + 1, chs := s.chs.map Channel.age } : State).record .tick

end Sys2Proof.Machine
end

