-- ==== Sys2Proof/Machine/Sched.lean ====
section
/-! DEFINITION. Which steps are enabled (the guards of R71 to R129), which one the scheduler takes (R5), and what
it does. -/

namespace Sys2Proof.Machine

/-- The guard of a step, as its own rule gives it. -/
def State.guard (s : State) : Move → Bool
  | .host => s.hostReady
  | .ackOn c => decide (c < s.numChannels) && (s.ch c).enPending
  | .ackOff c => decide (c < s.numChannels) && (s.ch c).disPending
  | .xfer c => decide (c < s.numChannels) && (s.ch c).enAck && (s.ch c).ndtr != 0
  | .err c k => decide (c < s.numChannels) && (s.ch c).enAck && s.params.admits k
  | .snap c => decide (c < s.numChannels) && s.ntf == .idle && (s.ch c).irq
  | .dispatch => s.ntf != .idle
  | .tick => s.tickAllowed

/-- A step is enabled: its guard holds and no fault is recorded (R121). -/
def State.enabled (s : State) (m : Move) : Bool := s.faults.isEmpty && s.guard m

/-- Every step of the machine's agents. -/
def allMoves (n : Nat) : List Move :=
  [.host, .dispatch, .tick] ++
    (List.range n).flatMap fun c =>
      [.ackOn c, .ackOff c, .xfer c, .err c .te, .err c .fe, .err c .dme, .snap c]

/-- The steps enabled now. -/
def State.enabledMoves (s : State) : List Move := (allMoves s.numChannels).filter s.enabled

/-- The first enabled step of a list of choices and the choices after it; choices that are not enabled are
no steps and are passed over (R110). -/
def firstEnabled (s : State) : List Move → Option (Move × List Move)
  | [] => none
  | m :: l => if s.enabled m then some (m, l) else firstEnabled s l

/-- The step the scheduler takes, and the state with that choice used up: the next scripted choice that is
enabled, else a free choice among all enabled steps (R5; log 3). -/
def State.pick (s : State) : Option (Move × State) :=
  match firstEnabled s s.sched with
  | some (m, l) => some (m, { s with sched := l })
  | none =>
    (s.enabledMoves[Config.freeMove s.draws % s.enabledMoves.length]?).map fun m =>
      (m, { s with sched := [], draws := s.draws + 1 })

/-- The effect of a step. -/
def perform (m : Move) (s : State) : Result :=
  match m with
  | .host => hostStep s
  | .ackOn c => .next (ackOnStep c s)
  | .ackOff c => .next (ackOffStep c s)
  | .xfer c => .next (xferStep c s)
  | .err c k => .next (errStep c k s)
  | .snap c => .next (snapStep c s)
  | .dispatch => .next (dispatchStep s)
  | .tick => .next (tickStep s)

end Sys2Proof.Machine
end

