-- ==== Sys2Proof/Machine/Step.lean ====
section
/-! DEFINITION. One step of the machine, and a command placed where the host fetches. -/

namespace Sys2Proof.Machine

/-- One step (R5, R6). A recorded fault stops the machine for good (R121). -/
def step (s : State) : Host.Outcome State Fault Refusal :=
  match s.faults with
  | f :: _ => .fault f
  | [] =>
    match s.pick with
    | some (m, t) => perform m t
    | none => .refused .noEnabledStep

/-- The command whose bits are `w` at the command pointer, with all that its fetch takes: the host is chosen
next, waits for nothing, is not held by the notifier, and no fault is recorded (log 11). -/
def State.withFetchWord (s : State) (nbits w : Nat) : State :=
  { s with
    stream := streamBefore s.cp s.stream ++ tableWords nbits w
    sched := .host :: s.sched, hw := .none, ntf := .idle, faults := [] }
where
  /-- The first `n` words of the stream, with words of 0 after its end. -/
  streamBefore (n : Nat) (l : List Word) : List Word := (l ++ List.replicate n 0).take n

end Sys2Proof.Machine
end

