-- ==== Sys2Proof/Machine/Invariant.lean ====
section
/-! DEFINITION. The invariants of the machine: R135's list for each channel, the shape of a descriptor that
R78 and R38 rest on, the ranges of R7, the pointer of the host, and the bounds of R129. -/

namespace Sys2Proof.Machine

/-- The host waits for the disable of channel `c`: `STOP_WAIT(c, _)` or `SWAIT_STOP(c, _)` (R31, R135). -/
def Wait.stopping (c : Nat) : Wait → Bool
  | .none => false
  | .startWait .. => false
  | .stopWait d _ => d == c
  | .swaitPoll .. => false
  | .swaitStop d _ => d == c
  | .dlyWait .. => false

/-- The host is in `STOP_WAIT(c, _)` (R135). -/
def Wait.inStopWait (c : Nat) : Wait → Bool
  | .none => false
  | .startWait .. => false
  | .stopWait d _ => d == c
  | .swaitPoll .. => false
  | .swaitStop .. => false
  | .dlyWait .. => false

/-- The host polls a SWAIT of channel `c`: `SWAIT_POLL(c, _, _)` or `SWAIT_STOP(c, _)` (R31). -/
def Wait.inSwait (c : Nat) : Wait → Bool
  | .none => false
  | .startWait .. => false
  | .stopWait .. => false
  | .swaitPoll d _ _ => d == c
  | .swaitStop d _ => d == c
  | .dlyWait .. => false

/-- R135's list for channel `c`, with the facts its induction and R104 need (`errReq`, `stopReq`, `live`,
`swait`). -/
structure ChannelInv (s : State) (c : Nat) : Prop where
  rest      : (s.ch c).cstate = .idle ∨ (s.ch c).cstate = .configured →
    (s.ch c).enReq = false ∧ (s.ch c).enAck = false ∧ (s.ch c).own0 = .app ∧ (s.ch c).own1 = .app
  armed     : (s.ch c).cstate = .armed →
    (s.ch c).enAck = false ∧ ((s.ch c).enReq = true ∨ s.hw.inStopWait c = true)
  running   : (s.ch c).cstate = .running →
    ((s.ch c).enAck = true ∧ (s.ch c).enReq = true) ∨ s.hw.stopping c = true
  completed : (s.ch c).cstate = .completed →
    (s.ch c).enReq = false ∧ (s.ch c).enAck = false ∧ (s.ch c).ndtr = 0
  perr      : (s.ch c).perr ≠ .none ↔ (s.ch c).cstate = .error
  ndtr      : (s.ch c).ndtr.toNat ≤ (s.ch c).reload.toNat
  evq       : (s.ch c).evq.length ≤ s.params.evqDepth
  ct        : (s.ch c).ct = true → (s.ch c).scheme = .dual
  errReq    : (s.ch c).cstate = .error → (s.ch c).enReq = false
  stopReq   : s.hw.stopping c = true → (s.ch c).enReq = false
  live      : (s.ch c).cstate = .configured ∨ (s.ch c).cstate = .armed ∨ (s.ch c).cstate = .running →
    1 ≤ (s.ch c).ndtr.toNat
  swait     : s.hw.inSwait c = true → (s.ch c).scheme = .oneshot ∧
    ((s.ch c).cstate = .running ∨ (s.ch c).cstate = .completed ∨ (s.ch c).cstate = .error)

/-- The lifecycle invariant: R135 for every channel of the machine. -/
def LifecycleInv (s : State) : Prop := ∀ c, c < s.numChannels → ChannelInv s c

/-- A descriptor as an accepted CFG or reset leaves it: conditions 1, 2 and 4 to 9 of R67 for the count it holds.
Condition 3 (a count of at least 1) is left out, because it fails at reset. -/
structure DescriptorOk (ch : Channel) : Prop where
  dir    : ch.dir = 0#2 ∨ ch.dir = 1#2
  usize  : ch.usize ≠ 3#2
  dbm    : ch.dbm = true → ch.circ = true
  halves : ch.circ = true → ch.dbm = false → 2 ≤ ch.count
  parAl  : ch.par.toNat % ch.ub = 0
  m0arAl : ch.m0ar.toNat % ch.ub = 0
  m1arAl : ch.dbm = true → ch.m1ar.toNat % ch.ub = 0
  parTop : ch.par.toNat + (if ch.pinc then ch.count * ch.ub else ch.ub) ≤ 2 ^ 32
  m0Top  : ch.m0ar.toNat + ch.spanBytes ch.count ≤ 2 ^ 32
  m1Top  : ch.dbm = true → ch.m1ar.toNat + ch.spanBytes ch.count ≤ 2 ^ 32

/-- Every channel's descriptor is in that shape. -/
def DescriptorInv (s : State) : Prop := ∀ c, c < s.numChannels → DescriptorOk (s.ch c)

/-- The parameters and the number of channels are in the ranges R7 gives them. -/
def ParamsInv (s : State) : Prop := s.params.wf s.numChannels

/-- The length of the command that opened the wait (R12, R51). -/
def Wait.pendingLength : Wait → Nat
  | .none => 0
  | .startWait .. => 1
  | .stopWait .. => 1
  | .swaitPoll .. => 2
  | .swaitStop .. => 2
  | .dlyWait .. => 2

/-- The command pointer, with the command that is waiting, does not pass the end of the stream (R12, R49). -/
def PointerInv (s : State) : Prop := s.cp + s.hw.pendingLength ≤ s.stream.length

/-- No acknowledgement wait outlasts its bound (R129): while the host waits for a disable that is not yet
acknowledged, the ticks since the wait began are at most the acknowledgement's age, which is at most
`DIS_ACK_BOUND`; likewise for an enable and `EN_ACK_BOUND`, where that bound is finite. -/
structure AckBoundInv (s : State) : Prop where
  stop  : ∀ c t0, s.hw = .stopWait c t0 → (s.ch c).enAck = true →
    s.elapsed t0 ≤ (s.ch c).ackAge ∧ (s.ch c).ackAge ≤ Config.disAckBound
  swait : ∀ c t0, s.hw = .swaitStop c t0 → (s.ch c).enAck = true →
    s.elapsed t0 ≤ (s.ch c).ackAge ∧ (s.ch c).ackAge ≤ Config.disAckBound
  start : ∀ c t0 b, s.hw = .startWait c t0 → s.params.enAckBound = some b → (s.ch c).cstate = .armed →
    s.elapsed t0 ≤ (s.ch c).ackAge ∧ (s.ch c).ackAge ≤ b

/-- The wait context names a channel of the machine (R31). -/
def WaitInv (s : State) : Prop :=
  match s.hw with
  | .none => True
  | .startWait c _ => c < s.numChannels
  | .stopWait c _ => c < s.numChannels
  | .swaitPoll c _ _ => c < s.numChannels
  | .swaitStop c _ => c < s.numChannels
  | .dlyWait _ _ => True

/-- The notifier's phase names a channel of the machine (R30). -/
def NotifierInv (s : State) : Prop :=
  match s.ntf with
  | .idle => True
  | .snapped c _ => c < s.numChannels

end Sys2Proof.Machine
end

