-- ==== Sys2Proof/Safety.lean ====
section
/-! DEFINITION. What claims about whole runs are stated in: end conditions (R137), runs, and the fairness
assumptions of R87, R97 and R128, which only liveness claims use. -/

namespace Sys2Proof.Safety

open Sys2Proof.Machine

/-- The host has finished: the stream is used up and nothing is waited for (R137). -/
abbrev HostFinished (s : State) : Prop := s.cp = s.stream.length ∧ s.hw = .none

/-- The run has failed: a fault is recorded (R121, R137). -/
abbrev RunFailed (s : State) : Prop := s.faults ≠ []

/-- The steps of the engines and of the notifier: all but the host's and the tick's (R5). -/
def isEngineOrNotifier (m : Move) : Bool := m != .host && m != .tick

/-- A quiescent end state: the host has finished, the notifier is idle, and no engine or notifier step is
enabled (R137). -/
abbrev Quiescent (s : State) : Prop :=
  HostFinished s ∧ s.ntf = .idle ∧ ∀ m, isEngineOrNotifier m = true → s.guard m = false

/-- An infinite run: every step answers a next state, so no fault is ever recorded. -/
def IsRun (r : Nat → State) : Prop := ∀ n, step (r n) = .next (r (n + 1))

/-- The step taken from a state is one of the set. -/
def Takes (s : State) (ms : Move → Prop) : Prop := ∃ m t, ms m ∧ s.pick = some (m, t)

/-- Weak fairness of a set of steps: when from some point on some step of the set is always enabled, one is
taken later (R87, R97). -/
def WeaklyFair (r : Nat → State) (ms : Move → Prop) : Prop :=
  ∀ n, (∀ k, n ≤ k → ∃ m, ms m ∧ (r k).enabled m = true) → ∃ k, n ≤ k ∧ Takes (r k) ms

/-- The fairness assumptions: transfers (R87), acknowledgements when no hang is admitted (R87), snapshot and
dispatch (R97), and the tick (R128). R83 has no fairness. -/
structure FairRun (r : Nat → State) : Prop where
  run      : IsRun r
  transfer : ∀ c, WeaklyFair r (· = .xfer c)
  ackOn    : (∀ n, (r n).params.hangAdmitted = false) → ∀ c, WeaklyFair r (· = .ackOn c)
  ackOff   : (∀ n, (r n).params.hangAdmitted = false) → ∀ c, WeaklyFair r (· = .ackOff c)
  snapshot : WeaklyFair r fun m => ∃ c, m = .snap c
  dispatch : WeaklyFair r (· = .dispatch)
  tick     : WeaklyFair r (· = .tick)

/-! ## The vocabulary of the statements -/

/-- Between `s` and `t` the channels are as many, channel `c` has become `d`, and every other is unchanged. -/
def OnlyChannel (s t : State) (c : Nat) (d : Channel) : Prop :=
  t.numChannels = s.numChannels ∧ t.ch c = d ∧ ∀ e, e ≠ c → t.ch e = s.ch e

/-- The result record of the command at the command pointer (R60). -/
def resultOf (s : State) (st : Status) (v : Word) : HistEvent := .result s.cp (s.stream.getD s.cp 0) st v

/-- The access touches slot `sl` of channel `c`, which the hardware owns (R113). -/
def TouchesSlot (s : State) (a n c : Nat) (sl : Slot) : Prop :=
  c < s.numChannels ∧ (s.ch c).own sl = .hw ∧
    ∃ b, a ≤ b ∧ b < a + n ∧ ((s.ch c).slotRange sl).1 ≤ b ∧ b < ((s.ch c).slotRange sl).2

/-- An access of `n` bytes at `a` touches a HW-owned slot (R113). -/
def TouchesHwSlot (s : State) (a n : Nat) : Prop := ∃ c sl, TouchesSlot s a n c sl

end Sys2Proof.Safety
end

