-- ==== Sys2Proof/Certificates/Slice0/Obligations.lean ====
section
/-! DEFINITION. The statements for the provers. Each formalises rules of the spec over `decode`, `exec`, `perform`,
`step` and the accessors of the state. Where a rule says "no other effect", the statement gives the whole next
state as an update of the old one. -/

open Sys2Proof Sys2Proof.Machine Sys2Proof.Safety

/-! ## Encoding and decoding -/

/-- R50 to R56: every command is decoded from its own words, whatever words follow, with every operand at every
value. -/
def Obligations.EncodedCommandDecodesToItself : Prop :=
  ∀ (i : Instr) (rest : List Word), i.WellFormed → decode (encode i ++ rest) = .ok i

/-- R57, R58: no words but a command's own decode to it, so no reserved value is let through and no bit of the
words is dropped. -/
def Obligations.DecodedWordsAreTheEncoding : Prop :=
  ∀ (ws : List Word) (i : Instr), decode ws = .ok i → i.WellFormed ∧ ws.take i.length = encode i

/-- Words written out from the formats of R52 to R56: the CFG head of 95_test_vectors 2.1 with every field set, a
channel command, CLRF, SWAIT, DLY, HRD and HWR. -/
def Obligations.WordsOfTheSpecDecode : Prop :=
  decode [0x0400F77E, 0x40000000, 0x20000100, 0x20000200, 7] =
      .ok (.cfg 0 ⟨⟨true, true, true, true, true⟩, 1, true, true, true, 2, 3, true⟩
        0x40000000 0x20000100 0x20000200 7) ∧
    decode [0x08400000] = .ok (.start 1) ∧ decode [0x0C400000] = .ok (.stop 1) ∧
    decode [0x1440001F] = .ok (.clrf 1 31) ∧ decode [0x20400000, 100] = .ok (.swait 1 100) ∧
    decode [0x2C000000, 3] = .ok (.dly 3) ∧ decode [0x40000002, 0x20000000] = .ok (.hrd 2 0x20000000) ∧
    decode [0x44000001, 0x20000010, 0xABCD1234] = .ok (.hwr 1 0x20000010 0xABCD1234)

/-- R51, R57, R58: the decoder's checks, in their order, for any head word and any words after it. The rows are
the match, the mask and the length of each row of spec/opcode_table.json. -/
def Obligations.DecodeChecksInOrder : Prop :=
  ∀ (w : Word) (ops : List Word),
    let rows : List (Word × Word × Nat) :=
      [(0x04000000, 0xFC3F0001, 5), (0x08000000, 0xFC3FFFFF, 1), (0x0C000000, 0xFC3FFFFF, 1),
        (0x10000000, 0xFC3FFFFF, 1), (0x14000000, 0xFC3FFFE0, 1), (0x18000000, 0xFC3FFFFF, 1),
        (0x1C000000, 0xFC3FFFFF, 1), (0x20000000, 0xFC3FFFFF, 2), (0x24000000, 0xFC3FFFFF, 1),
        (0x28000000, 0xFC3FFFFF, 1), (0x2C000000, 0xFFFFFFFF, 2), (0x40000000, 0xFFFFFFFC, 2),
        (0x44000000, 0xFFFFFFFC, 3)]
    let sized := w.toNat / 2 ^ 26 = 0x10 ∨ w.toNat / 2 ^ 26 = 0x11
    ((∀ r ∈ rows, w.toNat / 2 ^ 26 ≠ r.1.toNat / 2 ^ 26) → decode (w :: ops) = .error .unknownOpcode) ∧
    ∀ r ∈ rows, w.toNat / 2 ^ 26 = r.1.toNat / 2 ^ 26 →
      (ops.length + 1 < r.2.2 → decode (w :: ops) = .error .truncated) ∧
      (r.2.2 ≤ ops.length + 1 → w &&& r.2.1 ≠ r.1 → decode (w :: ops) = .error (.reservedBits r.2.2)) ∧
      (r.2.2 ≤ ops.length + 1 → w &&& r.2.1 = r.1 → sized → w.toNat % 4 = 3 →
        decode (w :: ops) = .error (.badSize r.2.2)) ∧
      (r.2.2 ≤ ops.length + 1 → w &&& r.2.1 = r.1 → ¬ (sized ∧ w.toNat % 4 = 3) →
        ∃ i, decode (w :: ops) = .ok i ∧ i.WellFormed ∧ i.length = r.2.2)

/-! ## The machine's step -/

/-- R5: the scheduler may choose any enabled step; the one it names next is the one taken. -/
def Obligations.ChosenStepIsPerformed : Prop :=
  ∀ (s : State) (m : Move) (l : List Move), s.faults = [] → s.sched = m :: l → s.enabled m = true →
    step s = perform m { s with sched := l }

/-- R31, R57, R91: when the host is chosen, waits for nothing and is not held by the notifier, and the words at
the command pointer decode, a step is that command's meaning. -/
def Obligations.StepRunsTheDecodedCommand : Prop :=
  ∀ (s : State) (l : List Move) (i : Instr), s.faults = [] → s.ntf = .idle → s.hw = .none →
    s.sched = .host :: l → decode (s.stream.drop s.cp) = .ok i → step s = exec i { s with sched := l }

/-- R129 ("No deadlock") and R6 (no refusal): while no fault is recorded some step is enabled and the machine
answers a next state. -/
def Obligations.FaultFreeMachineNeverStops : Prop :=
  ∀ s : State, s.faults = [] → (∃ m, s.enabled m = true) ∧ ∃ t, step s = .next t

/-- R121: once a fault is recorded no agent has a step, and the machine's step is that fault. -/
def Obligations.RecordedFaultStopsEveryAgent : Prop :=
  ∀ (s : State) (f : Fault) (l : List Fault), s.faults = f :: l →
    step s = .fault f ∧ ∀ m, s.enabled m = false

/-- R58, R59, R121: what the host does with words that are no command. An illegal command completes at once with
`(IllegalCommand, 0)`, moves `cp` by 1 for an unknown opcode and by the opcode's length otherwise, and has no
other effect. A command whose operand words run past the end of the stream raises `MALFORMED_STREAM`; nothing else
changes, and the machine then has no further step. That the fault is recorded by one step and answered by the next
is the model's choice (log 7). -/
def Obligations.WordsThatAreNoCommand : Prop :=
  ∀ (s : State) (r : Reject), s.hw = .none → decode (s.stream.drop s.cp) = .error r →
    (∀ n, (r = .unknownOpcode ∧ n = 1 ∨ r = .reservedBits n ∨ r = .badSize n) →
      perform .host s =
        .next { s with cp := s.cp + n, hist := s.hist ++ [resultOf s .illegalCommand 0] }) ∧
    (r = .truncated → s.faults = [] →
      ∃ t, perform .host s = .next t ∧
        t = { s with faults := [.malformedStream s.cp], hist := s.hist ++ [.fault (.malformedStream s.cp)] } ∧
        step t = .fault (.malformedStream s.cp))

/-- R57 check 4: every command with a channel field answers `(InvalidChannel, 0)` for a number that is no
channel, moves `cp` by its length and has no other effect. -/
def Obligations.InvalidChannelHasNoOtherEffect : Prop :=
  ∀ (s : State) (c : BitVec 4) (i : Instr), s.numChannels ≤ c.toNat →
    ((∃ h par m0ar m1ar ndt, i = .cfg c h par m0ar m1ar ndt) ∨ i = .start c ∨ i = .stop c ∨ i = .rdstat c ∨
      (∃ m, i = .clrf c m) ∨ i = .rdcnt c ∨ i = .rdcr c ∨ (∃ t, i = .swait c t) ∨ i = .sack c ∨ i = .sevt c) →
    exec i s = .next { s with cp := s.cp + i.length, hist := s.hist ++ [resultOf s .invalidChannel 0] }

/-- R91: while the notifier is not idle the host has no step; the engines and the tick are not held by it. -/
def Obligations.NotifierHoldsTheHostOnly : Prop :=
  ∀ (s : State) (c : Nat) (m : Flags), s.ntf = .snapped c m →
    s.enabled .host = false ∧
      ∀ mv, mv ≠ .host → mv ≠ .dispatch → (∀ d, mv ≠ .snap d) →
        s.enabled mv = ({ s with ntf := .idle } : State).enabled mv

/-! ## Channel controller commands -/

/-- R67: the nine conditions. -/
def Obligations.ConfigurationValidity : Prop :=
  ∀ (h : CfgHead) (par m0ar m1ar ndt : Word),
    let n := ndt.toNat % 65536
    let ub := 2 ^ h.usize.toNat
    let span := if h.minc = true then n * ub else ub
    cfgValid h par m0ar m1ar ndt = true ↔
      (h.dir.toNat < 2 ∧ h.usize.toNat < 3 ∧ ndt.toNat < 65536 ∧ 1 ≤ n ∧ (h.dbm = true → h.circ = true) ∧
        (h.circ = true → h.dbm = false → 2 ≤ n) ∧
        ub ∣ par.toNat ∧ ub ∣ m0ar.toNat ∧ (h.dbm = true → ub ∣ m1ar.toNat) ∧
        par.toNat + (if h.pinc = true then n * ub else ub) ≤ 4294967296 ∧ m0ar.toNat + span ≤ 4294967296 ∧
        (h.dbm = true → m1ar.toNat + span ≤ 4294967296))

/-- R68 with R66's last branch: an accepted CFG writes the descriptor, `ct`, the counters, `perr` and `cstate` of
its channel and `clk_en`; the enables, the flags, the owners and the queue stay. -/
def Obligations.AcceptedCfgWritesTheDescriptor : Prop :=
  ∀ (s : State) (c : BitVec 4) (h : CfgHead) (par m0ar m1ar ndt : Word), c.toNat < s.numChannels →
    (s.ch c.toNat).enReq = false → (s.ch c.toNat).enAck = false →
    ((s.ch c.toNat).cstate = .idle ∨ (s.ch c.toNat).cstate = .configured) →
    cfgValid h par m0ar m1ar ndt = true →
    ∃ t, exec (.cfg c h par m0ar m1ar ndt) s = .next t ∧
      OnlyChannel s t c.toNat
        { s.ch c.toNat with
          ie := h.ie, dir := h.dir, circ := h.circ, pinc := h.pinc, minc := h.minc, usize := h.usize
          prio := h.prio, dbm := h.dbm, ct := false, par := par, m0ar := m0ar, m1ar := m1ar
          reload := ndt.extractLsb' 0 16, ndtr := ndt.extractLsb' 0 16, perr := .none, cstate := .configured } ∧
      t = { s with
            chs := t.chs, clkEn := true, cp := s.cp + 5, hist := s.hist ++ [resultOf s .ok 0] }

/-- R69, with the order of R57's channel check and R66's checks: a CFG that answers any status but `OK` changes
nothing but `cp` and `hist`. -/
def Obligations.RejectedCfgChangesNothing : Prop :=
  ∀ (s : State) (c : BitVec 4) (h : CfgHead) (par m0ar m1ar ndt : Word) (st : Status),
    let ch := s.ch c.toNat
    let there := c.toNat < s.numChannels
    let enabled := ch.enReq = true ∨ ch.enAck = true
    let resting := ch.cstate = .idle ∨ ch.cstate = .configured
    ((¬ there ∧ st = .invalidChannel) ∨ (there ∧ enabled ∧ st = .configurationRejected) ∨
      (there ∧ ¬ enabled ∧ ¬ resting ∧ st = .invalidStateError) ∨
      (there ∧ ¬ enabled ∧ resting ∧ cfgValid h par m0ar m1ar ndt = false ∧ st = .invalidConfiguration)) →
    exec (.cfg c h par m0ar m1ar ndt) s =
      .next { s with cp := s.cp + 5, hist := s.hist ++ [resultOf s st 0] }

/-- R70: START's issue step, both branches. -/
def Obligations.StartArmsAConfiguredChannel : Prop :=
  ∀ (s : State) (c : BitVec 4), c.toNat < s.numChannels →
    ((s.ch c.toNat).cstate ≠ .configured →
      exec (.start c) s =
        .next { s with cp := s.cp + 1, hist := s.hist ++ [resultOf s .invalidStateError 0] }) ∧
    ((s.ch c.toNat).cstate = .configured →
      ∃ t, exec (.start c) s = .next t ∧
        OnlyChannel s t c.toNat
          { s.ch c.toNat with
            flags := ⟨false, false, false, false, false⟩, enReq := true, cstate := .armed
            own0 := .hw, own1 := .app, ackAge := 0 } ∧
        t = { s with chs := t.chs, hw := .startWait c.toNat s.tick })

/-- R71: START's poll step, when it is enabled and what it does; the acknowledgement wins over the timeout. -/
def Obligations.StartPollEndsTheWait : Prop :=
  ∀ (s : State) (c : Nat) (t0 : Word), s.faults = [] → s.ntf = .idle → s.hw = .startWait c t0 →
    c < s.numChannels →
    (s.enabled .host = true ↔
      (s.ch c).cstate ≠ .armed ∨ s.params.ackTimeout ≤ (s.tick - t0).toNat) ∧
    ((s.ch c).cstate ≠ .armed →
      perform .host s =
        .next { s with hw := .none, cp := s.cp + 1, hist := s.hist ++ [resultOf s .ok 0] }) ∧
    ((s.ch c).cstate = .armed →
      ∃ t, perform .host s = .next t ∧
        OnlyChannel s t c { s.ch c with enReq := false, cstate := .error, perr := .ackto } ∧
        t = { s with
              chs := t.chs, hw := .none, cp := s.cp + 1
              hist := s.hist ++ [resultOf s .hardwareAcknowledgeTimeout 0] })

/-- R72: STOP's issue step, in every lifecycle state. -/
def Obligations.StopRequestsTheDisable : Prop :=
  ∀ (s : State) (c : BitVec 4), c.toNat < s.numChannels →
    ∃ t, exec (.stop c) s = .next t ∧
      OnlyChannel s t c.toNat { s.ch c.toNat with enReq := false, ackAge := 0 } ∧
      t = { s with chs := t.chs, hw := .stopWait c.toNat s.tick }

/-- R73: STOP's poll step, when it is enabled and what it does; the result is the remaining count. -/
def Obligations.StopPollEndsTheWait : Prop :=
  ∀ (s : State) (c : Nat) (t0 : Word), s.faults = [] → s.ntf = .idle → s.hw = .stopWait c t0 →
    c < s.numChannels →
    (s.enabled .host = true ↔ (s.ch c).enAck = false ∨ s.params.ackTimeout ≤ (s.tick - t0).toNat) ∧
    ((s.ch c).enAck = false →
      ∃ t v, perform .host s = .next t ∧ v.toNat = (s.ch c).ndtr.toNat ∧
        OnlyChannel s t c { s.ch c with cstate := .idle, own0 := .app, own1 := .app, perr := .none } ∧
        t = { s with chs := t.chs, hw := .none, cp := s.cp + 1, hist := s.hist ++ [resultOf s .ok v] }) ∧
    ((s.ch c).enAck = true →
      ∃ t v, perform .host s = .next t ∧ v.toNat = (s.ch c).ndtr.toNat ∧
        OnlyChannel s t c { s.ch c with cstate := .error, perr := .ackto } ∧
        t = { s with
              chs := t.chs, hw := .none, cp := s.cp + 1
              hist := s.hist ++ [resultOf s .hardwareAcknowledgeTimeout v] })

/-- R74, R61: RDSTAT returns the status word, bit for bit, and changes only `cp` and `hist`. The count of the
event queue has eight bits (`EVQ_DEPTH` is at most 255, R7). -/
def Obligations.RdstatReadsTheStatusWord : Prop :=
  ∀ (s : State) (c : BitVec 4), c.toNat < s.numChannels → (s.ch c.toNat).evq.length ≤ 255 →
    let ch := s.ch c.toNat
    ∃ v : Word,
      exec (.rdstat c) s = .next { s with cp := s.cp + 1, hist := s.hist ++ [resultOf s .ok v] } ∧
      v.getLsbD 0 = ch.flags.tc ∧ v.getLsbD 1 = ch.flags.ht ∧ v.getLsbD 2 = ch.flags.te ∧
      v.getLsbD 3 = ch.flags.fe ∧ v.getLsbD 4 = ch.flags.dme ∧ v.extractLsb' 5 3 = 0#3 ∧
      (v.extractLsb' 8 3).toNat =
        (match ch.cstate with
          | .idle => 0
          | .configured => 1
          | .armed => 2
          | .running => 3
          | .completed => 4
          | .error => 5) ∧
      v.getLsbD 11 = false ∧ v.getLsbD 12 = decide (ch.own0 = .hw) ∧ v.getLsbD 13 = decide (ch.own1 = .hw) ∧
      v.extractLsb' 14 2 = 0#2 ∧
      (v.extractLsb' 16 3).toNat =
        (match ch.perr with
          | .none => 0
          | .te => 1
          | .fe => 2
          | .dme => 3
          | .ackto => 4) ∧
      v.getLsbD 19 = false ∧ (v.extractLsb' 20 8).toNat = ch.evq.length ∧ v.extractLsb' 28 3 = 0#3 ∧
      v.getLsbD 31 = s.clkEn

/-- R75: CLRF clears exactly the flags its mask selects. -/
def Obligations.ClrfClearsTheSelectedFlags : Prop :=
  ∀ (s : State) (c : BitVec 4) (mask : BitVec 5), c.toNat < s.numChannels →
    ∃ t f, exec (.clrf c mask) s = .next t ∧
      f.tc = (if mask.getLsbD 0 then false else (s.ch c.toNat).flags.tc) ∧
      f.ht = (if mask.getLsbD 1 then false else (s.ch c.toNat).flags.ht) ∧
      f.te = (if mask.getLsbD 2 then false else (s.ch c.toNat).flags.te) ∧
      f.fe = (if mask.getLsbD 3 then false else (s.ch c.toNat).flags.fe) ∧
      f.dme = (if mask.getLsbD 4 then false else (s.ch c.toNat).flags.dme) ∧
      OnlyChannel s t c.toNat { s.ch c.toNat with flags := f } ∧
      t = { s with chs := t.chs, cp := s.cp + 1, hist := s.hist ++ [resultOf s .ok 0] }

/-- R76, R77, R62, R14: RDCNT returns the remaining count, RDCR the control word, bit for bit; each changes only
`cp` and `hist`. -/
def Obligations.ReadsOfTheCountAndTheControlWord : Prop :=
  ∀ (s : State) (c : BitVec 4), c.toNat < s.numChannels →
    let ch := s.ch c.toNat
    (∃ v : Word, v.toNat = ch.ndtr.toNat ∧
      exec (.rdcnt c) s = .next { s with cp := s.cp + 1, hist := s.hist ++ [resultOf s .ok v] }) ∧
    ∃ v : Word,
      exec (.rdcr c) s = .next { s with cp := s.cp + 1, hist := s.hist ++ [resultOf s .ok v] } ∧
      v.getLsbD 0 = ch.enAck ∧ v.getLsbD 1 = ch.ie.tc ∧ v.getLsbD 2 = ch.ie.ht ∧ v.getLsbD 3 = ch.ie.te ∧
      v.getLsbD 4 = ch.ie.fe ∧ v.getLsbD 5 = ch.ie.dme ∧ v.extractLsb' 6 2 = ch.dir ∧ v.getLsbD 8 = ch.circ ∧
      v.getLsbD 9 = ch.pinc ∧ v.getLsbD 10 = ch.minc ∧ v.extractLsb' 11 2 = ch.usize ∧
      v.extractLsb' 13 2 = ch.prio ∧ v.getLsbD 15 = ch.dbm ∧ v.getLsbD 16 = ch.ct ∧ v.getLsbD 17 = ch.enReq ∧
      v.extractLsb' 18 14 = 0#14

/-! ## Session commands -/

/-- R102: SWAIT's issue step, both branches. -/
def Obligations.SwaitOpensThePoll : Prop :=
  ∀ (s : State) (c : BitVec 4) (timeout : Word), c.toNat < s.numChannels →
    let ch := s.ch c.toNat
    let polls := ch.circ = false ∧ (ch.cstate = .running ∨ ch.cstate = .completed ∨ ch.cstate = .error)
    (¬ polls → exec (.swait c timeout) s =
      .next { s with cp := s.cp + 2, hist := s.hist ++ [resultOf s .invalidStateError 0] }) ∧
    (polls → exec (.swait c timeout) s = .next { s with hw := .swaitPoll c.toNat s.tick timeout })

/-- R103, R101: SWAIT's poll step: completion, then error, then timeout; an ERROR whose engine is still enabled is
reported and not consumed. -/
def Obligations.SwaitPollReportsTheOutcome : Prop :=
  ∀ (s : State) (c : Nat) (t0 timeout : Word), s.faults = [] → s.ntf = .idle →
    s.hw = .swaitPoll c t0 timeout → c < s.numChannels →
    let ch := s.ch c
    let released := { ch with cstate := .idle, own0 := .app, own1 := .app, perr := .none }
    (s.enabled .host = true ↔
      ch.cstate = .completed ∨ ch.cstate = .error ∨ timeout.toNat ≤ (s.tick - t0).toNat) ∧
    (ch.cstate = .completed →
      ∃ t v, perform .host s = .next t ∧ v.toNat = ch.ndtr.toNat ∧ OnlyChannel s t c released ∧
        t = { s with chs := t.chs, hw := .none, cp := s.cp + 2, hist := s.hist ++ [resultOf s .ok v] }) ∧
    (ch.cstate = .error → ch.perr ≠ .none →
      ∃ t v st, perform .host s = .next t ∧ v.toNat = ch.ndtr.toNat ∧
        (ch.perr = .te → st = .transferError) ∧ (ch.perr = .fe ∨ ch.perr = .dme → st = .fifoError) ∧
        (ch.perr = .ackto → st = .hardwareAcknowledgeTimeout) ∧
        OnlyChannel s t c (if ch.enAck = false then released else ch) ∧
        t = { s with chs := t.chs, hw := .none, cp := s.cp + 2, hist := s.hist ++ [resultOf s st v] }) ∧
    (ch.cstate = .running →
      ∃ t, perform .host s = .next t ∧ OnlyChannel s t c { ch with enReq := false, ackAge := 0 } ∧
        t = { s with chs := t.chs, hw := .swaitStop c s.tick })

/-- R104, R101: the stop step of a timed-out SWAIT, which reports the final remaining count. -/
def Obligations.SwaitStopReportsTheFinalCount : Prop :=
  ∀ (s : State) (c : Nat) (t0 : Word), s.faults = [] → s.ntf = .idle → s.hw = .swaitStop c t0 →
    c < s.numChannels →
    let ch := s.ch c
    (s.enabled .host = true ↔ ch.enAck = false ∨ s.params.ackTimeout ≤ (s.tick - t0).toNat) ∧
    (ch.enAck = false → (ch.cstate = .error → ch.perr ≠ .none) →
      ∃ t v st, perform .host s = .next t ∧ v.toNat = ch.ndtr.toNat ∧
        (ch.cstate = .completed → st = .ok) ∧
        (ch.cstate = .error →
          (ch.perr = .te → st = .transferError) ∧ (ch.perr = .fe ∨ ch.perr = .dme → st = .fifoError) ∧
          (ch.perr = .ackto → st = .hardwareAcknowledgeTimeout)) ∧
        (ch.cstate ≠ .completed → ch.cstate ≠ .error → st = .timeoutError) ∧
        OnlyChannel s t c { ch with cstate := .idle, own0 := .app, own1 := .app, perr := .none } ∧
        t = { s with chs := t.chs, hw := .none, cp := s.cp + 2, hist := s.hist ++ [resultOf s st v] }) ∧
    (ch.enAck = true →
      ∃ t v, perform .host s = .next t ∧ v.toNat = ch.ndtr.toNat ∧
        OnlyChannel s t c { ch with cstate := .error, perr := .ackto } ∧
        t = { s with
              chs := t.chs, hw := .none, cp := s.cp + 2
              hist := s.hist ++ [resultOf s .hardwareAcknowledgeTimeout v] })

/-- R106, R101: SACK consumes COMPLETED or ERROR of a stopped engine, and else changes nothing. -/
def Obligations.SackConsumesATerminalState : Prop :=
  ∀ (s : State) (c : BitVec 4), c.toNat < s.numChannels →
    let ch := s.ch c.toNat
    let terminal := (ch.cstate = .completed ∨ ch.cstate = .error) ∧ ch.enAck = false
    (terminal → (ch.cstate = .error → ch.perr ≠ .none) →
      ∃ t v st, exec (.sack c) s = .next t ∧ v.toNat = ch.ndtr.toNat ∧
        (ch.cstate = .completed → st = .ok) ∧
        (ch.cstate = .error →
          (ch.perr = .te → st = .transferError) ∧ (ch.perr = .fe ∨ ch.perr = .dme → st = .fifoError) ∧
          (ch.perr = .ackto → st = .hardwareAcknowledgeTimeout)) ∧
        OnlyChannel s t c.toNat { ch with cstate := .idle, own0 := .app, own1 := .app, perr := .none } ∧
        t = { s with chs := t.chs, cp := s.cp + 1, hist := s.hist ++ [resultOf s st v] }) ∧
    (¬ terminal → exec (.sack c) s =
      .next { s with cp := s.cp + 1, hist := s.hist ++ [resultOf s .invalidStateError 0] })

/-- R107, R63: SEVT takes the head of the event queue as an event word, bit for bit, or answers `Empty`. -/
def Obligations.SevtTakesTheOldestEvent : Prop :=
  ∀ (s : State) (c : BitVec 4), c.toNat < s.numChannels →
    ((s.ch c.toNat).evq = [] →
      exec (.sevt c) s = .next { s with cp := s.cp + 1, hist := s.hist ++ [resultOf s .empty 0] }) ∧
    ∀ e q, (s.ch c.toNat).evq = e :: q →
      ∃ t v, exec (.sevt c) s = .next t ∧ OnlyChannel s t c.toNat { s.ch c.toNat with evq := q } ∧
        t = { s with chs := t.chs, cp := s.cp + 1, hist := s.hist ++ [resultOf s .ok v] } ∧
        (v.extractLsb' 0 3).toNat =
          (match e.src with
            | .tc => 0
            | .ht => 1
            | .te => 2
            | .fe => 3
            | .dme => 4) ∧
        v.getLsbD 3 = false ∧
        (v.extractLsb' 4 2).toNat =
          (match e.outcome with
            | .success => 0
            | .transferError => 1
            | .fifoError => 2) ∧
        v.extractLsb' 6 2 = 0#2 ∧ v.getLsbD 8 = e.slot ∧ v.extractLsb' 9 23 = 0#23

/-- R108: DLY's issue step and its poll step. -/
def Obligations.DlyWaitsForTheTicks : Prop :=
  ∀ (s : State) (n t0 : Word),
    exec (.dly n) s = .next { s with hw := .dlyWait s.tick n } ∧
    (s.faults = [] → s.ntf = .idle → s.hw = .dlyWait t0 n →
      (s.enabled .host = true ↔ n.toNat ≤ (s.tick - t0).toNat) ∧
      perform .host s = .next { s with hw := .none, cp := s.cp + 2, hist := s.hist ++ [resultOf s .ok 0] })

/-- R104: whenever a timed-out SWAIT reports `TimeoutError`, at least one element is left, and the value is what
is left. -/
def Obligations.TimeoutErrorReportsWhatIsLeft : Prop :=
  ∀ (s t : State) (c : Nat) (t0 v : Word), LifecycleInv s → c < s.numChannels → s.hw = .swaitStop c t0 →
    perform .host s = .next t → t.hist = s.hist ++ [resultOf s .timeoutError v] →
    1 ≤ v.toNat ∧ v.toNat = (s.ch c).ndtr.toNat

/-! ## Host buffer access -/

/-- R114, R121: HRD and HWR raise the fault of the first check that fails, and nothing else changes. -/
def Obligations.HostAccessFaults : Prop :=
  ∀ (s : State) (sz : BitVec 2) (a v : Word), sz ≠ 3#2 →
    let n := 2 ^ sz.toNat
    let faulted := fun f : Fault => ({ s with faults := s.faults ++ [f], hist := s.hist ++ [.fault f] } : State)
    let both := fun f : Fault =>
      exec (.hrd sz a) s = .next (faulted f) ∧ exec (.hwr sz a v) s = .next (faulted f)
    let inRam := ∀ k, k < n → s.params.isRam (a.toNat + k) = true
    (a.toNat % n ≠ 0 → both (.hostMisaligned s.cp a.toNat n)) ∧
    (a.toNat % n = 0 → ¬ inRam → both (.hostNotRam s.cp a.toNat n)) ∧
    (a.toNat % n = 0 → inRam → TouchesHwSlot s a.toNat n →
      ∃ c sl, TouchesSlot s a.toNat n c sl ∧ both (.ownershipViolation s.cp a.toNat n c sl))

/-- R115, R37: an HRD that passes its checks returns the bytes little-endian, and changes only `cp` and
`hist`. -/
def Obligations.HrdReadsLittleEndian : Prop :=
  ∀ (s : State) (sz : BitVec 2) (a : Word), sz ≠ 3#2 →
    let n := 2 ^ sz.toNat
    a.toNat % n = 0 → (∀ k, k < n → s.params.isRam (a.toNat + k) = true) → ¬ TouchesHwSlot s a.toNat n →
    ∃ v : Word, exec (.hrd sz a) s = .next { s with cp := s.cp + 2, hist := s.hist ++ [resultOf s .ok v] } ∧
      v.toNat < 256 ^ n ∧ ∀ k, k < n → v.extractLsb' (8 * k) 8 = Memory.read s.mem (a.toNat + k)

/-- R116, R37: an HWR that passes its checks stores the low bytes of its value little-endian, leaves every other
byte alone, and changes only `cp` and `hist` besides. -/
def Obligations.HwrStoresLittleEndian : Prop :=
  ∀ (s : State) (sz : BitVec 2) (a v : Word), sz ≠ 3#2 → Memory.wf s.mem = true →
    let n := 2 ^ sz.toNat
    a.toNat % n = 0 → (∀ k, k < n → s.params.isRam (a.toNat + k) = true) → ¬ TouchesHwSlot s a.toNat n →
    ∃ t, exec (.hwr sz a v) s = .next t ∧
      t = { s with mem := t.mem, cp := s.cp + 3, hist := s.hist ++ [resultOf s .ok 0] } ∧
      (∀ k, k < n → Memory.read t.mem (a.toNat + k) = v.extractLsb' (8 * k) 8) ∧
      ∀ d, d < a.toNat ∨ a.toNat + n ≤ d → Memory.read t.mem d = Memory.read s.mem d

/-- The frame of the commands. Every command but HWR leaves every byte of memory alone; every command leaves the
tick, the notifier's phase, the parameters, the stream, the channels' number and every channel it does not name
unchanged; and only CFG writes `clk_en`. -/
def Obligations.CommandsLeaveTheRestAlone : Prop :=
  ∀ (i : Instr) (s t : State), exec i s = .next t →
    ((∀ sz a v, i ≠ .hwr sz a v) → ∀ a, Memory.read t.mem a = Memory.read s.mem a) ∧
    ((∀ c h p m0 m1 n, i ≠ .cfg c h p m0 m1 n) → t.clkEn = s.clkEn) ∧
    t.tick = s.tick ∧ t.ntf = s.ntf ∧ t.params = s.params ∧ t.stream = s.stream ∧
    t.numChannels = s.numChannels ∧ t.sched = s.sched ∧ t.answers = s.answers ∧ t.draws = s.draws ∧
    ∀ e : Nat,
      ((∃ c : BitVec 4, c.toNat = e ∧
        ((∃ h p m0 m1 n, i = .cfg c h p m0 m1 n) ∨ i = .start c ∨ i = .stop c ∨ (∃ m, i = .clrf c m) ∨
          i = .sack c ∨ i = .sevt c)) ∨ t.ch e = s.ch e)

/-! ## Transfer engine -/

/-- R79, R85: the acknowledgement steps, with their guards. -/
def Obligations.EngineAcknowledgesEnableAndDisable : Prop :=
  ∀ (s : State) (c : Nat), s.faults = [] → c < s.numChannels →
    (s.enabled (.ackOn c) = true ↔
      (s.ch c).enReq = true ∧ (s.ch c).enAck = false ∧ (s.ch c).cstate = .armed) ∧
    (∃ t, perform (.ackOn c) s = .next t ∧
      OnlyChannel s t c { s.ch c with enAck := true, cstate := .running } ∧
      t = { s with chs := t.chs, hist := s.hist ++ [.ackOn c] }) ∧
    (s.enabled (.ackOff c) = true ↔ (s.ch c).enReq = false ∧ (s.ch c).enAck = true) ∧
    (∃ t, perform (.ackOff c) s = .next t ∧ OnlyChannel s t c { s.ch c with enAck := false } ∧
      t = { s with chs := t.chs, hist := s.hist ++ [.ackOff c] })

/-- R80, R81: what an element transfer does to the counters, the flags, the lifecycle, the target and the owners
of its channel, in each scheme. -/
def Obligations.TransferCountsAndSwaps : Prop :=
  ∀ (s : State) (c : Nat), c < s.numChannels → (s.ch c).enAck = true → (s.ch c).ndtr ≠ 0 →
    let ch := s.ch c
    let n := ch.reload.toNat
    let j := n - ch.ndtr.toNat + 1
    let half := 2 ≤ n ∧ j = n / 2
    let last := ch.ndtr = 1
    (∀ k, k < 2 ^ ch.usize.toNat → s.params.isRam (ch.maddr (n - ch.ndtr.toNat) + k) = true) →
    ∃ t d, perform (.xfer c) s = .next t ∧ OnlyChannel s t c d ∧
      d = { ch with
            ndtr := d.ndtr, flags := d.flags, enAck := d.enAck, enReq := d.enReq, cstate := d.cstate
            ct := d.ct, own0 := d.own0, own1 := d.own1 } ∧
      d.ndtr = (if last ∧ ch.circ = true then ch.reload else ch.ndtr - 1) ∧
      d.flags = { ch.flags with tc := ch.flags.tc || decide last, ht := ch.flags.ht || decide half } ∧
      d.enAck = !decide (last ∧ ch.circ = false) ∧
      d.enReq = (if last ∧ ch.circ = false then false else ch.enReq) ∧
      d.cstate = (if last ∧ ch.circ = false ∧ ch.cstate = .running then .completed else ch.cstate) ∧
      d.ct = (if last ∧ ch.circ = true ∧ ch.dbm = true then !ch.ct else ch.ct) ∧
      d.own0 = (if last ∧ ch.circ = true ∧ (ch.dbm = true → ch.ct = true) then .hw else ch.own0) ∧
      d.own1 =
        (if (half ∧ ch.circ = true ∧ ch.dbm = false) ∨
            (last ∧ ch.circ = true ∧ ch.dbm = true ∧ ch.ct = false) then .hw
          else ch.own1)

/-- R80, R39, R42: an element from the peripheral is stored at the element's address and nowhere else; and the access,
the transfer and its flags are recorded. The value is the oracle's. `LOOPBACK` answers with the oldest write to the
peripheral address not yet answered, at a matching native width, and that write is then answered. Under the
unconstrained oracle, at a width that does not match, and where nothing waits that has the width, the value is
unconstrained: the next scripted answer where there is one. The script, that a read uses up the oldest write
whatever its width, and that a write of another width forces no value, are the model's choices (log 4). -/
def Obligations.TransferFromPeripheral : Prop :=
  ∀ (s : State) (c : Nat), c < s.numChannels → (s.ch c).enAck = true → (s.ch c).ndtr ≠ 0 →
    (s.ch c).dir = 0#2 → Memory.wf s.mem = true →
    let ch := s.ch c
    let i := ch.reload.toNat - ch.ndtr.toNat
    let ub := 2 ^ ch.usize.toNat
    let waiting := fun (a : Nat) (u : State) => loopbackQueue a u.hist []
    let mismatched := ∃ w, s.params.nativeWidth c (ch.paddr i) = some w ∧ w ≠ ub
    (∀ k, k < ub → s.params.isRam (ch.maddr i + k) = true) →
    ∃ t v, perform (.xfer c) s = .next t ∧ v < 256 ^ ub ∧
      (∀ k, k < ub → (Memory.read t.mem (ch.maddr i + k)).toNat = v / 256 ^ k % 256) ∧
      (∀ d, d < ch.maddr i ∨ ch.maddr i + ub ≤ d → Memory.read t.mem d = Memory.read s.mem d) ∧
      (s.params.oracle = .loopback → ¬ mismatched → ∀ x l, waiting (ch.paddr i) s = (ub, x) :: l →
        v = x % 256 ^ ub ∧ t.answers = s.answers ∧ t.draws = s.draws) ∧
      (s.params.oracle = .unconstrained ∨ mismatched ∨ (∀ x l, waiting (ch.paddr i) s ≠ (ub, x) :: l) →
        ∀ x l, s.answers = x :: l → v = x.toNat % 256 ^ ub ∧ t.answers = l ∧ t.draws = s.draws) ∧
      (∀ a, waiting a t = if a = ch.paddr i then (waiting a s).tail else waiting a s) ∧
      t.hist = s.hist ++ [.periphRead c (ch.paddr i) ub v, .xfer c ch.curSlot i (ch.maddr i) (ch.paddr i) v] ++
        (if 2 ≤ ch.reload.toNat ∧ i + 1 = ch.reload.toNat / 2 then [.flag c .ht] else []) ++
        (if ch.ndtr = 1 then [.flag c .tc] else []) ∧
      t = { s with chs := t.chs, mem := t.mem, hist := t.hist, answers := t.answers, draws := t.draws }

/-- R80, R42: an element to the peripheral is read at the element's address; memory does not change; the access, the
transfer and its flags are recorded; and the value waits behind the writes to that peripheral address that
`LOOPBACK` has not answered. -/
def Obligations.TransferToPeripheral : Prop :=
  ∀ (s : State) (c : Nat), c < s.numChannels → (s.ch c).enAck = true → (s.ch c).ndtr ≠ 0 →
    (s.ch c).dir ≠ 0#2 →
    let ch := s.ch c
    let i := ch.reload.toNat - ch.ndtr.toNat
    let ub := 2 ^ ch.usize.toNat
    let waiting := fun (a : Nat) (u : State) => loopbackQueue a u.hist []
    (∀ k, k < ub → s.params.isRam (ch.maddr i + k) = true) →
    ∃ t v, perform (.xfer c) s = .next t ∧ v < 256 ^ ub ∧
      (∀ k, k < ub → v / 256 ^ k % 256 = (Memory.read s.mem (ch.maddr i + k)).toNat) ∧
      (∀ a, waiting a t = if a = ch.paddr i then waiting a s ++ [(ub, v)] else waiting a s) ∧
      t.hist = s.hist ++ [.periphWrite c (ch.paddr i) ub v, .xfer c ch.curSlot i (ch.maddr i) (ch.paddr i) v] ++
        (if 2 ≤ ch.reload.toNat ∧ i + 1 = ch.reload.toNat / 2 then [.flag c .ht] else []) ++
        (if ch.ndtr = 1 then [.flag c .tc] else []) ∧
      t = { s with chs := t.chs, hist := t.hist }

/-- R78, R22, R23, R24, R38: the engine's addresses, the slot ranges of the three schemes, that the next element
lies whole in the range of the current slot, and that the accesses of a descriptor CFG accepts are aligned and
stay below 2^32. -/
def Obligations.AddressesAndSlots : Prop :=
  ∀ ch : Channel,
    let n := ch.reload.toNat
    let ub := 2 ^ ch.usize.toNat
    let i := n - ch.ndtr.toNat
    let span := fun k : Nat => if ch.minc = true then k * ub else ub
    let m0 := ch.m0ar.toNat
    let m1 := ch.m1ar.toNat
    (∀ j, ch.maddr j = (if ch.circ = true ∧ ch.dbm = true ∧ ch.ct = true then m1 else m0) +
        (if ch.minc = true then j * ub else 0)) ∧
      (∀ j, ch.paddr j = ch.par.toNat + (if ch.pinc = true then j * ub else 0)) ∧
      (ch.circ = false → ch.slotRange false = (m0, m0 + span n) ∧
        (ch.slotRange true).1 = (ch.slotRange true).2 ∧ ch.curSlot = false) ∧
      (ch.circ = true → ch.dbm = false →
        ch.slotRange false = (m0, m0 + span (n / 2)) ∧
        ch.slotRange true =
          (if ch.minc = true then (m0 + n / 2 * ub, m0 + n * ub) else (m0, m0 + ub)) ∧
        ch.curSlot = decide (n / 2 ≤ i)) ∧
      (ch.circ = true → ch.dbm = true →
        ch.slotRange false = (m0, m0 + span n) ∧ ch.slotRange true = (m1, m1 + span n) ∧
        ch.curSlot = ch.ct) ∧
      (ch.ndtr ≠ 0 → ch.ndtr.toNat ≤ n →
        (ch.slotRange ch.curSlot).1 ≤ ch.maddr i ∧ ch.maddr i + ub ≤ (ch.slotRange ch.curSlot).2) ∧
      (DescriptorOk ch → ∀ j, j < n → ub ∣ ch.maddr j ∧ ub ∣ ch.paddr j ∧
        ch.maddr j + ub ≤ 4294967296 ∧ ch.paddr j + ub ≤ 4294967296)

/-- R83, R84, R119: a spontaneous error of an admitted class, and the bus error that replaces a transfer outside
RAM, set their flag, end the transfer and record the class; no memory or peripheral access is made. -/
def Obligations.ErrorsEndTheTransfer : Prop :=
  ∀ (s : State) (c : Nat) (k : ErrCls), s.faults = [] → c < s.numChannels → (s.ch c).enAck = true →
    let ch := s.ch c
    let i := ch.reload.toNat - ch.ndtr.toNat
    let ended := fun (e : ErrCls) (t : State) =>
      OnlyChannel s t c
        { ch with
          flags :=
            { ch.flags with
              te := ch.flags.te || decide (e = .te), fe := ch.flags.fe || decide (e = .fe)
              dme := ch.flags.dme || decide (e = .dme) }
          enAck := false, enReq := false
          cstate := if ch.cstate = .running then .error else ch.cstate
          perr := if ch.cstate = .running then (match e with
            | .te => .te
            | .fe => .fe
            | .dme => .dme) else ch.perr } ∧
      t = { s with
            chs := t.chs
            hist := s.hist ++ [.flag c (match e with
              | .te => .te
              | .fe => .fe
              | .dme => .dme)] }
    (s.enabled (.err c k) = true ↔ s.params.admits k = true) ∧
    (∃ t, perform (.err c k) s = .next t ∧ ended k t) ∧
    (ch.ndtr ≠ 0 → s.enabled (.xfer c) = true) ∧
    (ch.ndtr ≠ 0 → (∃ b, b < 2 ^ ch.usize.toNat ∧ s.params.isRam (ch.maddr i + b) = false) →
      ∃ t, perform (.xfer c) s = .next t ∧ ended .te t)

/-- R82: the buffer swap schedule. Element `k` since START goes to slot 0 in ONESHOT, to the slot of its half in
HALVES and to slot `(k div N) mod 2` in DUAL; the count has then gone round `k mod N` elements. -/
def Obligations.SwapSchedule : Prop :=
  ∀ (ch : Channel) (k : Nat), ch.ndtr = ch.reload → ch.ct = false → 1 ≤ ch.reload.toNat →
    let n := ch.reload.toNat
    let d := Channel.advance^[k] ch
    (ch.scheme = .oneshot → k < n → d.ndtr.toNat = n - k ∧ d.curSlot = false) ∧
    (ch.scheme = .halves → 2 ≤ n →
      d.ndtr.toNat = n - k % n ∧ d.curSlot = decide (n / 2 ≤ k % n)) ∧
    (ch.scheme = .dual →
      d.ndtr.toNat = n - k % n ∧ d.curSlot = decide (k / n % 2 = 1))

/-- R88: from RUNNING a one-shot channel that only transfers reaches COMPLETED after exactly `N` transfers, with
no element left, disabled and with TC set, and not before. -/
def Obligations.OneShotCompletesAfterItsCount : Prop :=
  ∀ (ch : Channel) (k : Nat), ch.scheme = .oneshot → ch.cstate = .running → ch.enAck = true →
    ch.ndtr = ch.reload → 1 ≤ ch.reload.toNat → k ≤ ch.reload.toNat →
    let d := Channel.advance^[k] ch
    (k < ch.reload.toNat → d.cstate = .running ∧ d.enAck = true ∧ d.ndtr.toNat = ch.reload.toNat - k) ∧
    (k = ch.reload.toNat → d.cstate = .completed ∧ d.ndtr = 0 ∧ d.enAck = false ∧ d.enReq = false ∧
      d.flags.tc = true)

/-- R88 over fair runs: a one-shot transfer that no error is admitted for, whose element addresses are all RAM and
that nothing stops, reaches COMPLETED with nothing left. -/
def Obligations.FairOneShotRunCompletes : Prop :=
  ∀ (r : Nat → State) (c : Nat), FairRun r → c < (r 0).numChannels →
    ((r 0).ch c).scheme = .oneshot → ((r 0).ch c).cstate = .running → ((r 0).ch c).enAck = true →
    ((r 0).ch c).ndtr ≠ 0 → LifecycleInv (r 0) →
    (∀ k, (r 0).params.admits k = false) →
    (∀ i, i < ((r 0).ch c).reload.toNat → ∀ k, k < ((r 0).ch c).ub →
      (r 0).params.isRam (((r 0).ch c).maddr i + k) = true) →
    (∀ n, ((r n).ch c).cstate = .running → ((r n).ch c).enReq = true) →
    ∃ n, ((r n).ch c).cstate = .completed ∧ ((r n).ch c).ndtr = 0 ∧ ((r n).ch c).enAck = false ∧
      ((r n).ch c).flags.tc = true

/-- R86, R5: a step of the engine of one channel leaves every other channel, the host, the notifier, the tick and
`clk_en` alone, and of memory touches only its channel's next element. -/
def Obligations.EngineStepTouchesItsChannelOnly : Prop :=
  ∀ (s t : State) (c : Nat) (m : Move),
    (m = .ackOn c ∨ m = .ackOff c ∨ m = .xfer c ∨ ∃ k, m = .err c k) → perform m s = .next t →
    (∀ e, e ≠ c → t.ch e = s.ch e) ∧ t.numChannels = s.numChannels ∧ t.cp = s.cp ∧ t.hw = s.hw ∧
      t.ntf = s.ntf ∧ t.tick = s.tick ∧ t.clkEn = s.clkEn ∧ t.faults = s.faults ∧
      ∀ a, (a < (s.ch c).maddr (s.ch c).index ∨ (s.ch c).maddr (s.ch c).index + (s.ch c).ub ≤ a) →
        Memory.read t.mem a = Memory.read s.mem a

/-! ## Notifier -/

/-- R89, R90, R124: the interrupt line, when SNAPSHOT is enabled, and that entry changes only `ntf` and
`hist`. -/
def Obligations.SnapshotTakesAllFlags : Prop :=
  ∀ (s : State) (c : Nat), s.faults = [] → c < s.numChannels →
    let f := (s.ch c).flags
    let ie := (s.ch c).ie
    (s.enabled (.snap c) = true ↔ s.ntf = .idle ∧
      ((f.tc = true ∧ ie.tc = true) ∨ (f.ht = true ∧ ie.ht = true) ∨ (f.te = true ∧ ie.te = true) ∨
        (f.fe = true ∧ ie.fe = true) ∨ (f.dme = true ∧ ie.dme = true))) ∧
    perform (.snap c) s = .next { s with ntf := .snapped c f, hist := s.hist ++ [.snap c f] }

/-- R92, R93, R94, R95: a dispatch with room in the queue clears exactly the snapshot's flags, applies the ownership
effect of every class of the snapshot, its enable set or not, and appends one event for each whose enable is set,
both in the order TE, FE, DME, HT, TC, and returns; it writes nothing else. -/
def Obligations.DispatchDeliversInOrder : Prop :=
  ∀ (s : State) (c : Nat) (m : Flags), s.ntf = .snapped c m → c < s.numChannels →
    let ch := s.ch c
    let taken := [Cls.te, Cls.fe, Cls.dme, Cls.ht, Cls.tc].filter m.get
    let due := taken.filter ch.ie.get
    let handed := taken.foldl (fun d k => d.ownEffect k) ch
    ch.evq.length + due.length ≤ s.params.evqDepth →
    ∃ t, perform .dispatch s = .next t ∧
      OnlyChannel s t c
        { ch with
          flags :=
            ⟨ch.flags.tc && !m.tc, ch.flags.ht && !m.ht, ch.flags.te && !m.te, ch.flags.fe && !m.fe,
              ch.flags.dme && !m.dme⟩
          evq := ch.evq ++ due.map fun k => ch.eventOf k
          own0 := handed.own0, own1 := handed.own1 } ∧
      t = { s with
            chs := t.chs, ntf := .idle
            hist := s.hist ++ (due.map fun k => HistEvent.event c (ch.eventOf k)) ++ [.dispatch c m] }

/-- R94: the record of an event: its class, its outcome and, by scheme, its slot. -/
def Obligations.EventRecordOfAClass : Prop :=
  ∀ (ch : Channel) (k : Cls),
    let e := ch.eventOf k
    e.src = k ∧ (k = .tc ∨ k = .ht → e.outcome = .success) ∧ (k = .te → e.outcome = .transferError) ∧
      (k = .fe ∨ k = .dme → e.outcome = .fifoError) ∧ (ch.circ = false → e.slot = false) ∧
      (ch.circ = true → ch.dbm = false →
        (k = .ht → e.slot = false) ∧ (k = .tc → e.slot = true) ∧
        (k ≠ .ht → k ≠ .tc →
          e.slot = decide (ch.reload.toNat / 2 ≤ ch.reload.toNat - ch.ndtr.toNat))) ∧
      (ch.circ = true → ch.dbm = true → (k = .tc → e.slot = !ch.ct) ∧ (k ≠ .tc → e.slot = ch.ct))

/-- R94, R121: a dispatch whose delivery of class `k` finds the queue full raises `EVQ_OVERFLOW` there. That event is
not stored; the snapshot's flags are already cleared; the ownership effects of the classes before `k` and of `k`,
and the deliveries before `k`, are kept; nothing after `k` is done; `ntf` stays SNAPPED, and the machine then stops.
That the history holds the fault and no entry of the lost event is the model's reading (log 12), and that the fault
is recorded by one step and answered by the next is the model's choice (log 7). -/
def Obligations.DeliveryIntoAFullQueueIsAFault : Prop :=
  ∀ (s : State) (c : Nat) (m : Flags) (before after : List Cls) (k : Cls), s.faults = [] → c < s.numChannels →
    s.ntf = .snapped c m → [Cls.te, Cls.fe, Cls.dme, Cls.ht, Cls.tc] = before ++ k :: after →
    let ch := s.ch c
    let due := (before.filter m.get).filter ch.ie.get
    let handed := ((before ++ [k]).filter m.get).foldl (fun d x => d.ownEffect x) ch
    let f : Fault := .evqOverflow c (ch.eventOf k)
    m.get k = true → ch.ie.get k = true → ch.evq.length + due.length = s.params.evqDepth →
    ∃ t, perform .dispatch s = .next t ∧
      OnlyChannel s t c
        { ch with
          flags :=
            ⟨ch.flags.tc && !m.tc, ch.flags.ht && !m.ht, ch.flags.te && !m.te, ch.flags.fe && !m.fe,
              ch.flags.dme && !m.dme⟩
          evq := ch.evq ++ due.map fun x => ch.eventOf x
          own0 := handed.own0, own1 := handed.own1 } ∧
      t = { s with
            chs := t.chs, faults := [f]
            hist := s.hist ++ (due.map fun x => HistEvent.event c (ch.eventOf x)) ++ [.fault f] } ∧
      step t = .fault f

/-- R93: the ownership effect of one class of a dispatch. -/
def Obligations.OwnershipHandoffOfAClass : Prop :=
  ∀ (ch : Channel) (k : Cls),
    let boundary := (k = .tc ∧ ch.circ = true) ∨ (k = .ht ∧ ch.circ = true ∧ ch.dbm = false)
    let terminal := k = .te ∨ k = .fe ∨ k = .dme ∨ (k = .tc ∧ ch.circ = false)
    (boundary ∨ terminal → ch.enAck = false → ch.ownEffect k = { ch with own0 := .app, own1 := .app }) ∧
    (boundary → ch.enAck = true →
      (ch.curSlot = true → ch.ownEffect k = { ch with own0 := .app }) ∧
      (ch.curSlot = false → ch.ownEffect k = { ch with own1 := .app })) ∧
    (¬ boundary → ¬ (terminal ∧ ch.enAck = false) → ch.ownEffect k = ch)

/-- R93: the notifier never releases the slot the engine is writing, however late the dispatch runs. -/
def Obligations.DispatchKeepsTheEnginesSlot : Prop :=
  ∀ (s t : State) (c : Nat) (m : Flags), s.ntf = .snapped c m → c < s.numChannels →
    (s.ch c).enAck = true → perform .dispatch s = .next t →
    (t.ch c).own (s.ch c).curSlot = (s.ch c).own (s.ch c).curSlot ∧ (t.ch c).curSlot = (s.ch c).curSlot

/-- R100: the owners of a channel's two slots alternate. In DUAL, from an engine entering a slot with that slot the
hardware's and the other the application's, a whole cycle makes both the hardware's, and the TC handoff then leaves
exactly the slot the engine is in to the hardware and names the slot just completed; so after `n` cycles and
handoffs the owners have alternated. In HALVES, each half of a cycle makes both slots the hardware's, and the HT or
TC handoff after it releases exactly the half just completed and names it, in every cycle. -/
def Obligations.DualSlotsAlternate : Prop :=
  ∀ (ch : Channel) (n : Nat), ch.enAck = true → ch.ct = false → ch.ndtr = ch.reload → 1 ≤ ch.reload.toNat →
    ch.own0 = .hw → ch.own1 = .app →
    let count := ch.reload.toNat
    (ch.scheme = .dual →
      let cycle := fun d : Channel => Channel.advance^[count] d
      let round := fun d : Channel => (cycle d).ownEffect .tc
      let d := round^[n] ch
      d.own0 = (if n % 2 = 0 then .hw else .app) ∧ d.own1 = (if n % 2 = 0 then .app else .hw) ∧
        (cycle d).own0 = .hw ∧ (cycle d).own1 = .hw ∧ (cycle d).eventSlot .tc = decide (n % 2 = 1)) ∧
    (ch.scheme = .halves → 2 ≤ count →
      let first := fun d : Channel => Channel.advance^[count / 2] d
      let second := fun d : Channel => Channel.advance^[count - count / 2] ((first d).ownEffect .ht)
      let d := (fun d : Channel => (second d).ownEffect .tc)^[n] ch
      d.own0 = .hw ∧ d.own1 = .app ∧
        (first d).own0 = .hw ∧ (first d).own1 = .hw ∧ (first d).eventSlot .ht = false ∧
        ((first d).ownEffect .ht).own0 = .app ∧ ((first d).ownEffect .ht).own1 = .hw ∧
        (second d).own0 = .hw ∧ (second d).own1 = .hw ∧ (second d).eventSlot .tc = true)

/-! ## The tick -/

/-- R128: a tick advances the counter modulo 2^32 and ages exactly the pending acknowledgements. -/
def Obligations.TickAgesPendingAcknowledgements : Prop :=
  ∀ s : State, ∃ t, perform .tick s = .next t ∧ t.tick.toNat = (s.tick.toNat + 1) % 4294967296 ∧
    t.numChannels = s.numChannels ∧
    (∀ c, c < s.numChannels →
      let ch := s.ch c
      let pending := (ch.enReq = true ∧ ch.enAck = false ∧ ch.cstate = .armed) ∨
        (ch.enReq = false ∧ ch.enAck = true)
      t.ch c = { ch with ackAge := if pending then ch.ackAge + 1 else ch.ackAge }) ∧
    t = { s with tick := t.tick, chs := t.chs, hist := s.hist ++ [.tick] }

/-- R129: when the tick may advance. The poll conditions are those of R71, R73, R103, R104 and R108, and count
even while the notifier holds the host. -/
def Obligations.TickIsHeldByPollsAndBounds : Prop :=
  ∀ s : State,
    let waited := fun t0 : Word => (s.tick - t0).toNat
    let polls :=
      match s.hw with
      | .none => False
      | .startWait c t0 => (s.ch c).cstate ≠ .armed ∨ s.params.ackTimeout ≤ waited t0
      | .stopWait c t0 => (s.ch c).enAck = false ∨ s.params.ackTimeout ≤ waited t0
      | .swaitPoll c t0 n =>
        (s.ch c).cstate = .completed ∨ (s.ch c).cstate = .error ∨ n.toNat ≤ waited t0
      | .swaitStop c t0 => (s.ch c).enAck = false ∨ s.params.ackTimeout ≤ waited t0
      | .dlyWait t0 n => n.toNat ≤ waited t0
    let due := fun ch : Channel =>
      (ch.enReq = false ∧ ch.enAck = true ∧ 1 ≤ ch.ackAge) ∨
        (ch.enReq = true ∧ ch.enAck = false ∧ ch.cstate = .armed ∧
          ∃ b, s.params.enAckBound = some b ∧ b ≤ ch.ackAge)
    s.enabled .tick = true ↔
      s.faults = [] ∧ ¬ polls ∧
        ¬ (s.params.hangAdmitted = false ∧ ∃ c, c < s.numChannels ∧ due (s.ch c))

/-- R129: with no hang admitted the acknowledgement bounds hold after every step that starts within them; so, with
`ACK_TIMEOUT >= 2`, the poll that ends a STOP or a timed-out SWAIT finds the acknowledgement and never the
timeout, and so does the poll of a START when `EN_ACK_BOUND < ACK_TIMEOUT`. -/
def Obligations.BoundedWaitsNeverTimeOut : Prop :=
  (∀ s t : State, s.params.hangAdmitted = false → LifecycleInv s → AckBoundInv s → step s = .next t →
    AckBoundInv t) ∧
  ∀ (s : State) (c : Nat) (t0 : Word), AckBoundInv s → 2 ≤ s.params.ackTimeout →
    s.enabled .host = true →
    (s.hw = .stopWait c t0 ∨ s.hw = .swaitStop c t0 → (s.ch c).enAck = false) ∧
    (s.hw = .startWait c t0 → ∀ b, s.params.enAckBound = some b → b < s.params.ackTimeout →
      (s.ch c).cstate ≠ .armed)

/-! ## Reset and whole-machine rules -/

/-- R134: the reset state, but for `tick`, `NUM_CHANNELS`, `MEM0` and the parameters, which R134 and R7 leave
open. -/
def Obligations.ResetState : Prop :=
  let s := State.reset
  (∀ c, c < s.numChannels → s.ch c =
    { enReq := false, enAck := false, ie := ⟨false, false, false, false, false⟩, dir := 0, circ := false
      pinc := false, minc := false, usize := 0, prio := 0, dbm := false, ct := false, ndtr := 0, reload := 0
      par := 0, m0ar := 0, m1ar := 0, flags := ⟨false, false, false, false, false⟩, cstate := .idle
      perr := .none, own0 := .app, own1 := .app, evq := [], ackAge := 0 }) ∧
    s.clkEn = false ∧ s.ntf = .idle ∧ s.cp = 0 ∧ s.hw = .none ∧ s.faults = [] ∧ s.hist = []

/-- R135 holds at reset, with the other invariants and the ranges R7 gives the parameters. The reset state's
parameters, number of channels and memory are the model's choices (logs 2 and 5). -/
def Obligations.ResetMeetsTheInvariants : Prop :=
  LifecycleInv State.reset ∧ DescriptorInv State.reset ∧ PointerInv State.reset ∧ WaitInv State.reset ∧
    NotifierInv State.reset ∧ AckBoundInv State.reset ∧ ParamsInv State.reset ∧
    Memory.wf State.reset.mem = true

/-- R135: every step keeps the lifecycle invariant, from every state that has it. -/
def Obligations.StepKeepsTheLifecycle : Prop :=
  ∀ s t : State, LifecycleInv s → WaitInv s → NotifierInv s → step s = .next t →
    LifecycleInv t ∧ WaitInv t ∧ NotifierInv t

/-- R38, R67, R12, R49: every step keeps every descriptor in the shape CFG accepts (conditions 1, 2 and 4 to 9 of R67;
condition 3, a count of at least 1, fails at reset and is left out), and the command pointer, with the length of a
command that is waiting, within the stream. -/
def Obligations.StepKeepsDescriptorsAndPointer : Prop :=
  ∀ s t : State, step s = .next t →
    (DescriptorInv s → DescriptorInv t) ∧ (PointerInv s → PointerInv t ∧ s.cp ≤ t.cp)

/-- R35, R37 and the canonical form: every step keeps memory canonical. -/
def Obligations.StepKeepsMemoryCanonical : Prop :=
  ∀ s t : State, Memory.wf s.mem = true → step s = .next t → Memory.wf t.mem = true

/-- R28, R32, R33, R34, R7: no step removes a fault or a history entry, clears `clk_en`, or writes the parameters, the
stream or the number of channels, which so stay in the ranges of R7. -/
def Obligations.StepOnlyAppends : Prop :=
  ∀ s t : State, step s = .next t →
    s.faults <+: t.faults ∧ s.hist <+: t.hist ∧ (s.clkEn = true → t.clkEn = true) ∧
      t.params = s.params ∧ t.stream = s.stream ∧ t.numChannels = s.numChannels ∧ (ParamsInv s → ParamsInv t)

/-- R109, R104: the transitions of `cstate`, each with the step that makes it. R104's stop step takes COMPLETED and
ERROR to IDLE also, which R109's table does not list, and R103's poll step consumes any ERROR of a stopped engine;
the model follows the steps' own rules (logs 18 and 19). -/
def Obligations.LifecycleTransitions : Prop :=
  ∀ (s u t : State) (m : Move) (c : Nat), LifecycleInv s → WaitInv s → c < s.numChannels →
    s.enabled m = true → u = { s with sched := u.sched, draws := u.draws } → perform m u = .next t →
    (t.ch c).cstate ≠ (s.ch c).cstate →
    ((t.ch c).cstate = .configured ∧ m = .host ∧ s.hw = .none ∧ (s.ch c).cstate = .idle) ∨
    ((t.ch c).cstate = .armed ∧ m = .host ∧ s.hw = .none ∧ (s.ch c).cstate = .configured) ∨
    ((t.ch c).cstate = .running ∧ m = .ackOn c ∧ (s.ch c).cstate = .armed) ∨
    ((t.ch c).cstate = .completed ∧ m = .xfer c ∧ (s.ch c).cstate = .running ∧ (s.ch c).scheme = .oneshot) ∨
    ((t.ch c).cstate = .error ∧ (m = .xfer c ∨ ∃ k, m = .err c k) ∧ (s.ch c).cstate = .running) ∨
    ((t.ch c).cstate = .error ∧ (t.ch c).perr = .ackto ∧ m = .host ∧ (∃ t0, s.hw = .startWait c t0) ∧
      (s.ch c).cstate = .armed) ∨
    ((t.ch c).cstate = .error ∧ (t.ch c).perr = .ackto ∧ m = .host ∧ s.hw.stopping c = true ∧
      (s.ch c).enAck = true ∧ (s.ch c).cstate ≠ .idle) ∨
    ((t.ch c).cstate = .idle ∧ m = .host ∧ (s.ch c).enAck = false ∧ (s.hw.stopping c = true ∨
      (((s.ch c).cstate = .completed ∨ (s.ch c).cstate = .error) ∧
        (s.hw = .none ∨ ∃ t0 n, s.hw = .swaitPoll c t0 n))))

/-- R14, R17, R18: only an accepted CFG writes a channel's descriptor, and it is immutable while the channel is
enabled. -/
def Obligations.OnlyCfgWritesTheDescriptor : Prop :=
  ∀ (s t : State) (c : Nat), c < s.numChannels → step s = .next t →
    (t.ch c = { t.ch c with
        ie := (s.ch c).ie, dir := (s.ch c).dir, circ := (s.ch c).circ, pinc := (s.ch c).pinc
        minc := (s.ch c).minc, usize := (s.ch c).usize, prio := (s.ch c).prio, dbm := (s.ch c).dbm
        reload := (s.ch c).reload, par := (s.ch c).par, m0ar := (s.ch c).m0ar, m1ar := (s.ch c).m1ar }) ∨
    ((s.ch c).enReq = false ∧ (s.ch c).enAck = false ∧
      ((s.ch c).cstate = .idle ∨ (s.ch c).cstate = .configured) ∧ (t.ch c).cstate = .configured ∧
      ∃ d h par m0ar m1ar ndt, d.toNat = c ∧
        decode (s.stream.drop s.cp) = .ok (.cfg d h par m0ar m1ar ndt) ∧ cfgValid h par m0ar m1ar ndt = true)
end

