-- ==== Sys2Proof/Laws/Decode.lean ====
section
/-! SUPPORT. The bits of a placed field, the fields of an encoded head word, and what `decode` answers for a
head word of a known opcode. -/

namespace Sys2Proof

/-! ## Placed fields -/

/-- Bit `i` of a placed field. -/
theorem getLsbD_place {n : Nat} (lo : Nat) (x : BitVec n) (i : Nat) :
    (place lo x).getLsbD i = (decide (lo ≤ i) && decide (i < 32) && x.getLsbD (i - lo)) := by
  simp only [place, BitVec.getLsbD_shiftLeft, BitVec.getLsbD_setWidth]
  by_cases h1 : lo ≤ i <;> by_cases h2 : i < 32
  · have : i - lo < 32 := by omega
    simp [h1, h2, this]
  all_goals simp [h1, h2]

theorem getLsbD_placeBit (lo : Nat) (b : Bool) (i : Nat) :
    (placeBit lo b).getLsbD i = (decide (i = lo) && decide (i < 32) && b) := by
  rw [placeBit, getLsbD_place, Bool.eq_iff_iff]
  simp only [Bool.and_eq_true, decide_eq_true_eq, BitVec.getLsbD_ofBool]
  constructor
  · rintro ⟨⟨h1, h2⟩, h3, h4⟩; exact ⟨⟨by omega, h2⟩, h4⟩
  · rintro ⟨⟨h1, h2⟩, h3⟩; exact ⟨⟨by omega, h2⟩, by omega, h3⟩

/-- Bit `i` of a field of a word. -/
theorem getLsbD_field (w : Word) (lo n i : Nat) :
    (field w lo n).getLsbD i = (decide (i < n) && w.getLsbD (lo + i)) := by
  simp [field, BitVec.getLsbD_extractLsb']

/-- The bits of a head word. -/
theorem getLsbD_headOf (o : Op) (c : BitVec 4) (low : Word) (i : Nat) :
    (headOf o c low).getLsbD i =
      ((decide (26 ≤ i) && decide (i < 32) && o.code.getLsbD (i - 26)) ||
        (decide (22 ≤ i) && decide (i < 32) && c.getLsbD (i - 22)) || low.getLsbD i) := by
  simp only [headOf, BitVec.getLsbD_or, getLsbD_place]

/-- The bits of the configuration fields, one by one (R52). -/
theorem getLsbD_cfgBits (h : CfgHead) (i : Nat) :
    (cfgBits h).getLsbD i =
      ((decide (i = 1) && h.ie.tc) || (decide (i = 2) && h.ie.ht) || (decide (i = 3) && h.ie.te) ||
        (decide (i = 4) && h.ie.fe) || (decide (i = 5) && h.ie.dme) ||
        (decide (6 ≤ i) && decide (i < 8) && h.dir.getLsbD (i - 6)) || (decide (i = 8) && h.circ) ||
        (decide (i = 9) && h.pinc) || (decide (i = 10) && h.minc) ||
        (decide (11 ≤ i) && decide (i < 13) && h.usize.getLsbD (i - 11)) ||
        (decide (13 ≤ i) && decide (i < 15) && h.prio.getLsbD (i - 13)) || (decide (i = 15) && h.dbm)) := by
  have bit : ∀ lo (b : Bool), lo < 32 → (placeBit lo b).getLsbD i = (decide (i = lo) && b) := by
    intro lo b hlo
    rw [getLsbD_placeBit]
    by_cases e : i = lo
    · subst e; simp [hlo]
    · simp [e]
  have two : ∀ lo (x : BitVec 2), lo < 30 →
      (place lo x).getLsbD i = (decide (lo ≤ i) && decide (i < lo + 2) && x.getLsbD (i - lo)) := by
    intro lo x hlo
    rw [getLsbD_place, Bool.eq_iff_iff]
    simp only [Bool.and_eq_true, decide_eq_true_eq]
    constructor
    · rintro ⟨⟨h1, h2⟩, h3⟩
      have := BitVec.lt_of_getLsbD h3
      exact ⟨⟨h1, by omega⟩, h3⟩
    · rintro ⟨⟨h1, h2⟩, h3⟩; exact ⟨⟨h1, by omega⟩, h3⟩
  simp only [cfgBits, placeFlags, BitVec.getLsbD_or, bit _ _ (show (1 : Nat) < 32 by decide),
    bit _ _ (show (2 : Nat) < 32 by decide), bit _ _ (show (3 : Nat) < 32 by decide),
    bit _ _ (show (4 : Nat) < 32 by decide), bit _ _ (show (5 : Nat) < 32 by decide),
    bit _ _ (show (8 : Nat) < 32 by decide), bit _ _ (show (9 : Nat) < 32 by decide),
    bit _ _ (show (10 : Nat) < 32 by decide), bit _ _ (show (15 : Nat) < 32 by decide),
    two _ _ (show (6 : Nat) < 30 by decide), two _ _ (show (11 : Nat) < 30 by decide),
    two _ _ (show (13 : Nat) < 30 by decide)]

/-! ## The fields of an encoded head word -/

section head

variable (o : Op) (c : BitVec 4) (low : Word) (h : ∀ i, 22 ≤ i → low.getLsbD i = false)
include h

/-- The opcode field holds the opcode. -/
theorem opField_headOf : opField (headOf o c low) = o.code := by
  apply BitVec.eq_of_getLsbD_eq
  intro i hi
  have hc : c.getLsbD (26 + i - 22) = false := BitVec.getLsbD_of_ge _ _ (by omega)
  rw [opField, getLsbD_field, getLsbD_headOf, hc, h _ (by omega)]
  simp [hi, show 26 + i < 32 by omega]

/-- The channel field holds the channel. -/
theorem chField_headOf : chField (headOf o c low) = c := by
  apply BitVec.eq_of_getLsbD_eq
  intro i hi
  rw [chField, getLsbD_field, getLsbD_headOf, h _ (by omega)]
  simp [hi, show 22 + i < 32 by omega]
  omega

end head

/-! ## The low fields stay below the channel field -/

theorem zero_low : ∀ i, 22 ≤ i → (0 : Word).getLsbD i = false := by
  intro i _
  simp

theorem cfgBits_low (h : CfgHead) : ∀ i, 22 ≤ i → (cfgBits h).getLsbD i = false := by
  intro i hi
  rw [getLsbD_cfgBits]
  simp
  omega

theorem place_low {n : Nat} (hn : n ≤ 22) (x : BitVec n) : ∀ i, 22 ≤ i → (place 0 x).getLsbD i = false := by
  intro i hi
  rw [getLsbD_place]
  simp
  intro _
  exact BitVec.getLsbD_of_ge _ _ (by omega)

/-- No reserved bit is set exactly when every bit of the reserved mask is 0 in the word (R57, check 3). -/
theorem reserved_zero (o : Op) (w : Word) :
    w &&& o.reserved = 0#32 ↔ ∀ i, i < 32 → o.reserved.getLsbD i = true → w.getLsbD i = false := by
  constructor
  · intro h i hi hr
    have := congrArg (fun x => x.getLsbD i) h
    simpa [hr] using this
  · intro h
    apply BitVec.eq_of_getLsbD_eq
    intro i hi
    cases hr : o.reserved.getLsbD i
    · rw [BitVec.getLsbD_and, hr]
      simp
    · rw [BitVec.getLsbD_and, h i hi hr]
      simp

/-- Below the channel field stand the low fields. -/
theorem getLsbD_headOf_low (o : Op) (c : BitVec 4) (low : Word) (i : Nat) (hi : i < 22) :
    (headOf o c low).getLsbD i = low.getLsbD i := by
  rw [getLsbD_headOf]
  simp [show ¬ 26 ≤ i by omega, show ¬ 22 ≤ i by omega]

/-- The fields below the channel field are read as they were put. -/
theorem field_headOf_low (o : Op) (c : BitVec 4) (low : Word) (lo n : Nat) (hi : lo + n ≤ 22) :
    field (headOf o c low) lo n = field low lo n := by
  apply BitVec.eq_of_getLsbD_eq
  intro i h
  rw [getLsbD_field, getLsbD_field, getLsbD_headOf_low _ _ _ _ (by omega)]

/-- A field placed at 0 is read back. -/
theorem field_place_zero {n : Nat} (x : BitVec n) (hn : n ≤ 32) : field (place 0 x) 0 n = x := by
  apply BitVec.eq_of_getLsbD_eq
  intro i h
  rw [getLsbD_field, getLsbD_place]
  simp [h, show i < 32 by omega]

/-- The configuration fields are read back. -/
theorem cfgHeadOf_headOf (o : Op) (c : BitVec 4) (h : CfgHead) : cfgHeadOf (headOf o c (cfgBits h)) = h := by
  have two : ∀ (lo : Nat) (x : BitVec 2), lo + 2 ≤ 22 → (cfgBits h).getLsbD lo = x.getLsbD 0 →
      (cfgBits h).getLsbD (lo + 1) = x.getLsbD 1 → field (headOf o c (cfgBits h)) lo 2 = x := by
    intro lo x hlo h0 h1
    rw [field_headOf_low _ _ _ _ _ hlo]
    apply BitVec.eq_of_getLsbD_eq
    intro i hi
    rw [getLsbD_field]
    have : i = 0 ∨ i = 1 := by omega
    rcases this with rfl | rfl <;> simp_all
  unfold cfgHeadOf
  rw [two 6 h.dir (by decide) (by rw [getLsbD_cfgBits]; simp) (by rw [getLsbD_cfgBits]; simp),
    two 11 h.usize (by decide) (by rw [getLsbD_cfgBits]; simp) (by rw [getLsbD_cfgBits]; simp),
    two 13 h.prio (by decide) (by rw [getLsbD_cfgBits]; simp) (by rw [getLsbD_cfgBits]; simp)]
  simp only [getLsbD_headOf_low o c _ 1 (by decide), getLsbD_headOf_low o c _ 2 (by decide),
    getLsbD_headOf_low o c _ 3 (by decide), getLsbD_headOf_low o c _ 4 (by decide),
    getLsbD_headOf_low o c _ 5 (by decide), getLsbD_headOf_low o c _ 8 (by decide),
    getLsbD_headOf_low o c _ 9 (by decide), getLsbD_headOf_low o c _ 10 (by decide),
    getLsbD_headOf_low o c _ 15 (by decide), getLsbD_cfgBits]
  simp

/-! ## What `decode` answers -/

/-- The opcode of a number is the opcode with that number. -/
theorem Op.ofCode_eq_some {n : BitVec 6} {o : Op} : Op.ofCode n = some o ↔ o.code = n := by
  constructor
  · intro h
    simpa using List.find?_some h
  · rintro rfl
    cases o <;> rfl

/-- A head word of a known opcode. -/
theorem decode_cons_of_op {w : Word} {ops : List Word} {o : Op} (h : opField w = o.code) :
    decode (w :: ops) = decodeOp o w ops := by
  rw [decode, Op.ofCode_eq_some.2 h.symm]

/-- What passed checks 2 and 3 is built from the words. -/
theorem decodeOp_ok {o : Op} {w : Word} {ops : List Word} {i : Instr} :
    decodeOp o w ops = .ok i ↔
      o.len ≤ ops.length + 1 ∧ w &&& o.reserved = 0#32 ∧ ¬ (o.hasSize = true ∧ szField w = 3#2) ∧
        o.build w ops = i := by
  unfold decodeOp
  split
  · simp; omega
  · split
    · simp_all
    · split
      · simp_all
      · simp_all

/-- The length of a built command is the opcode's. -/
@[simp] theorem Op.build_length (o : Op) (w : Word) (ops : List Word) : (o.build w ops).length = o.len := by
  cases o <;> rfl

/-- A decoded command has its words in the stream. -/
theorem length_le_of_decode {ws : List Word} {i : Instr} (h : decode ws = .ok i) : i.length ≤ ws.length := by
  cases ws with
  | nil => simp [decode] at h
  | cons w ops =>
    rw [decode] at h
    split at h
    · simp at h
    · rw [decodeOp_ok] at h
      obtain ⟨hl, -, -, rfl⟩ := h
      simpa using hl

/-- So has an illegal command, and an unknown opcode has at least its one word. -/
theorem length_le_of_reject {ws : List Word} {r : Reject} (h : decode ws = .error r) :
    (r = .unknownOpcode → 1 ≤ ws.length) ∧ ∀ n, r = .reservedBits n ∨ r = .badSize n → n ≤ ws.length := by
  cases ws with
  | nil =>
    have : r = .truncated := by simpa [decode] using h.symm
    subst this
    simp
  | cons w ops =>
    refine ⟨by simp, ?_⟩
    rw [decode] at h
    split at h
    · have : r = .unknownOpcode := by simpa using h.symm
      subst this
      simp
    · next o _ =>
      unfold decodeOp at h
      split at h
      · have : r = .truncated := by simpa using h.symm
        subst this
        simp
      · split at h
        · intro n hn
          have : r = .reservedBits o.len := by simpa using h.symm
          subst this
          simp at hn
          simp
          omega
        · split at h
          · intro n hn
            have : r = .badSize o.len := by simpa using h.symm
            subst this
            simp at hn
            simp
            omega
          · simp at h

end Sys2Proof
end

