-- ==== Sys2Proof/Laws/State.lean ====
section
/-! SUPPORT. What each update of the state and of a channel leaves in each field, so that no proof unfolds a
record update. -/

namespace Sys2Proof.Machine

namespace State

variable (s : State)

@[simp] theorem record_chs (e : HistEvent) : (s.record e).chs = s.chs := rfl
@[simp] theorem record_mem (e : HistEvent) : (s.record e).mem = s.mem := rfl
@[simp] theorem record_tick (e : HistEvent) : (s.record e).tick = s.tick := rfl
@[simp] theorem record_clkEn (e : HistEvent) : (s.record e).clkEn = s.clkEn := rfl
@[simp] theorem record_ntf (e : HistEvent) : (s.record e).ntf = s.ntf := rfl
@[simp] theorem record_cp (e : HistEvent) : (s.record e).cp = s.cp := rfl
@[simp] theorem record_hw (e : HistEvent) : (s.record e).hw = s.hw := rfl
@[simp] theorem record_faults (e : HistEvent) : (s.record e).faults = s.faults := rfl
@[simp] theorem record_hist (e : HistEvent) : (s.record e).hist = s.hist ++ [e] := rfl
@[simp] theorem record_params (e : HistEvent) : (s.record e).params = s.params := rfl
@[simp] theorem record_stream (e : HistEvent) : (s.record e).stream = s.stream := rfl
@[simp] theorem record_sched (e : HistEvent) : (s.record e).sched = s.sched := rfl
@[simp] theorem record_answers (e : HistEvent) : (s.record e).answers = s.answers := rfl
@[simp] theorem record_draws (e : HistEvent) : (s.record e).draws = s.draws := rfl

@[simp] theorem result_chs (n : Nat) (st : Status) (v : Word) : (s.result n st v).chs = s.chs := rfl
@[simp] theorem result_mem (n : Nat) (st : Status) (v : Word) : (s.result n st v).mem = s.mem := rfl
@[simp] theorem result_tick (n : Nat) (st : Status) (v : Word) : (s.result n st v).tick = s.tick := rfl
@[simp] theorem result_clkEn (n : Nat) (st : Status) (v : Word) : (s.result n st v).clkEn = s.clkEn := rfl
@[simp] theorem result_ntf (n : Nat) (st : Status) (v : Word) : (s.result n st v).ntf = s.ntf := rfl
@[simp] theorem result_cp (n : Nat) (st : Status) (v : Word) : (s.result n st v).cp = s.cp + n := rfl
@[simp] theorem result_hw (n : Nat) (st : Status) (v : Word) : (s.result n st v).hw = s.hw := rfl
@[simp] theorem result_faults (n : Nat) (st : Status) (v : Word) : (s.result n st v).faults = s.faults := rfl
@[simp] theorem result_hist (n : Nat) (st : Status) (v : Word) : (s.result n st v).hist = s.hist ++ [.result s.cp s.headWord st v] := rfl
@[simp] theorem result_params (n : Nat) (st : Status) (v : Word) : (s.result n st v).params = s.params := rfl
@[simp] theorem result_stream (n : Nat) (st : Status) (v : Word) : (s.result n st v).stream = s.stream := rfl
@[simp] theorem result_sched (n : Nat) (st : Status) (v : Word) : (s.result n st v).sched = s.sched := rfl
@[simp] theorem result_answers (n : Nat) (st : Status) (v : Word) : (s.result n st v).answers = s.answers := rfl
@[simp] theorem result_draws (n : Nat) (st : Status) (v : Word) : (s.result n st v).draws = s.draws := rfl

@[simp] theorem finish_chs (n : Nat) (st : Status) (v : Word) : (s.finish n st v).chs = s.chs := rfl
@[simp] theorem finish_mem (n : Nat) (st : Status) (v : Word) : (s.finish n st v).mem = s.mem := rfl
@[simp] theorem finish_tick (n : Nat) (st : Status) (v : Word) : (s.finish n st v).tick = s.tick := rfl
@[simp] theorem finish_clkEn (n : Nat) (st : Status) (v : Word) : (s.finish n st v).clkEn = s.clkEn := rfl
@[simp] theorem finish_ntf (n : Nat) (st : Status) (v : Word) : (s.finish n st v).ntf = s.ntf := rfl
@[simp] theorem finish_cp (n : Nat) (st : Status) (v : Word) : (s.finish n st v).cp = s.cp + n := rfl
@[simp] theorem finish_hw (n : Nat) (st : Status) (v : Word) : (s.finish n st v).hw = .none := rfl
@[simp] theorem finish_faults (n : Nat) (st : Status) (v : Word) : (s.finish n st v).faults = s.faults := rfl
@[simp] theorem finish_hist (n : Nat) (st : Status) (v : Word) : (s.finish n st v).hist = s.hist ++ [.result s.cp s.headWord st v] := rfl
@[simp] theorem finish_params (n : Nat) (st : Status) (v : Word) : (s.finish n st v).params = s.params := rfl
@[simp] theorem finish_stream (n : Nat) (st : Status) (v : Word) : (s.finish n st v).stream = s.stream := rfl
@[simp] theorem finish_sched (n : Nat) (st : Status) (v : Word) : (s.finish n st v).sched = s.sched := rfl
@[simp] theorem finish_answers (n : Nat) (st : Status) (v : Word) : (s.finish n st v).answers = s.answers := rfl
@[simp] theorem finish_draws (n : Nat) (st : Status) (v : Word) : (s.finish n st v).draws = s.draws := rfl

@[simp] theorem raise_chs (f : Fault) : (s.raise f).chs = s.chs := rfl
@[simp] theorem raise_mem (f : Fault) : (s.raise f).mem = s.mem := rfl
@[simp] theorem raise_tick (f : Fault) : (s.raise f).tick = s.tick := rfl
@[simp] theorem raise_clkEn (f : Fault) : (s.raise f).clkEn = s.clkEn := rfl
@[simp] theorem raise_ntf (f : Fault) : (s.raise f).ntf = s.ntf := rfl
@[simp] theorem raise_cp (f : Fault) : (s.raise f).cp = s.cp := rfl
@[simp] theorem raise_hw (f : Fault) : (s.raise f).hw = s.hw := rfl
@[simp] theorem raise_faults (f : Fault) : (s.raise f).faults = s.faults ++ [f] := rfl
@[simp] theorem raise_hist (f : Fault) : (s.raise f).hist = s.hist ++ [.fault f] := rfl
@[simp] theorem raise_params (f : Fault) : (s.raise f).params = s.params := rfl
@[simp] theorem raise_stream (f : Fault) : (s.raise f).stream = s.stream := rfl
@[simp] theorem raise_sched (f : Fault) : (s.raise f).sched = s.sched := rfl
@[simp] theorem raise_answers (f : Fault) : (s.raise f).answers = s.answers := rfl
@[simp] theorem raise_draws (f : Fault) : (s.raise f).draws = s.draws := rfl

@[simp] theorem modCh_chs (c : Nat) (f : Channel → Channel) : (s.modCh c f).chs = s.chs.modify c f := rfl
@[simp] theorem modCh_mem (c : Nat) (f : Channel → Channel) : (s.modCh c f).mem = s.mem := rfl
@[simp] theorem modCh_tick (c : Nat) (f : Channel → Channel) : (s.modCh c f).tick = s.tick := rfl
@[simp] theorem modCh_clkEn (c : Nat) (f : Channel → Channel) : (s.modCh c f).clkEn = s.clkEn := rfl
@[simp] theorem modCh_ntf (c : Nat) (f : Channel → Channel) : (s.modCh c f).ntf = s.ntf := rfl
@[simp] theorem modCh_cp (c : Nat) (f : Channel → Channel) : (s.modCh c f).cp = s.cp := rfl
@[simp] theorem modCh_hw (c : Nat) (f : Channel → Channel) : (s.modCh c f).hw = s.hw := rfl
@[simp] theorem modCh_faults (c : Nat) (f : Channel → Channel) : (s.modCh c f).faults = s.faults := rfl
@[simp] theorem modCh_hist (c : Nat) (f : Channel → Channel) : (s.modCh c f).hist = s.hist := rfl
@[simp] theorem modCh_params (c : Nat) (f : Channel → Channel) : (s.modCh c f).params = s.params := rfl
@[simp] theorem modCh_stream (c : Nat) (f : Channel → Channel) : (s.modCh c f).stream = s.stream := rfl
@[simp] theorem modCh_sched (c : Nat) (f : Channel → Channel) : (s.modCh c f).sched = s.sched := rfl
@[simp] theorem modCh_answers (c : Nat) (f : Channel → Channel) : (s.modCh c f).answers = s.answers := rfl
@[simp] theorem modCh_draws (c : Nat) (f : Channel → Channel) : (s.modCh c f).draws = s.draws := rfl

@[simp] theorem enterNotifier_chs (c : Nat) (m : Flags) : (s.enterNotifier c m).chs = s.chs := rfl
@[simp] theorem enterNotifier_mem (c : Nat) (m : Flags) : (s.enterNotifier c m).mem = s.mem := rfl
@[simp] theorem enterNotifier_tick (c : Nat) (m : Flags) : (s.enterNotifier c m).tick = s.tick := rfl
@[simp] theorem enterNotifier_clkEn (c : Nat) (m : Flags) : (s.enterNotifier c m).clkEn = s.clkEn := rfl
@[simp] theorem enterNotifier_ntf (c : Nat) (m : Flags) : (s.enterNotifier c m).ntf = .snapped c m := rfl
@[simp] theorem enterNotifier_cp (c : Nat) (m : Flags) : (s.enterNotifier c m).cp = s.cp := rfl
@[simp] theorem enterNotifier_hw (c : Nat) (m : Flags) : (s.enterNotifier c m).hw = s.hw := rfl
@[simp] theorem enterNotifier_faults (c : Nat) (m : Flags) : (s.enterNotifier c m).faults = s.faults := rfl
@[simp] theorem enterNotifier_hist (c : Nat) (m : Flags) : (s.enterNotifier c m).hist = s.hist ++ [.snap c m] := rfl
@[simp] theorem enterNotifier_params (c : Nat) (m : Flags) : (s.enterNotifier c m).params = s.params := rfl
@[simp] theorem enterNotifier_stream (c : Nat) (m : Flags) : (s.enterNotifier c m).stream = s.stream := rfl
@[simp] theorem enterNotifier_sched (c : Nat) (m : Flags) : (s.enterNotifier c m).sched = s.sched := rfl
@[simp] theorem enterNotifier_answers (c : Nat) (m : Flags) : (s.enterNotifier c m).answers = s.answers := rfl
@[simp] theorem enterNotifier_draws (c : Nat) (m : Flags) : (s.enterNotifier c m).draws = s.draws := rfl

@[simp] theorem leaveNotifier_chs (c : Nat) (m : Flags) : (s.leaveNotifier c m).chs = s.chs := rfl
@[simp] theorem leaveNotifier_mem (c : Nat) (m : Flags) : (s.leaveNotifier c m).mem = s.mem := rfl
@[simp] theorem leaveNotifier_tick (c : Nat) (m : Flags) : (s.leaveNotifier c m).tick = s.tick := rfl
@[simp] theorem leaveNotifier_clkEn (c : Nat) (m : Flags) : (s.leaveNotifier c m).clkEn = s.clkEn := rfl
@[simp] theorem leaveNotifier_ntf (c : Nat) (m : Flags) : (s.leaveNotifier c m).ntf = .idle := rfl
@[simp] theorem leaveNotifier_cp (c : Nat) (m : Flags) : (s.leaveNotifier c m).cp = s.cp := rfl
@[simp] theorem leaveNotifier_hw (c : Nat) (m : Flags) : (s.leaveNotifier c m).hw = s.hw := rfl
@[simp] theorem leaveNotifier_faults (c : Nat) (m : Flags) : (s.leaveNotifier c m).faults = s.faults := rfl
@[simp] theorem leaveNotifier_hist (c : Nat) (m : Flags) : (s.leaveNotifier c m).hist = s.hist ++ [.dispatch c m] := rfl
@[simp] theorem leaveNotifier_params (c : Nat) (m : Flags) : (s.leaveNotifier c m).params = s.params := rfl
@[simp] theorem leaveNotifier_stream (c : Nat) (m : Flags) : (s.leaveNotifier c m).stream = s.stream := rfl
@[simp] theorem leaveNotifier_sched (c : Nat) (m : Flags) : (s.leaveNotifier c m).sched = s.sched := rfl
@[simp] theorem leaveNotifier_answers (c : Nat) (m : Flags) : (s.leaveNotifier c m).answers = s.answers := rfl
@[simp] theorem leaveNotifier_draws (c : Nat) (m : Flags) : (s.leaveNotifier c m).draws = s.draws := rfl

/-! The channels, through `ch` and `numChannels`. -/

@[simp] theorem record_ch (e : HistEvent) (d : Nat) : (s.record e).ch d = s.ch d := rfl
@[simp] theorem record_numChannels (e : HistEvent) : (s.record e).numChannels = s.numChannels := rfl
@[simp] theorem result_ch (n : Nat) (st : Status) (v : Word) (d : Nat) : (s.result n st v).ch d = s.ch d := rfl
@[simp] theorem result_numChannels (n : Nat) (st : Status) (v : Word) : (s.result n st v).numChannels = s.numChannels := rfl
@[simp] theorem finish_ch (n : Nat) (st : Status) (v : Word) (d : Nat) : (s.finish n st v).ch d = s.ch d := rfl
@[simp] theorem finish_numChannels (n : Nat) (st : Status) (v : Word) : (s.finish n st v).numChannels = s.numChannels := rfl
@[simp] theorem raise_ch (f : Fault) (d : Nat) : (s.raise f).ch d = s.ch d := rfl
@[simp] theorem raise_numChannels (f : Fault) : (s.raise f).numChannels = s.numChannels := rfl
@[simp] theorem enterNotifier_ch (c : Nat) (m : Flags) (d : Nat) : (s.enterNotifier c m).ch d = s.ch d := rfl
@[simp] theorem enterNotifier_numChannels (c : Nat) (m : Flags) : (s.enterNotifier c m).numChannels = s.numChannels := rfl
@[simp] theorem leaveNotifier_ch (c : Nat) (m : Flags) (d : Nat) : (s.leaveNotifier c m).ch d = s.ch d := rfl
@[simp] theorem leaveNotifier_numChannels (c : Nat) (m : Flags) : (s.leaveNotifier c m).numChannels = s.numChannels := rfl

@[simp] theorem modCh_numChannels (c : Nat) (f : Channel → Channel) :
    (s.modCh c f).numChannels = s.numChannels := by
  simp [numChannels]

/-- The written channel reads as written. -/
@[simp] theorem modCh_ch_same (c : Nat) (f : Channel → Channel) (h : c < s.numChannels) :
    (s.modCh c f).ch c = f (s.ch c) := by
  simp only [numChannels] at h
  simp [ch, List.getD_eq_getElem?_getD, h]

/-- Every other channel reads as before. -/
@[simp] theorem modCh_ch_ne (c d : Nat) (f : Channel → Channel) (h : d ≠ c) :
    (s.modCh c f).ch d = s.ch d := by
  simp [ch, List.getD_eq_getElem?_getD, Ne.symm h]

/-- Both at once, where the channel exists. -/
theorem modCh_ch (c d : Nat) (f : Channel → Channel) (h : c < s.numChannels) :
    (s.modCh c f).ch d = if d = c then f (s.ch c) else s.ch d := by
  split
  · next e => subst e; exact s.modCh_ch_same _ f h
  · next e => exact s.modCh_ch_ne c d f e

/-- What `ch` and `numChannels` read is the channel list. -/
theorem ch_congr {s t : State} (h : s.chs = t.chs) (c : Nat) : s.ch c = t.ch c := by
  simp [ch, h]

end State

namespace Channel

variable (ch : Channel)

@[simp] theorem release_enReq : ch.release.enReq = ch.enReq := rfl
@[simp] theorem release_enAck : ch.release.enAck = ch.enAck := rfl
@[simp] theorem release_ie : ch.release.ie = ch.ie := rfl
@[simp] theorem release_dir : ch.release.dir = ch.dir := rfl
@[simp] theorem release_circ : ch.release.circ = ch.circ := rfl
@[simp] theorem release_pinc : ch.release.pinc = ch.pinc := rfl
@[simp] theorem release_minc : ch.release.minc = ch.minc := rfl
@[simp] theorem release_usize : ch.release.usize = ch.usize := rfl
@[simp] theorem release_prio : ch.release.prio = ch.prio := rfl
@[simp] theorem release_dbm : ch.release.dbm = ch.dbm := rfl
@[simp] theorem release_ct : ch.release.ct = ch.ct := rfl
@[simp] theorem release_ndtr : ch.release.ndtr = ch.ndtr := rfl
@[simp] theorem release_reload : ch.release.reload = ch.reload := rfl
@[simp] theorem release_par : ch.release.par = ch.par := rfl
@[simp] theorem release_m0ar : ch.release.m0ar = ch.m0ar := rfl
@[simp] theorem release_m1ar : ch.release.m1ar = ch.m1ar := rfl
@[simp] theorem release_flags : ch.release.flags = ch.flags := rfl
@[simp] theorem release_cstate : ch.release.cstate = .idle := rfl
@[simp] theorem release_perr : ch.release.perr = .none := rfl
@[simp] theorem release_own0 : ch.release.own0 = .app := rfl
@[simp] theorem release_own1 : ch.release.own1 = .app := rfl
@[simp] theorem release_evq : ch.release.evq = ch.evq := rfl
@[simp] theorem release_ackAge : ch.release.ackAge = ch.ackAge := rfl

@[simp] theorem ackTimedOut_enReq : ch.ackTimedOut.enReq = ch.enReq := rfl
@[simp] theorem ackTimedOut_enAck : ch.ackTimedOut.enAck = ch.enAck := rfl
@[simp] theorem ackTimedOut_ie : ch.ackTimedOut.ie = ch.ie := rfl
@[simp] theorem ackTimedOut_dir : ch.ackTimedOut.dir = ch.dir := rfl
@[simp] theorem ackTimedOut_circ : ch.ackTimedOut.circ = ch.circ := rfl
@[simp] theorem ackTimedOut_pinc : ch.ackTimedOut.pinc = ch.pinc := rfl
@[simp] theorem ackTimedOut_minc : ch.ackTimedOut.minc = ch.minc := rfl
@[simp] theorem ackTimedOut_usize : ch.ackTimedOut.usize = ch.usize := rfl
@[simp] theorem ackTimedOut_prio : ch.ackTimedOut.prio = ch.prio := rfl
@[simp] theorem ackTimedOut_dbm : ch.ackTimedOut.dbm = ch.dbm := rfl
@[simp] theorem ackTimedOut_ct : ch.ackTimedOut.ct = ch.ct := rfl
@[simp] theorem ackTimedOut_ndtr : ch.ackTimedOut.ndtr = ch.ndtr := rfl
@[simp] theorem ackTimedOut_reload : ch.ackTimedOut.reload = ch.reload := rfl
@[simp] theorem ackTimedOut_par : ch.ackTimedOut.par = ch.par := rfl
@[simp] theorem ackTimedOut_m0ar : ch.ackTimedOut.m0ar = ch.m0ar := rfl
@[simp] theorem ackTimedOut_m1ar : ch.ackTimedOut.m1ar = ch.m1ar := rfl
@[simp] theorem ackTimedOut_flags : ch.ackTimedOut.flags = ch.flags := rfl
@[simp] theorem ackTimedOut_cstate : ch.ackTimedOut.cstate = .error := rfl
@[simp] theorem ackTimedOut_perr : ch.ackTimedOut.perr = .ackto := rfl
@[simp] theorem ackTimedOut_own0 : ch.ackTimedOut.own0 = ch.own0 := rfl
@[simp] theorem ackTimedOut_own1 : ch.ackTimedOut.own1 = ch.own1 := rfl
@[simp] theorem ackTimedOut_evq : ch.ackTimedOut.evq = ch.evq := rfl
@[simp] theorem ackTimedOut_ackAge : ch.ackTimedOut.ackAge = ch.ackAge := rfl

@[simp] theorem requestDisable_enReq : ch.requestDisable.enReq = false := rfl
@[simp] theorem requestDisable_enAck : ch.requestDisable.enAck = ch.enAck := rfl
@[simp] theorem requestDisable_ie : ch.requestDisable.ie = ch.ie := rfl
@[simp] theorem requestDisable_dir : ch.requestDisable.dir = ch.dir := rfl
@[simp] theorem requestDisable_circ : ch.requestDisable.circ = ch.circ := rfl
@[simp] theorem requestDisable_pinc : ch.requestDisable.pinc = ch.pinc := rfl
@[simp] theorem requestDisable_minc : ch.requestDisable.minc = ch.minc := rfl
@[simp] theorem requestDisable_usize : ch.requestDisable.usize = ch.usize := rfl
@[simp] theorem requestDisable_prio : ch.requestDisable.prio = ch.prio := rfl
@[simp] theorem requestDisable_dbm : ch.requestDisable.dbm = ch.dbm := rfl
@[simp] theorem requestDisable_ct : ch.requestDisable.ct = ch.ct := rfl
@[simp] theorem requestDisable_ndtr : ch.requestDisable.ndtr = ch.ndtr := rfl
@[simp] theorem requestDisable_reload : ch.requestDisable.reload = ch.reload := rfl
@[simp] theorem requestDisable_par : ch.requestDisable.par = ch.par := rfl
@[simp] theorem requestDisable_m0ar : ch.requestDisable.m0ar = ch.m0ar := rfl
@[simp] theorem requestDisable_m1ar : ch.requestDisable.m1ar = ch.m1ar := rfl
@[simp] theorem requestDisable_flags : ch.requestDisable.flags = ch.flags := rfl
@[simp] theorem requestDisable_cstate : ch.requestDisable.cstate = ch.cstate := rfl
@[simp] theorem requestDisable_perr : ch.requestDisable.perr = ch.perr := rfl
@[simp] theorem requestDisable_own0 : ch.requestDisable.own0 = ch.own0 := rfl
@[simp] theorem requestDisable_own1 : ch.requestDisable.own1 = ch.own1 := rfl
@[simp] theorem requestDisable_evq : ch.requestDisable.evq = ch.evq := rfl
@[simp] theorem requestDisable_ackAge : ch.requestDisable.ackAge = 0 := rfl

@[simp] theorem arm_enReq : ch.arm.enReq = true := rfl
@[simp] theorem arm_enAck : ch.arm.enAck = ch.enAck := rfl
@[simp] theorem arm_ie : ch.arm.ie = ch.ie := rfl
@[simp] theorem arm_dir : ch.arm.dir = ch.dir := rfl
@[simp] theorem arm_circ : ch.arm.circ = ch.circ := rfl
@[simp] theorem arm_pinc : ch.arm.pinc = ch.pinc := rfl
@[simp] theorem arm_minc : ch.arm.minc = ch.minc := rfl
@[simp] theorem arm_usize : ch.arm.usize = ch.usize := rfl
@[simp] theorem arm_prio : ch.arm.prio = ch.prio := rfl
@[simp] theorem arm_dbm : ch.arm.dbm = ch.dbm := rfl
@[simp] theorem arm_ct : ch.arm.ct = ch.ct := rfl
@[simp] theorem arm_ndtr : ch.arm.ndtr = ch.ndtr := rfl
@[simp] theorem arm_reload : ch.arm.reload = ch.reload := rfl
@[simp] theorem arm_par : ch.arm.par = ch.par := rfl
@[simp] theorem arm_m0ar : ch.arm.m0ar = ch.m0ar := rfl
@[simp] theorem arm_m1ar : ch.arm.m1ar = ch.m1ar := rfl
@[simp] theorem arm_flags : ch.arm.flags = .zero := rfl
@[simp] theorem arm_cstate : ch.arm.cstate = .armed := rfl
@[simp] theorem arm_perr : ch.arm.perr = ch.perr := rfl
@[simp] theorem arm_own0 : ch.arm.own0 = .hw := rfl
@[simp] theorem arm_own1 : ch.arm.own1 = .app := rfl
@[simp] theorem arm_evq : ch.arm.evq = ch.evq := rfl
@[simp] theorem arm_ackAge : ch.arm.ackAge = 0 := rfl

variable (h : CfgHead) (par m0ar m1ar ndt : Word)

@[simp] theorem configure_enReq : (ch.configure h par m0ar m1ar ndt).enReq = ch.enReq := rfl
@[simp] theorem configure_enAck : (ch.configure h par m0ar m1ar ndt).enAck = ch.enAck := rfl
@[simp] theorem configure_ie : (ch.configure h par m0ar m1ar ndt).ie = h.ie := rfl
@[simp] theorem configure_dir : (ch.configure h par m0ar m1ar ndt).dir = h.dir := rfl
@[simp] theorem configure_circ : (ch.configure h par m0ar m1ar ndt).circ = h.circ := rfl
@[simp] theorem configure_pinc : (ch.configure h par m0ar m1ar ndt).pinc = h.pinc := rfl
@[simp] theorem configure_minc : (ch.configure h par m0ar m1ar ndt).minc = h.minc := rfl
@[simp] theorem configure_usize : (ch.configure h par m0ar m1ar ndt).usize = h.usize := rfl
@[simp] theorem configure_prio : (ch.configure h par m0ar m1ar ndt).prio = h.prio := rfl
@[simp] theorem configure_dbm : (ch.configure h par m0ar m1ar ndt).dbm = h.dbm := rfl
@[simp] theorem configure_ct : (ch.configure h par m0ar m1ar ndt).ct = false := rfl
@[simp] theorem configure_ndtr : (ch.configure h par m0ar m1ar ndt).ndtr = ndt.setWidth 16 := rfl
@[simp] theorem configure_reload : (ch.configure h par m0ar m1ar ndt).reload = ndt.setWidth 16 := rfl
@[simp] theorem configure_par : (ch.configure h par m0ar m1ar ndt).par = par := rfl
@[simp] theorem configure_m0ar : (ch.configure h par m0ar m1ar ndt).m0ar = m0ar := rfl
@[simp] theorem configure_m1ar : (ch.configure h par m0ar m1ar ndt).m1ar = m1ar := rfl
@[simp] theorem configure_flags : (ch.configure h par m0ar m1ar ndt).flags = ch.flags := rfl
@[simp] theorem configure_cstate : (ch.configure h par m0ar m1ar ndt).cstate = .configured := rfl
@[simp] theorem configure_perr : (ch.configure h par m0ar m1ar ndt).perr = .none := rfl
@[simp] theorem configure_own0 : (ch.configure h par m0ar m1ar ndt).own0 = ch.own0 := rfl
@[simp] theorem configure_own1 : (ch.configure h par m0ar m1ar ndt).own1 = ch.own1 := rfl
@[simp] theorem configure_evq : (ch.configure h par m0ar m1ar ndt).evq = ch.evq := rfl
@[simp] theorem configure_ackAge : (ch.configure h par m0ar m1ar ndt).ackAge = ch.ackAge := rfl

@[simp] theorem release_scheme : ch.release.scheme = ch.scheme := rfl
@[simp] theorem ackTimedOut_scheme : ch.ackTimedOut.scheme = ch.scheme := rfl
@[simp] theorem requestDisable_scheme : ch.requestDisable.scheme = ch.scheme := rfl
@[simp] theorem arm_scheme : ch.arm.scheme = ch.scheme := rfl

end Channel

/-- Two updates of one channel are one. -/
theorem State.modCh_modCh (s : State) (c : Nat) (f g : Channel → Channel) :
    (s.modCh c f).modCh c g = s.modCh c (g ∘ f) := by
  simp [State.modCh, List.modify_modify_eq]

/-- An update of a channel depends on its value at the channel alone. -/
theorem State.modCh_congr {s : State} {c : Nat} {f g : Channel → Channel} (h : f (s.ch c) = g (s.ch c)) :
    s.modCh c f = s.modCh c g := by
  unfold State.modCh
  congr 1
  refine List.ext_getElem? fun i => ?_
  simp only [List.getElem?_modify]
  by_cases hi : c = i
  · subst hi
    by_cases hc : c < s.chs.length
    · have : s.ch c = s.chs[c] := by simp [State.ch, hc]
      rw [this] at h
      simp [hc, h]
    · simp [hc]
  · simp [hi]

end Sys2Proof.Machine
end

