-- ==== Sys2Proof/Laws/Exec.lean ====
section
/-! SUPPORT. What the shared operations of the commands answer: `onChannel`, and the check of a host access. -/

namespace Sys2Proof.Machine

/-- The channel check passes: the command's own rule. -/
theorem onChannel_of_lt {c : BitVec 4} {n : Nat} {s : State} {rule : Nat → State} (h : c.toNat < s.numChannels) :
    onChannel c n s rule = .next (rule c.toNat) := by
  simp [onChannel, h]

/-- The channel check fails: `InvalidChannel`. -/
theorem onChannel_of_ge {c : BitVec 4} {n : Nat} {s : State} {rule : Nat → State} (h : s.numChannels ≤ c.toNat) :
    onChannel c n s rule = .next (s.result n .invalidChannel 0) := by
  simp [onChannel, Nat.not_lt.2 h]

/-- Everything `onChannel` can do: one of the two. -/
theorem onChannel_next {c : BitVec 4} {n : Nat} {s t : State} {rule : Nat → State}
    (h : onChannel c n s rule = .next t) :
    (c.toNat < s.numChannels ∧ t = rule c.toNat) ∨
      (s.numChannels ≤ c.toNat ∧ t = s.result n .invalidChannel 0) := by
  rcases Nat.lt_or_ge c.toNat s.numChannels with lt | ge
  · rw [onChannel_of_lt lt] at h
    exact .inl ⟨lt, by injection h with h; exact h.symm⟩
  · rw [onChannel_of_ge ge] at h
    exact .inr ⟨ge, by injection h with h; exact h.symm⟩

/-- `onChannel` always answers a next state. -/
theorem onChannel_total (c : BitVec 4) (n : Nat) (s : State) (rule : Nat → State) :
    ∃ t, onChannel c n s rule = .next t := by
  unfold onChannel
  split <;> exact ⟨_, rfl⟩

/-- Every command answers a next state, from every state: the block refuses none (R6). -/
theorem exec_total (i : Instr) (s : State) : ∃ t, exec i s = .next t := by
  cases i with
  | hrd sz a => simp only [exec, execHrd]; split <;> exact ⟨_, rfl⟩
  | hwr sz a v => simp only [exec, execHwr]; split <;> exact ⟨_, rfl⟩
  | dly n => exact ⟨_, rfl⟩
  | cfg => simp only [exec, execCfg]; exact onChannel_total _ _ _ _
  | start => simp only [exec, execStart]; exact onChannel_total _ _ _ _
  | stop => simp only [exec, execStop]; exact onChannel_total _ _ _ _
  | rdstat => simp only [exec, execRdstat]; exact onChannel_total _ _ _ _
  | clrf => simp only [exec, execClrf]; exact onChannel_total _ _ _ _
  | rdcnt => simp only [exec, execRdcnt]; exact onChannel_total _ _ _ _
  | rdcr => simp only [exec, execRdcr]; exact onChannel_total _ _ _ _
  | swait => simp only [exec, execSwait]; exact onChannel_total _ _ _ _
  | sack => simp only [exec, execSack]; exact onChannel_total _ _ _ _
  | sevt => simp only [exec, execSevt]; exact onChannel_total _ _ _ _

/-! ## The check of a host access -/

/-- `allRam` says what it checks. -/
theorem allRam_eq_true {p : Config} {a n : Nat} :
    allRam p a n = true ↔ ∀ k, k < n → p.isRam (a + k) = true := by
  induction n generalizing a with
  | zero => simp [allRam]
  | succ n ih =>
    rw [allRam, Bool.and_eq_true, ih]
    constructor
    · rintro ⟨h0, h⟩ k hk
      cases k with
      | zero => exact h0
      | succ k => rw [show a + (k + 1) = a + 1 + k by omega]; exact h k (by omega)
    · intro h
      refine ⟨h 0 (by omega), fun k hk => ?_⟩
      rw [show a + 1 + k = a + (k + 1) by omega]
      exact h (k + 1) (by omega)

/-- RAM lies in the 32-bit space. -/
theorem isRam_lt {p : Config} {a : Nat} (h : p.isRam a = true) : a < 2 ^ 32 := by
  simp only [Config.isRam, Bool.and_eq_true, decide_eq_true_eq] at h
  exact h.1

/-- So does an access whose bytes are all RAM. -/
theorem allRam_le {p : Config} {a n : Nat} (h : allRam p a (n + 1) = true) : a + (n + 1) ≤ 2 ^ 32 := by
  have := isRam_lt (allRam_eq_true.1 h n (by omega))
  omega

theorem accessBytes_pos (sz : BitVec 2) : 1 ≤ accessBytes sz := Nat.one_le_two_pow

theorem unitBytes_pos (u : BitVec 2) : 1 ≤ unitBytes u := Nat.one_le_two_pow

/-- The access and the range have a byte in common. -/
theorem meets_eq_true {a n : Nat} {r : Nat × Nat} :
    meets a n r = true ↔ ∃ b, a ≤ b ∧ b < a + n ∧ r.1 ≤ b ∧ b < r.2 := by
  simp only [meets, decide_eq_true_eq]
  constructor
  · intro h
    exact ⟨max a r.1, by omega, by omega, by omega, by omega⟩
  · rintro ⟨b, h1, h2, h3, h4⟩
    omega

/-- The slots of a machine's channels, with their channels. -/
theorem mem_slotsFrom {l : List Channel} {c0 : Nat} {x : Nat × Slot × Channel} :
    x ∈ slotsFrom l c0 ↔ ∃ k, ∃ h : k < l.length, x.1 = c0 + k ∧ x.2.2 = l[k] := by
  induction l generalizing c0 with
  | nil => simp [slotsFrom]
  | cons ch l ih =>
    obtain ⟨c, sl, d⟩ := x
    simp only [slotsFrom, List.mem_cons, ih, Prod.mk.injEq]
    constructor
    · rintro (⟨rfl, _, rfl⟩ | ⟨rfl, _, rfl⟩ | ⟨k, hk, rfl, rfl⟩)
      · exact ⟨0, by simp, by simp⟩
      · exact ⟨0, by simp, by simp⟩
      · exact ⟨k + 1, by simp [hk], by simp; omega⟩
    · rintro ⟨k, hk, h1, h2⟩
      cases k with
      | zero =>
        simp at h1 h2
        subst h1 h2
        cases sl <;> simp
      | succ k => exact .inr (.inr ⟨k, by simpa using hk, by omega, by simpa using h2⟩)

end Sys2Proof.Machine
end

