-- ==== Sys2Proof/Laws/Sched.lean ====
section
/-! SUPPORT. What the scheduler can pick and what a step can do: the inversion every proof about `step` starts
from. -/

namespace Sys2Proof.Machine

/-- The model's own schedule and draw counter changed, and nothing else: what picking a step does. -/
def Rescheduled (s u : State) : Prop := u = { s with sched := u.sched, draws := u.draws }

/-- No guard reads the schedule or the draw counter. -/
theorem guard_rescheduled (s : State) (l : List Move) (n : Nat) (m : Move) :
    ({ s with sched := l, draws := n } : State).guard m = s.guard m := by
  cases m <;> rfl

/-- The first enabled choice is enabled. -/
theorem firstEnabled_some {s : State} {l l' : List Move} {m : Move} (h : firstEnabled s l = some (m, l')) :
    s.enabled m = true := by
  induction l with
  | nil => simp [firstEnabled] at h
  | cons a l ih =>
    rw [firstEnabled] at h
    split at h
    · next e => injection h with h; injection h with h1 h2; rw [← h1]; exact e
    · exact ih h

/-- Every step the scheduler picks is enabled. -/
theorem pick_some {s u : State} {m : Move} (h : s.pick = some (m, u)) :
    s.enabled m = true ∧ Rescheduled s u := by
  unfold State.pick at h
  split at h
  · next m' l e =>
    injection h with h
    injection h with h1 h2
    subst h1 h2
    exact ⟨firstEnabled_some e, rfl⟩
  · rw [Option.map_eq_some_iff] at h
    obtain ⟨m', hm, h⟩ := h
    injection h with h1 h2
    subst h1 h2
    have := List.mem_of_getElem? hm
    rw [State.enabledMoves, List.mem_filter] at this
    exact ⟨this.2, rfl⟩

/-- Everything a step that answers a next state can be: one enabled step of one agent. -/
theorem step_next {s t : State} (h : step s = .next t) :
    s.faults = [] ∧ ∃ m u, s.enabled m = true ∧ Rescheduled s u ∧ perform m u = .next t := by
  unfold step at h
  split at h
  · simp at h
  · next hf =>
    refine ⟨hf, ?_⟩
    split at h
    · next m u hp =>
      obtain ⟨he, hr⟩ := pick_some hp
      exact ⟨m, u, he, hr, h⟩
    · simp at h

/-- An enabled choice at the head of the schedule is the one taken. -/
theorem pick_of_sched {s : State} {m : Move} {l : List Move} (h : s.sched = m :: l) (e : s.enabled m = true) :
    s.pick = some (m, { s with sched := l }) := by
  simp [State.pick, h, firstEnabled, e]

/-- Every step of an agent answers a next state. -/
theorem perform_total (m : Move) (s : State) : ∃ t, perform m s = .next t := by
  cases m
  case host =>
    simp only [perform, hostStep]
    split
    · unfold issueStep
      split
      · exact exec_total _ _
      · exact ⟨_, rfl⟩
    · exact ⟨_, rfl⟩
  all_goals exact ⟨_, rfl⟩

/-- What fetches the command `withFetchWord` placed. -/
theorem fetch_withFetchWord (s : State) (nbits w : Nat) :
    (s.withFetchWord nbits w).fetch = tableWords nbits w := by
  have h : (State.withFetchWord.streamBefore s.cp s.stream).length = s.cp := by
    simp [State.withFetchWord.streamBefore]
  simp only [State.fetch, State.withFetchWord]
  rw [List.drop_append_of_le_length (by omega), List.drop_of_length_le (by omega)]
  rfl

/-- The next step runs the command `withFetchWord` placed, from every state. -/
theorem step_withFetchWord {s : State} {nbits w : Nat} {i : Instr} (h : decodeTableWord nbits w = some i) :
    step (s.withFetchWord nbits w) = exec i { s.withFetchWord nbits w with sched := s.sched } := by
  have hd : decode (tableWords nbits w) = .ok i := by
    unfold decodeTableWord at h
    split at h
    · next j e => injection h with h; rw [e, h]
    · simp at h
  have hcp : s.cp < (s.withFetchWord nbits w).stream.length := by
    simp [State.withFetchWord, State.withFetchWord.streamBefore, tableWords]
  have he : (s.withFetchWord nbits w).enabled .host = true := by
    simp only [State.enabled, State.guard, State.hostReady]
    simpa [State.withFetchWord] using hcp
  unfold step
  rw [show (s.withFetchWord nbits w).faults = [] from rfl]
  simp only
  rw [pick_of_sched (s := s.withFetchWord nbits w) (l := s.sched) rfl he]
  simp only [perform, hostStep]
  rw [if_pos (show (s.withFetchWord nbits w).hw = Wait.none from rfl)]
  unfold issueStep
  rw [show State.fetch { s.withFetchWord nbits w with sched := s.sched } = tableWords nbits w from
    fetch_withFetchWord s nbits w, hd]

end Sys2Proof.Machine
end

