-- ==== Sys2Proof/Laws/Effects.lean ====
section
/-! SUPPORT. Everything a step can do, said once: the rules of the machine as one relation, with the guards under
which each applies. A proof about `perform` or `step` starts from `perform_effect` and cases over the rules. -/

namespace Sys2Proof.Machine

/-- The rules, each with what it needs and the state it leaves. -/
inductive Effect (s : State) : Move → State → Prop
  | illegal {r : Reject} (hw : s.hw = .none) (hi : decode s.fetch = .error r) (ne : r ≠ .truncated) :
      Effect s .host (s.result (illegalLength r) .illegalCommand 0)
  | malformed (hw : s.hw = .none) (hi : decode s.fetch = .error .truncated) :
      Effect s .host (s.raise (.malformedStream s.cp))
  | answer {i : Instr} (hw : s.hw = .none) (hi : decode s.fetch = .ok i) (st : Status) (v : Word) :
      Effect s .host (s.result i.length st v)
  | hostFault (hw : s.hw = .none) (f : Fault) : Effect s .host (s.raise f)
  | store {sz : BitVec 2} {a v : Word} (hw : s.hw = .none) (hi : decode s.fetch = .ok (.hwr sz a v))
      (ok : s.haccCheck a.toNat (accessBytes sz) = none) :
      Effect s .host
        (({ s with mem := Memory.writeLE s.mem a.toNat (accessBytes sz) v.toNat } : State).result 3 .ok 0)
  | cfg {d : BitVec 4} {h : CfgHead} {par m0ar m1ar ndt : Word} (hw : s.hw = .none)
      (hi : decode s.fetch = .ok (.cfg d h par m0ar m1ar ndt)) (hc : d.toNat < s.numChannels)
      (en : (s.ch d.toNat).enabled = false)
      (st : (s.ch d.toNat).cstate = .idle ∨ (s.ch d.toNat).cstate = .configured)
      (ok : cfgValid h par m0ar m1ar ndt = true) :
      Effect s .host
        (({ s.modCh d.toNat (·.configure h par m0ar m1ar ndt) with clkEn := true } : State).result 5 .ok 0)
  | start {d : BitVec 4} (hw : s.hw = .none) (hi : decode s.fetch = .ok (.start d)) (hc : d.toNat < s.numChannels)
      (st : (s.ch d.toNat).cstate = .configured) :
      Effect s .host { s.modCh d.toNat Channel.arm with hw := .startWait d.toNat s.tick }
  | stop {d : BitVec 4} (hw : s.hw = .none) (hi : decode s.fetch = .ok (.stop d)) (hc : d.toNat < s.numChannels) :
      Effect s .host { s.modCh d.toNat Channel.requestDisable with hw := .stopWait d.toNat s.tick }
  | clrf {d : BitVec 4} {mask : BitVec 5} (hw : s.hw = .none) (hi : decode s.fetch = .ok (.clrf d mask))
      (hc : d.toNat < s.numChannels) :
      Effect s .host
        ((s.modCh d.toNat fun ch => { ch with flags := ch.flags.clear (.ofBits mask) }).result 1 .ok 0)
  | swait {d : BitVec 4} {n : Word} (hw : s.hw = .none) (hi : decode s.fetch = .ok (.swait d n))
      (hc : d.toNat < s.numChannels) (sc : (s.ch d.toNat).scheme = .oneshot)
      (st : (s.ch d.toNat).cstate = .running ∨ (s.ch d.toNat).cstate = .completed ∨
        (s.ch d.toNat).cstate = .error) :
      Effect s .host { s with hw := .swaitPoll d.toNat s.tick n }
  | sack {d : BitVec 4} (hw : s.hw = .none) (hi : decode s.fetch = .ok (.sack d)) (hc : d.toNat < s.numChannels)
      (st : (s.ch d.toNat).cstate = .completed ∨ (s.ch d.toNat).cstate = .error)
      (ak : (s.ch d.toNat).enAck = false) (r : Status) (v : Word) :
      Effect s .host ((s.modCh d.toNat Channel.release).result 1 r v)
  | sevt {d : BitVec 4} {e : EventRec} {q : List EventRec} (hw : s.hw = .none)
      (hi : decode s.fetch = .ok (.sevt d)) (hc : d.toNat < s.numChannels) (ev : (s.ch d.toNat).evq = e :: q) :
      Effect s .host ((s.modCh d.toNat fun ch => { ch with evq := q }).result 1 .ok (eventWord e))
  | dly {n : Word} (hw : s.hw = .none) (hi : decode s.fetch = .ok (.dly n)) :
      Effect s .host { s with hw := .dlyWait s.tick n }
  | startDone {c : Nat} {t0 : Word} (hw : s.hw = .startWait c t0) (st : (s.ch c).cstate ≠ .armed) :
      Effect s .host (s.finish 1 .ok 0)
  | startLate {c : Nat} {t0 : Word} (hw : s.hw = .startWait c t0) (st : (s.ch c).cstate = .armed) :
      Effect s .host ((s.modCh c fun ch => { ch with enReq := false }.ackTimedOut).finish 1
        .hardwareAcknowledgeTimeout 0)
  | stopDone {c : Nat} {t0 : Word} (hw : s.hw = .stopWait c t0) (ak : (s.ch c).enAck = false) :
      Effect s .host ((s.modCh c Channel.release).finish 1 .ok (s.ch c).remaining)
  | stopLate {c : Nat} {t0 : Word} (hw : s.hw = .stopWait c t0) (ak : (s.ch c).enAck = true) :
      Effect s .host ((s.modCh c Channel.ackTimedOut).finish 1 .hardwareAcknowledgeTimeout (s.ch c).remaining)
  | swaitTaken {c : Nat} {t0 n : Word} (hw : s.hw = .swaitPoll c t0 n)
      (st : (s.ch c).cstate = .completed ∨ (s.ch c).cstate = .error ∧ (s.ch c).enAck = false) (r : Status) :
      Effect s .host ((s.modCh c Channel.release).finish 2 r (s.ch c).remaining)
  | swaitReported {c : Nat} {t0 n : Word} (hw : s.hw = .swaitPoll c t0 n) (st : (s.ch c).cstate = .error)
      (ak : (s.ch c).enAck = true) (r : Status) : Effect s .host (s.finish 2 r (s.ch c).remaining)
  | swaitTimeout {c : Nat} {t0 n : Word} (hw : s.hw = .swaitPoll c t0 n) (st : (s.ch c).cstate ≠ .completed)
      (st' : (s.ch c).cstate ≠ .error) :
      Effect s .host { s.modCh c Channel.requestDisable with hw := .swaitStop c s.tick }
  | swaitStopped {c : Nat} {t0 : Word} (hw : s.hw = .swaitStop c t0) (ak : (s.ch c).enAck = false) :
      Effect s .host ((s.modCh c Channel.release).finish 2 (stoppedStatus (s.ch c)) (s.ch c).remaining)
  | swaitLate {c : Nat} {t0 : Word} (hw : s.hw = .swaitStop c t0) (ak : (s.ch c).enAck = true) :
      Effect s .host ((s.modCh c Channel.ackTimedOut).finish 2 .hardwareAcknowledgeTimeout (s.ch c).remaining)
  | dlyDone {t0 n : Word} (hw : s.hw = .dlyWait t0 n) : Effect s .host (s.finish 2 .ok 0)
  | ackOn (c : Nat) : Effect s (.ackOn c) (ackOnStep c s)
  | ackOff (c : Nat) : Effect s (.ackOff c) (ackOffStep c s)
  | transfer {c : Nat} (ram : Channel.targetInRam s.params (s.ch c) = true) : Effect s (.xfer c) (transferStep c s)
  | busError {c : Nat} (ram : Channel.targetInRam s.params (s.ch c) = false) :
      Effect s (.xfer c) (errStep c .te s)
  | error (c : Nat) (k : ErrCls) : Effect s (.err c k) (errStep c k s)
  | snapshot (c : Nat) : Effect s (.snap c) (snapStep c s)
  | dispatch : Effect s .dispatch (dispatchStep s)
  | tick : Effect s .tick (tickStep s)

/-- Everything a command's issue step can do. -/
theorem exec_effect {s t : State} {i : Instr} (hw : s.hw = .none) (hi : decode s.fetch = .ok i)
    (h : exec i s = .next t) : Effect s .host t := by
  cases i with
  | cfg d =>
    simp only [exec, execCfg] at h
    obtain ⟨hc, rfl⟩ | ⟨_, rfl⟩ := onChannel_next h
    · split
      · exact .answer hw hi _ _
      · split
        · exact .answer hw hi _ _
        · split
          · exact .answer hw hi _ _
          · exact .cfg hw hi hc (by simp_all) (by tauto) (by simp_all)
    · exact .answer hw hi _ _
  | start d =>
    simp only [exec, execStart] at h
    obtain ⟨hc, rfl⟩ | ⟨_, rfl⟩ := onChannel_next h
    · split
      · exact .answer hw hi _ _
      · exact .start hw hi hc (by simp_all)
    · exact .answer hw hi _ _
  | stop d =>
    simp only [exec, execStop] at h
    obtain ⟨hc, rfl⟩ | ⟨_, rfl⟩ := onChannel_next h
    · exact .stop hw hi hc
    · exact .answer hw hi _ _
  | rdstat d =>
    simp only [exec, execRdstat] at h
    obtain ⟨hc, rfl⟩ | ⟨_, rfl⟩ := onChannel_next h <;> exact .answer hw hi _ _
  | clrf d =>
    simp only [exec, execClrf] at h
    obtain ⟨hc, rfl⟩ | ⟨_, rfl⟩ := onChannel_next h
    · exact .clrf hw hi hc
    · exact .answer hw hi _ _
  | rdcnt d =>
    simp only [exec, execRdcnt] at h
    obtain ⟨hc, rfl⟩ | ⟨_, rfl⟩ := onChannel_next h <;> exact .answer hw hi _ _
  | rdcr d =>
    simp only [exec, execRdcr] at h
    obtain ⟨hc, rfl⟩ | ⟨_, rfl⟩ := onChannel_next h <;> exact .answer hw hi _ _
  | swait d =>
    simp only [exec, execSwait] at h
    obtain ⟨hc, rfl⟩ | ⟨_, rfl⟩ := onChannel_next h
    · split
      · exact .answer hw hi _ _
      · exact .swait hw hi hc (by tauto) (by tauto)
    · exact .answer hw hi _ _
  | sack d =>
    simp only [exec, execSack] at h
    obtain ⟨hc, rfl⟩ | ⟨_, rfl⟩ := onChannel_next h
    · split
      · exact .sack hw hi hc (by tauto) (by tauto) _ _
      · split
        · exact .sack hw hi hc (by tauto) (by tauto) _ _
        · exact .answer hw hi _ _
    · exact .answer hw hi _ _
  | sevt d =>
    simp only [exec, execSevt] at h
    obtain ⟨hc, rfl⟩ | ⟨_, rfl⟩ := onChannel_next h
    · split
      · exact .answer hw hi _ _
      · next e => exact .sevt hw hi hc e
    · exact .answer hw hi _ _
  | dly n =>
    simp only [exec, execDly] at h
    injection h with h
    subst h
    exact .dly hw hi
  | hrd sz a =>
    simp only [exec, execHrd] at h
    split at h <;> injection h with h <;> subst h
    · exact .hostFault hw _
    · exact .answer hw hi _ _
  | hwr sz a v =>
    simp only [exec, execHwr] at h
    split at h <;> injection h with h <;> subst h
    · exact .hostFault hw _
    · next ok => exact .store hw hi ok

/-- Everything a poll step can do. -/
theorem poll_effect {s : State} (hw : s.hw ≠ .none) : Effect s .host (pollStep s) := by
  unfold pollStep
  split
  · next e => exact absurd e hw
  · next c t0 e =>
    unfold startPoll
    split
    · next st => exact .startDone e st
    · next st => exact .startLate e (by simpa using st)
  · next c t0 e =>
    unfold stopPoll
    split
    · next ak => exact .stopDone e ak
    · next ak => exact .stopLate e (by simpa using ak)
  · next c t0 n e =>
    simp only [swaitPollStep]
    split
    · next st => exact .swaitTaken e (.inl st) _
    · next st =>
      split
      · next ak => exact .swaitTaken e (.inr ⟨st, ak⟩) _
      · next ak => exact .swaitReported e st (by simpa using ak) _
    all_goals next st => exact .swaitTimeout e (by simp [st]) (by simp [st])
  · next c t0 e =>
    simp only [swaitStopStep]
    split
    · next ak => exact .swaitStopped e ak
    · next ak => exact .swaitLate e (by simpa using ak)
  · next t0 n e => exact .dlyDone e

/-- Everything a step of an agent can do. -/
theorem perform_effect {s t : State} {m : Move} (h : perform m s = .next t) : Effect s m t := by
  cases m with
  | host =>
    simp only [perform, hostStep] at h
    split at h
    · next hw =>
      simp only [issueStep] at h
      split at h
      · next i hi => exact exec_effect hw hi h
      · next r hi =>
        injection h with h
        subst h
        unfold rejectStep
        split
        · next e => exact .malformed hw (e ▸ hi)
        · next e => exact .illegal hw hi e
    · next hw =>
      injection h with h
      subst h
      exact poll_effect hw
  | xfer c =>
    injection h with h
    subst h
    unfold xferStep
    split
    · next ram => exact .transfer ram
    · next ram => exact .busError (by simpa using ram)
  | ackOn c => injection h with h; subst h; exact .ackOn c
  | ackOff c => injection h with h; subst h; exact .ackOff c
  | err c k => injection h with h; subst h; exact .error c k
  | snap c => injection h with h; subst h; exact .snapshot c
  | dispatch => injection h with h; subst h; exact .dispatch
  | tick => injection h with h; subst h; exact .tick

end Sys2Proof.Machine
end

