-- ==== Sys2Proof/Laws/Memory.lean ====
section
/-! SUPPORT. The laws of memory: a read after a write, the frame of a write, the canonical form that every
write keeps, and that two canonical memories that read alike are equal. -/

namespace Sys2Proof.Machine.Memory

/-! ## Canonical form -/

theorem canonAbove_cons {lo : Option Nat} {a : Nat} {v : Byte} {m : Memory} :
    canonAbove lo ((a, v) :: m) = true ↔
      (∀ l, lo = some l → l < a) ∧ a < 2 ^ 32 ∧ v ≠ unlisted ∧ canonAbove (some a) m = true := by
  cases lo <;> simp [canonAbove, and_assoc]

/-- A bound below the first may take its place. -/
theorem canonAbove_weaken {lo hi : Option Nat} {m : Memory} (h : canonAbove hi m = true)
    (le : ∀ l, lo = some l → ∃ k, hi = some k ∧ l ≤ k) : canonAbove lo m = true := by
  cases m with
  | nil => simp [canonAbove]
  | cons e m =>
    obtain ⟨a, v⟩ := e
    rw [canonAbove_cons] at h ⊢
    refine ⟨fun l hl => ?_, h.2⟩
    obtain ⟨k, hk, hlk⟩ := le l hl
    exact Nat.lt_of_le_of_lt hlk (h.1 k hk)

/-- An address not above the bound of a canonical memory is unlisted. -/
theorem read_of_canonAbove {m : Memory} {l a : Nat} (h : canonAbove (some l) m = true) (le : a ≤ l) :
    read m a = unlisted := by
  induction m generalizing l with
  | nil => rfl
  | cons e m ih =>
    obtain ⟨b, w⟩ := e
    rw [canonAbove_cons] at h
    have lb := h.1 l rfl
    rw [read, if_neg (by omega)]
    exact ih h.2.2.2 (by omega)

theorem consByte_canon {lo : Option Nat} {a : Nat} {v : Byte} {m : Memory} (h : canonAbove (some a) m = true)
    (ha : a < 2 ^ 32) (hl : ∀ l, lo = some l → l < a) : canonAbove lo (consByte a v m) = true := by
  unfold consByte
  split
  · exact canonAbove_weaken h fun l e => ⟨a, rfl, (hl l e).le⟩
  · next hv => exact canonAbove_cons.2 ⟨hl, ha, hv, h⟩

theorem write_canonAbove {m : Memory} {lo : Option Nat} {a : Nat} {v : Byte} (h : canonAbove lo m = true)
    (ha : a < 2 ^ 32) (hl : ∀ l, lo = some l → l < a) : canonAbove lo (write m a v) = true := by
  induction m generalizing lo with
  | nil => exact consByte_canon (by simp [canonAbove]) ha hl
  | cons e m ih =>
    obtain ⟨b, w⟩ := e
    have h' := canonAbove_cons.1 h
    rw [write]
    split
    · next lt =>
      exact consByte_canon (canonAbove_cons.2 ⟨fun l e => by cases e; exact lt, h'.2⟩) ha hl
    · split
      · next e => subst e; exact consByte_canon h'.2.2.2 ha hl
      · exact canonAbove_cons.2 ⟨h'.1, h'.2.1, h'.2.2.1,
          ih h'.2.2.2 fun l e => by cases e; omega⟩

/-- A write of one byte keeps the canonical form. -/
theorem write_wf {m : Memory} {a : Nat} {v : Byte} (h : wf m = true) (ha : a < 2 ^ 32) :
    wf (write m a v) = true :=
  write_canonAbove h ha (by simp)

/-- A store of `n` bytes keeps the canonical form. -/
theorem writeLE_wf {m : Memory} {a n v : Nat} (h : wf m = true) (ha : a + n ≤ 2 ^ 32) :
    wf (writeLE m a n v) = true := by
  induction n generalizing m a v with
  | zero => exact h
  | succ n ih => exact ih (write_wf h (by omega)) (by omega)

/-- The memory of the reset state is canonical. -/
theorem reset_mem_wf : wf State.reset.mem = true := rfl

/-! ## Reads and writes of one byte -/

theorem read_consByte (a d : Nat) (v : Byte) (m : Memory) (h : read m a = unlisted) :
    read (consByte a v m) d = if d = a then v else read m d := by
  unfold consByte
  split
  · next e => subst e; split <;> simp_all
  · by_cases hd : d = a
    · simp [read, hd]
    · simp [read, hd, Ne.symm hd]

/-- The byte written is read back, every other byte is unchanged. -/
theorem read_write {m : Memory} {a : Nat} {v : Byte} (h : wf m = true) (d : Nat) :
    read (write m a v) d = if d = a then v else read m d := by
  suffices ∀ lo, canonAbove lo m = true → read (write m a v) d = if d = a then v else read m d from
    this none h
  clear h
  intro lo h
  induction m generalizing lo with
  | nil => exact read_consByte a d v [] rfl
  | cons e m ih =>
    obtain ⟨b, w⟩ := e
    have h' := canonAbove_cons.1 h
    rw [write]
    split
    · next lt =>
      refine read_consByte a d v _ (read_of_canonAbove (l := a) ?_ le_rfl)
      exact canonAbove_cons.2 ⟨fun l e => by cases e; exact lt, h'.2⟩
    · split
      · next e =>
        subst e
        rw [read_consByte a d v m (read_of_canonAbove h'.2.2.2 le_rfl)]
        by_cases hd : d = a
        · simp [hd]
        · simp [hd, read, Ne.symm hd]
      · next ne =>
        rw [read, read, ih _ h'.2.2.2]
        by_cases hb : b = d
        · subst hb; simp [Ne.symm ne]
        · simp [hb]

/-- A write leaves every other byte alone, whatever the memory. -/
theorem read_write_ne (m : Memory) {a d : Nat} (v : Byte) (hd : d ≠ a) : read (write m a v) d = read m d := by
  have cons : ∀ m' : Memory, read (consByte a v m') d = read m' d := fun m' => by
    unfold consByte
    split
    · rfl
    · simp [read, Ne.symm hd]
  induction m with
  | nil => exact cons []
  | cons e m ih =>
    obtain ⟨b, w⟩ := e
    rw [write]
    split
    · exact cons _
    · split
      · next e => subst e; rw [cons]; simp [read, Ne.symm hd]
      · rw [read, read, ih]

/-- Two canonical memories that read alike are equal. -/
theorem eq_of_read_eq {m m' : Memory} (h : wf m = true) (h' : wf m' = true)
    (e : ∀ a, read m a = read m' a) : m = m' := by
  suffices ∀ lo lo', canonAbove lo m = true → canonAbove lo' m' = true → m = m' from this none none h h'
  clear h h'
  induction m generalizing m' with
  | nil =>
    intro lo lo' _ h'
    cases m' with
    | nil => rfl
    | cons x l' =>
      obtain ⟨b, w⟩ := x
      have := e b
      simp [read] at this
      exact absurd this.symm (canonAbove_cons.1 h').2.2.1
  | cons x l ih =>
    obtain ⟨a, v⟩ := x
    intro lo lo' h h'
    have ha := canonAbove_cons.1 h
    cases m' with
    | nil =>
      have := e a
      simp [read] at this
      exact absurd this ha.2.2.1
    | cons y l' =>
      obtain ⟨b, w⟩ := y
      have hb := canonAbove_cons.1 h'
      have hab : a = b := by
        by_contra ne
        rcases Nat.lt_or_gt_of_ne ne with lt | lt
        · have := e a
          rw [read, if_pos rfl, read, if_neg (Ne.symm ne), read_of_canonAbove hb.2.2.2 (by omega)] at this
          exact ha.2.2.1 this
        · have := e b
          rw [read, if_neg ne, read_of_canonAbove ha.2.2.2 (by omega), read, if_pos rfl] at this
          exact hb.2.2.1 this.symm
      subst hab
      have hv : v = w := by simpa [read] using e a
      subst hv
      have tail : ∀ d, read l d = read l' d := fun d => by
        by_cases hd : a = d
        · subst hd
          rw [read_of_canonAbove ha.2.2.2 le_rfl, read_of_canonAbove hb.2.2.2 le_rfl]
        · simpa [read, hd] using e d
      rw [ih tail _ _ ha.2.2.2 hb.2.2.2]

/-! ## Little-endian accesses -/

/-- A store leaves every byte outside its own alone, whatever the memory. -/
theorem read_writeLE_outside (m : Memory) {a n d : Nat} (v : Nat) (h : d < a ∨ a + n ≤ d) :
    read (writeLE m a n v) d = read m d := by
  induction n generalizing m a v with
  | zero => rfl
  | succ n ih =>
    rw [writeLE, ih _ _ (by omega), read_write_ne _ _ (by omega)]

/-- Byte `k` of a store is byte `k` of the value (R37). -/
theorem read_writeLE_inside {m : Memory} (hm : wf m = true) {a n k : Nat} (v : Nat) (h : k < n)
    (ha : a + n ≤ 2 ^ 32) : read (writeLE m a n v) (a + k) = BitVec.ofNat 8 (v / 256 ^ k) := by
  induction n generalizing m a v k with
  | zero => omega
  | succ n ih =>
    rw [writeLE]
    cases k with
    | zero =>
      rw [Nat.add_zero, read_writeLE_outside _ _ (by omega), read_write hm]
      simp
    | succ k =>
      have := ih (write_wf (a := a) (v := BitVec.ofNat 8 v) hm (by omega)) (a := a + 1) (v / 256)
        (k := k) (by omega) (by omega)
      rw [show a + (k + 1) = a + 1 + k by omega, this, Nat.div_div_eq_div_mul, pow_succ']

/-- A read of `n` bytes is below `256 ^ n`. -/
theorem readLE_lt (m : Memory) (a n : Nat) : readLE m a n < 256 ^ n := by
  induction n generalizing a with
  | zero => simp [readLE]
  | succ n ih =>
    have := ih (a + 1)
    have h := (read m a).isLt
    rw [readLE, pow_succ']
    omega

/-- Byte `k` of a read is the byte at its address (R37). -/
theorem readLE_byte (m : Memory) {a n k : Nat} (h : k < n) :
    readLE m a n / 256 ^ k % 256 = (read m (a + k)).toNat := by
  induction n generalizing a k with
  | zero => omega
  | succ n ih =>
    have hb := (read m a).isLt
    rw [readLE]
    cases k with
    | zero =>
      simp only [pow_zero, Nat.div_one, Nat.add_zero]
      omega
    | succ k =>
      have hd : ((read m a).toNat + 256 * readLE m (a + 1) n) / 256 = readLE m (a + 1) n := by omega
      rw [pow_succ', ← Nat.div_div_eq_div_mul, hd, ih (by omega), show a + 1 + k = a + (k + 1) by omega]

/-- The read of bytes that two memories agree on. -/
theorem readLE_congr {m m' : Memory} {a n : Nat} (h : ∀ d, a ≤ d → d < a + n → read m d = read m' d) :
    readLE m a n = readLE m' a n := by
  induction n generalizing a with
  | zero => rfl
  | succ n ih =>
    rw [readLE, readLE, h a le_rfl (by omega), ih fun d h1 h2 => h d (by omega) (by omega)]

end Sys2Proof.Machine.Memory
end

