-- ==== Sys2Proof/Laws/Engine.lean ====
section
/-! SUPPORT. What the engine's steps can do: the element moved (R80, R39), and how an element transfer changes its
channel. -/

namespace Sys2Proof.Machine

/-- A draw changes only the answers still to come and the draw counter. -/
theorem drawWord_state (s : State) :
    s.drawWord.2 = { s with answers := s.drawWord.2.answers, draws := s.drawWord.2.draws } := by
  unfold State.drawWord
  split <;> rfl

/-- A peripheral read records its answer and changes only what a draw changes. -/
theorem periphRead_state (s : State) (c a n : Nat) :
    (s.periphRead c a n).2 =
      { s with
        answers := (s.periphRead c a n).2.answers, draws := (s.periphRead c a n).2.draws
        hist := s.hist ++ [.periphRead c a n (s.periphRead c a n).1] } := by
  unfold State.periphRead
  split
  · rfl
  · dsimp only
    rw [drawWord_state s]
    rfl

/-- A peripheral read's answer has the width of the access. -/
theorem periphRead_lt (s : State) (c a n : Nat) : (s.periphRead c a n).1 < 256 ^ n := by
  unfold State.periphRead
  split <;> exact Nat.mod_lt _ (by positivity)

/-- The writes waiting at an address after more history (R42). -/
theorem loopbackQueue_append (a : Nat) (h l : List HistEvent) (q : List (Nat × Nat)) :
    loopbackQueue a (h ++ l) q = loopbackQueue a l (loopbackQueue a h q) := by
  induction h generalizing q with
  | nil => rfl
  | cons e h ih => cases e <;> exact ih _

/-- A `LOOPBACK` read at a matching native width answers the oldest write waiting, of its width (R42). -/
theorem periphRead_loopback {s : State} {c a n x : Nat} {l : List (Nat × Nat)} (ho : s.params.oracle = .loopback)
    (hw : ∀ w, s.params.nativeWidth c a = some w → w = n) (hq : loopbackQueue a s.hist [] = (n, x) :: l) :
    s.periphRead c a n = (x % 256 ^ n, s.record (.periphRead c a n (x % 256 ^ n))) := by
  have hf : State.oracleAnswer.forced s a n = some x := by simp [State.oracleAnswer.forced, ho, hq]
  have : s.oracleAnswer c a n = some x := by
    unfold State.oracleAnswer
    split
    · next w e => rw [if_pos (hw w e), hf]
    · exact hf
  simp [State.periphRead, this]

/-- No value is forced by the unconstrained oracle, at a width that is not the native one, or where no write of the
width is the oldest waiting (R42; log 4). -/
theorem oracleAnswer_free {s : State} {c a n : Nat}
    (h : s.params.oracle = .unconstrained ∨ (∃ w, s.params.nativeWidth c a = some w ∧ w ≠ n) ∨
      ∀ x l, loopbackQueue a s.hist [] ≠ (n, x) :: l) : s.oracleAnswer c a n = none := by
  have hf : (∀ w, s.params.nativeWidth c a = some w → w = n) → State.oracleAnswer.forced s a n = none := by
    intro hn
    unfold State.oracleAnswer.forced
    split
    · rfl
    · next ho =>
      split
      · rfl
      · next w v l e =>
        refine if_neg fun hw => ?_
        obtain h | ⟨w', e', hw'⟩ | h := h
        · simp [ho] at h
        · exact hw' (hn _ e')
        · exact h v l (hw ▸ e)
  unfold State.oracleAnswer
  split
  · next w e =>
    split
    · next hw => exact hf fun w' e' => by simp_all
    · rfl
  · next e => exact hf fun w' e' => by simp [e] at e'

/-- A read for which no value is forced answers the next scripted word. -/
theorem periphRead_scripted {s : State} {c a n : Nat} {x : Word} {l : List Word} (h : s.oracleAnswer c a n = none)
    (ha : s.answers = x :: l) :
    s.periphRead c a n =
      (x.toNat % 256 ^ n,
        { s with answers := l, hist := s.hist ++ [.periphRead c a n (x.toNat % 256 ^ n)] }) := by
  simp [State.periphRead, h, State.drawWord, ha, State.record]

/-- An element from the peripheral: the value read is stored at the element's address. -/
theorem moveElement_in {s : State} {c : Nat} (h : (s.ch c).dir = 0#2) :
    moveElement c s =
      ((s.periphRead c ((s.ch c).paddr (s.ch c).index) (s.ch c).ub).1,
        { (s.periphRead c ((s.ch c).paddr (s.ch c).index) (s.ch c).ub).2 with
          mem := Memory.writeLE s.mem ((s.ch c).maddr (s.ch c).index) (s.ch c).ub
            (s.periphRead c ((s.ch c).paddr (s.ch c).index) (s.ch c).ub).1 }) := by
  simp only [moveElement, h, if_true]
  rw [periphRead_state]

/-- An element to the peripheral: the value at the element's address is written and memory stays. -/
theorem moveElement_out {s : State} {c : Nat} (h : (s.ch c).dir ≠ 0#2) :
    moveElement c s =
      (Memory.readLE s.mem ((s.ch c).maddr (s.ch c).index) (s.ch c).ub,
        s.record (.periphWrite c ((s.ch c).paddr (s.ch c).index) (s.ch c).ub
          (Memory.readLE s.mem ((s.ch c).maddr (s.ch c).index) (s.ch c).ub))) := by
  simp [moveElement, h, State.periphWrite]

/-- A move of an element changes only memory, the history and what a draw changes. -/
theorem moveElement_state (c : Nat) (s : State) :
    ∃ m e, (moveElement c s).2 =
        { s with
          mem := m, answers := (moveElement c s).2.answers, draws := (moveElement c s).2.draws
          hist := s.hist ++ [e] } ∧
      (m = s.mem ∨ m = Memory.writeLE s.mem ((s.ch c).maddr (s.ch c).index) (s.ch c).ub (moveElement c s).1) := by
  by_cases h : (s.ch c).dir = 0#2
  · rw [moveElement_in h]
    refine ⟨_, .periphRead c ((s.ch c).paddr (s.ch c).index) (s.ch c).ub
      (s.periphRead c ((s.ch c).paddr (s.ch c).index) (s.ch c).ub).1, ?_, .inr rfl⟩
    dsimp only
    rw [periphRead_state]
  · rw [moveElement_out h]
    exact ⟨_, _, rfl, .inl rfl⟩

/-- An element transfer: its channel advances, and nothing but memory, the history and what a draw changes is
written besides. -/
theorem transferStep_state (c : Nat) (s : State) :
    ∃ m, transferStep c s =
        { s with
          chs := s.chs.modify c Channel.advance, mem := m, answers := (transferStep c s).answers
          draws := (transferStep c s).draws, hist := (transferStep c s).hist } ∧
      s.hist <+: (transferStep c s).hist ∧
      (m = s.mem ∨ m = Memory.writeLE s.mem ((s.ch c).maddr (s.ch c).index) (s.ch c).ub (moveElement c s).1) := by
  obtain ⟨m, e, h, hm⟩ := moveElement_state c s
  refine ⟨m, ?_, ?_, hm⟩
  · simp only [transferStep]
    rw [h]
    rfl
  · simp only [transferStep]
    rw [h]
    simp only [State.modCh_hist, State.record_hist, List.append_assoc]
    exact List.prefix_append _ _

namespace Channel

/-- The count and the half-transfer point, field by field (R80). -/
theorem countElement_eq (ch : Channel) :
    ch.countElement =
      { ch with
        ndtr := ch.ndtr - 1
        flags := if ch.atHalf then ch.flags.raised .ht else ch.flags
        own1 := if ch.atHalf = true ∧ ch.scheme = .halves then .hw else ch.own1 } := by
  unfold countElement
  cases ch.atHalf <;> simp

/-- The full-transfer point, field by field (R80). -/
theorem endCycle_eq (ch : Channel) :
    ch.endCycle =
      { ch with
        flags := ch.flags.raised .tc
        ndtr := if ch.scheme = .oneshot then ch.ndtr else ch.reload
        enAck := if ch.scheme = .oneshot then false else ch.enAck
        enReq := if ch.scheme = .oneshot then false else ch.enReq
        cstate := if ch.scheme = .oneshot ∧ ch.cstate = .running then .completed else ch.cstate
        ct := if ch.scheme = .dual then !ch.ct else ch.ct
        own0 := if ch.scheme = .halves ∨ (ch.scheme = .dual ∧ ch.ct = true) then .hw else ch.own0
        own1 := if ch.scheme = .dual ∧ ch.ct = false then .hw else ch.own1 } := by
  unfold endCycle setOwn
  cases ch.scheme <;> cases ch.ct <;> simp

/-- The fields an element transfer does not write (R80). -/
theorem advance_fixed (ch : Channel) :
    ch.advance =
      { ch with
        ndtr := ch.advance.ndtr, flags := ch.advance.flags, enAck := ch.advance.enAck, enReq := ch.advance.enReq
        cstate := ch.advance.cstate, ct := ch.advance.ct, own0 := ch.advance.own0, own1 := ch.advance.own1 } := by
  rw [advance]
  split
  · rw [endCycle_eq, countElement_eq]
  · rw [countElement_eq]

/-- The scheme is fixed by CFG alone (R22). -/
theorem scheme_congr {d ch : Channel} (h1 : d.circ = ch.circ) (h2 : d.dbm = ch.dbm) : d.scheme = ch.scheme := by
  simp [scheme, h1, h2]

@[simp] theorem advance_scheme (ch : Channel) : ch.advance.scheme = ch.scheme := by
  rw [advance_fixed]
  rfl

@[simp] theorem advance_reload (ch : Channel) : ch.advance.reload = ch.reload := by
  rw [advance_fixed]

theorem scheme_oneshot {ch : Channel} : ch.scheme = .oneshot ↔ ch.circ = false := by
  unfold scheme
  split <;> [simp_all; (split <;> simp_all)]

theorem scheme_halves {ch : Channel} : ch.scheme = .halves ↔ ch.circ = true ∧ ch.dbm = false := by
  unfold scheme
  split <;> [simp_all; (split <;> simp_all)]

theorem scheme_dual {ch : Channel} : ch.scheme = .dual ↔ ch.circ = true ∧ ch.dbm = true := by
  unfold scheme
  split <;> [simp_all; (split <;> simp_all)]

/-- The last element of a cycle is the one at count 1 (R80). -/
theorem atFull_eq {ch : Channel} : ch.atFull = true ↔ ch.ndtr = 1 := by
  unfold atFull
  constructor
  · intro h
    have h : ch.ndtr - 1 = 0 := by simpa using h
    have := congrArg (· + (1 : BitVec 16)) h
    simpa using this
  · intro h
    simp [h]

theorem atHalf_eq {ch : Channel} : ch.atHalf = true ↔ 2 ≤ ch.count ∧ ch.index + 1 = ch.count / 2 := by
  simp [atHalf]

theorem countElement_scheme (ch : Channel) : ch.countElement.scheme = ch.scheme := by
  rw [countElement_eq]
  rfl

/-- An element that is not the last of its cycle (R80). -/
theorem advance_mid {ch : Channel} (h : ch.ndtr ≠ 1) : ch.advance = ch.countElement := by
  have : ch.atFull = false := by
    rw [Bool.eq_false_iff]
    exact fun e => h (atFull_eq.1 e)
  simp [advance, this]

/-- The last element of a cycle (R80). -/
theorem advance_last {ch : Channel} (h : ch.ndtr = 1) : ch.advance = ch.countElement.endCycle := by
  simp [advance, atFull_eq.2 h]

/-- The count after an element transfer (R80): the full count where a circular channel wraps, else one less. -/
theorem advance_ndtr {ch : Channel} (h : 1 ≤ ch.ndtr.toNat) :
    ch.advance.ndtr.toNat =
      if ch.ndtr.toNat = 1 ∧ ch.scheme ≠ .oneshot then ch.reload.toNat else ch.ndtr.toNat - 1 := by
  have hs : (ch.ndtr - 1).toNat = ch.ndtr.toNat - 1 := by
    have := ch.ndtr.isLt
    simp
    omega
  by_cases h1 : ch.ndtr = 1
  · have e : ch.ndtr.toNat = 1 := by rw [h1]; rfl
    rw [advance_last h1, endCycle_eq]
    simp only [countElement_scheme]
    rw [countElement_eq]
    by_cases h2 : ch.scheme = .oneshot <;> simp [h2, e]
  · have e : ch.ndtr.toNat ≠ 1 := fun e => h1 (BitVec.eq_of_toNat_eq e)
    rw [if_neg fun h => e h.1, advance_mid h1, countElement_eq]
    exact hs

/-- The current target after an element transfer (R80, R82): it changes where a DUAL channel wraps. -/
theorem advance_ct (ch : Channel) :
    ch.advance.ct = if ch.ndtr.toNat = 1 ∧ ch.scheme = .dual then !ch.ct else ch.ct := by
  by_cases h1 : ch.ndtr = 1
  · have e : ch.ndtr.toNat = 1 := by rw [h1]; rfl
    rw [advance_last h1, endCycle_eq]
    simp only [countElement_scheme]
    rw [countElement_eq]
    by_cases h2 : ch.scheme = .dual <;> simp [h2, e]
  · have e : ch.ndtr.toNat ≠ 1 := fun e => h1 (BitVec.eq_of_toNat_eq e)
    rw [if_neg fun h => e h.1, advance_mid h1, countElement_eq]

/-- The current slot, by scheme, over the fields it depends on (R24). -/
theorem curSlot_eq (ch : Channel) :
    ch.curSlot =
      match ch.scheme with
      | .oneshot => false
      | .halves => decide (ch.reload.toNat / 2 ≤ ch.reload.toNat - ch.ndtr.toNat)
      | .dual => ch.ct := by
  unfold curSlot
  cases ch.scheme <;> simp [index, count]
  by_cases h : ch.reload.toNat - ch.ndtr.toNat < ch.reload.toNat / 2 <;> simp [h]
  omega

end Channel

end Sys2Proof.Machine
end

