-- ==== Sys2Proof/Laws/HostAccess.lean ====
section
/-! SUPPORT. What the check of a host access answers, by the access alone (R113, R114). -/

namespace Sys2Proof.Machine

open Sys2Proof.Safety

/-- The slots of a machine are the two slots of each of its channels. -/
theorem mem_slots {s : State} {c : Nat} {sl : Slot} {ch : Channel} :
    (c, sl, ch) ∈ slotsFrom s.chs 0 ↔ c < s.numChannels ∧ ch = s.ch c := by
  rw [mem_slotsFrom]
  constructor
  · rintro ⟨k, hk, h1, h2⟩
    have hck : c = k := by simpa using h1
    subst hck
    exact ⟨hk, by simpa [State.ch, hk] using h2⟩
  · rintro ⟨hc, rfl⟩
    have hc' : c < s.chs.length := hc
    exact ⟨c, hc', by simp, by simp [State.ch, hc']⟩

/-- The slot found is touched and hardware-owned. -/
theorem hwTouch_some {s : State} {a n c : Nat} {sl : Slot} (h : s.hwTouch a n = some (c, sl)) :
    TouchesSlot s a n c sl := by
  simp only [State.hwTouch, Option.map_eq_some_iff] at h
  obtain ⟨⟨c', sl', ch⟩, hf, he⟩ := h
  simp only [Prod.mk.injEq] at he
  obtain ⟨rfl, rfl⟩ := he
  obtain ⟨hc, rfl⟩ := mem_slots.1 (List.mem_of_find?_eq_some hf)
  have hp := List.find?_some hf
  simp only [Bool.and_eq_true, beq_iff_eq] at hp
  exact ⟨hc, hp.1, meets_eq_true.1 hp.2⟩

/-- No slot is found only where none is touched. -/
theorem hwTouch_none {s : State} {a n : Nat} : s.hwTouch a n = none ↔ ¬ TouchesHwSlot s a n := by
  constructor
  · rintro h ⟨c, sl, hc, ho, hb⟩
    simp only [State.hwTouch, Option.map_eq_none_iff, List.find?_eq_none] at h
    refine h (c, sl, s.ch c) (mem_slots.2 ⟨hc, rfl⟩) ?_
    simp only [Bool.and_eq_true, beq_iff_eq]
    exact ⟨ho, meets_eq_true.2 hb⟩
  · intro h
    cases e : s.hwTouch a n with
    | none => rfl
    | some x => exact absurd ⟨x.1, x.2, hwTouch_some e⟩ h

/-- The access passes its checks exactly when it is aligned, in RAM and off every hardware-owned slot. -/
theorem haccCheck_none {s : State} {a n : Nat} :
    s.haccCheck a n = none ↔
      a % n = 0 ∧ (∀ k, k < n → s.params.isRam (a + k) = true) ∧ ¬ TouchesHwSlot s a n := by
  rw [← allRam_eq_true, ← hwTouch_none, State.haccCheck]
  by_cases h1 : a % n = 0 <;> cases h2 : allRam s.params a n <;> simp [h1]
  cases s.hwTouch a n <;> simp

/-- The first failing check gives the fault. -/
theorem haccCheck_some {s : State} {a n : Nat} :
    (a % n ≠ 0 → s.haccCheck a n = some (.hostMisaligned s.cp a n)) ∧
      (a % n = 0 → ¬ (∀ k, k < n → s.params.isRam (a + k) = true) →
        s.haccCheck a n = some (.hostNotRam s.cp a n)) ∧
      (a % n = 0 → (∀ k, k < n → s.params.isRam (a + k) = true) → TouchesHwSlot s a n →
        ∃ c sl, TouchesSlot s a n c sl ∧ s.haccCheck a n = some (.ownershipViolation s.cp a n c sl)) := by
  rw [← allRam_eq_true, State.haccCheck]
  refine ⟨fun h => by simp [h], fun h h2 => by simp [h, Bool.not_eq_true _ ▸ h2], fun h h2 h3 => ?_⟩
  cases e : s.hwTouch a n with
  | none => exact absurd h3 (hwTouch_none.1 e)
  | some x => exact ⟨x.1, x.2, hwTouch_some e, by simp [h, h2]⟩

end Sys2Proof.Machine
end

