-- ==== Sys2Proof/Laws/Notifier.lean ====
section
/-! SUPPORT. What a dispatch can do (R92 to R96): an inversion for its class loop, what
its classes leave while the queue has room, and the ownership effect. -/

namespace Sys2Proof.Machine

/-- The ownership effect only gives slots to the application (R93). -/
theorem ownEffect_state (k : Cls) (ch : Channel) :
    ∃ o0 o1, ch.ownEffect k = { ch with own0 := o0, own1 := o1 } ∧ (o0 = ch.own0 ∨ o0 = .app) ∧
      (o1 = ch.own1 ∨ o1 = .app) := by
  unfold Channel.ownEffect Channel.setOwn
  split
  · exact ⟨_, _, rfl, .inr rfl, .inr rfl⟩
  · split
    · split
      · exact ⟨_, _, rfl, .inl rfl, .inr rfl⟩
      · exact ⟨_, _, rfl, .inr rfl, .inl rfl⟩
    · exact ⟨_, _, rfl, .inl rfl, .inl rfl⟩

/-- The event of a class depends on the scheme, the target and the counters alone (R94). -/
theorem eventOf_congr {d ch : Channel} (k : Cls) (h1 : d.circ = ch.circ) (h2 : d.dbm = ch.dbm) (h3 : d.ct = ch.ct)
    (h4 : d.ndtr = ch.ndtr) (h5 : d.reload = ch.reload) : d.eventOf k = ch.eventOf k := by
  have hs := Channel.scheme_congr h1 h2
  have hc : d.curSlot = ch.curSlot := by rw [Channel.curSlot_eq, Channel.curSlot_eq, hs, h3, h4, h5]
  simp only [Channel.eventOf, Channel.eventSlot, hs, hc, h3]

/-- What a dispatch leaves: one channel's owners and queue, the phase, the faults and the history. -/
structure Dispatched (c : Nat) (s t : State) : Prop where
  rest   : t = { s with chs := t.chs, ntf := t.ntf, faults := t.faults, hist := t.hist }
  count  : t.numChannels = s.numChannels
  other  : ∀ d, d ≠ c → t.ch d = s.ch d
  own    : ∃ o0 o1 q, t.ch c = { s.ch c with own0 := o0, own1 := o1, evq := (s.ch c).evq ++ q } ∧
    (o0 = (s.ch c).own0 ∨ o0 = .app) ∧ (o1 = (s.ch c).own1 ∨ o1 = .app)
  queue  : (s.ch c).evq.length ≤ s.params.evqDepth → (t.ch c).evq.length ≤ s.params.evqDepth
  phase  : t.ntf = s.ntf ∨ t.ntf = .idle
  faults : s.faults <+: t.faults
  hist   : s.hist <+: t.hist

theorem Dispatched.trans {c : Nat} {s t u : State} (h : Dispatched c s t) (h' : Dispatched c t u) :
    Dispatched c s u where
  rest := by rw [h'.rest, h.rest]
  count := h'.count.trans h.count
  other d hd := (h'.other d hd).trans (h.other d hd)
  own := by
    obtain ⟨a, b, q, e, ha, hb⟩ := h.own
    obtain ⟨a', b', q', e', ha', hb'⟩ := h'.own
    rw [e] at e' ha' hb'
    refine ⟨a', b', q ++ q', by rw [e']; simp, ?_, ?_⟩
    · rcases ha' with rfl | rfl
      · exact ha
      · exact .inr rfl
    · rcases hb' with rfl | rfl
      · exact hb
      · exact .inr rfl
  queue hq := by
    have hp : t.params = s.params := by rw [h.rest]
    exact hp ▸ h'.queue (hp ▸ h.queue hq)
  phase := by
    rcases h'.phase with e | e
    · rw [e]
      exact h.phase
    · exact .inr e
  faults := h.faults.trans h'.faults
  hist := h.hist.trans h'.hist

theorem Dispatched.refl (c : Nat) (s : State) : Dispatched c s s :=
  ⟨rfl, rfl, fun _ _ => rfl, ⟨_, _, [], by simp, .inl rfl, .inl rfl⟩, id, .inl rfl, List.prefix_rfl,
    List.prefix_rfl⟩

/-- A number that is no channel reads as the reset channel, whatever is written to it. -/
theorem modCh_ch_ge {s : State} {c : Nat} {f : Channel → Channel} (h : s.numChannels ≤ c) (d : Nat) :
    (s.modCh c f).ch d = s.ch d := by
  have : s.chs.modify c f = s.chs := List.modify_eq_self h
  exact State.ch_congr this d

theorem dispatched_own (c : Nat) (k : Cls) (s : State) : Dispatched c s (s.modCh c (Channel.ownEffect k)) where
  rest := rfl
  count := by simp
  other d hd := by simp [hd]
  own := by
    by_cases h : c < s.numChannels
    · obtain ⟨o0, o1, e, h0, h1⟩ := ownEffect_state k (s.ch c)
      exact ⟨o0, o1, [], by simp [h, e], h0, h1⟩
    · exact ⟨_, _, [], by simp [modCh_ch_ge (Nat.not_lt.1 h)], .inl rfl, .inl rfl⟩
  queue hq := by
    by_cases h : c < s.numChannels
    · obtain ⟨o0, o1, e, -, -⟩ := ownEffect_state k (s.ch c)
      simpa [h, e] using hq
    · simpa [modCh_ch_ge (Nat.not_lt.1 h)] using hq
  phase := .inl rfl
  faults := List.prefix_rfl
  hist := List.prefix_rfl

theorem dispatched_deliver {c : Nat} {s : State} (k : Cls) (hf : s.queueFull c = false) :
    Dispatched c s (deliver c k s) where
  rest := rfl
  count := by simp [deliver]
  other d hd := by simp [deliver, hd]
  own := by
    by_cases h : c < s.numChannels
    · exact ⟨_, _, [(s.ch c).eventOf k], by simp [deliver, h], .inl rfl, .inl rfl⟩
    · exact ⟨_, _, [], by simp [deliver, modCh_ch_ge (Nat.not_lt.1 h)], .inl rfl, .inl rfl⟩
  queue hq := by
    have hne : (s.ch c).evq.length ≠ s.params.evqDepth := by simpa [State.queueFull] using hf
    by_cases h : c < s.numChannels
    · simp [deliver, h]
      omega
    · simpa [deliver, modCh_ch_ge (Nat.not_lt.1 h)] using hq
  phase := .inl rfl
  faults := List.prefix_rfl
  hist := by simp [deliver]

/-- Everything the class loop of a dispatch can do. -/
theorem dispatchClasses_dispatched (c : Nat) (m : Flags) (ks : List Cls) (s : State) :
    Dispatched c s (dispatchClasses c m ks s) := by
  induction ks generalizing s with
  | nil =>
    exact ⟨rfl, rfl, fun _ _ => rfl, ⟨_, _, [], by simp [dispatchClasses], .inl rfl, .inl rfl⟩,
      by simp [dispatchClasses], .inr rfl, by simp [dispatchClasses], by simp [dispatchClasses]⟩
  | cons k ks ih =>
    rw [dispatchClasses]
    dsimp only
    split
    · split
      · split
        · refine (dispatched_own c k s).trans ?_
          exact ⟨rfl, rfl, fun _ _ => rfl, ⟨_, _, [], by simp, .inl rfl, .inl rfl⟩,
            by simp, .inl rfl, by simp, by simp⟩
        · next hf => exact (dispatched_own c k s).trans ((dispatched_deliver k (by simpa using hf)).trans (ih _))
      · exact (dispatched_own c k s).trans (ih _)
    · exact ih s

/-- The ownership effect neither reads nor writes the flags and the queue (R93). -/
theorem ownEffect_congr (k : Cls) (ch : Channel) (f : Flags) (q : List EventRec) :
    ({ ch with flags := f, evq := q } : Channel).ownEffect k = { ch.ownEffect k with flags := f, evq := q } := by
  have h := Channel.curSlot_eq ch
  have h' := Channel.curSlot_eq { ch with flags := f, evq := q }
  have e : ({ ch with flags := f, evq := q } : Channel).curSlot = ch.curSlot := by rw [h, h']; rfl
  unfold Channel.ownEffect Channel.setOwn
  rw [e]
  have hs : ({ ch with flags := f, evq := q } : Channel).scheme = ch.scheme := rfl
  rw [hs]
  dsimp only
  repeat' split
  all_goals rfl

/-- The owners after the classes `ks` of a snapshot `m`, in their order (R92, R93). -/
def Channel.handed (m : Flags) (ks : List Cls) (ch : Channel) : Channel :=
  (ks.filter m.get).foldl (fun d k => d.ownEffect k) ch

/-- A handoff writes the owners alone. -/
theorem handed_state (m : Flags) (ks : List Cls) (ch : Channel) :
    ∃ o0 o1, ch.handed m ks = { ch with own0 := o0, own1 := o1 } := by
  unfold Channel.handed
  induction ks.filter m.get generalizing ch with
  | nil => exact ⟨_, _, rfl⟩
  | cons k ks ih =>
    obtain ⟨o0, o1, e, -, -⟩ := ownEffect_state k ch
    obtain ⟨p0, p1, e'⟩ := ih (ch.ownEffect k)
    exact ⟨p0, p1, by rw [List.foldl_cons, e', e]⟩

/-- A handoff neither reads nor writes the flags and the queue. -/
theorem handed_congr (m : Flags) (ks : List Cls) (ch : Channel) (f : Flags) (q : List EventRec) :
    ({ ch with flags := f, evq := q } : Channel).handed m ks = { ch.handed m ks with flags := f, evq := q } := by
  unfold Channel.handed
  induction ks.filter m.get generalizing ch with
  | nil => rfl
  | cons k ks ih => rw [List.foldl_cons, List.foldl_cons, ownEffect_congr, ih]

/-- The classes of a dispatch that are delivered: in the snapshot, with their enable set (R92). -/
def Channel.due (m : Flags) (ks : List Cls) (ch : Channel) : List Cls := (ks.filter m.get).filter ch.ie.get

/-- A channel after the classes `ks` of a snapshot, with room in its queue for their events (R92 to R94). -/
def Channel.served (m : Flags) (ks : List Cls) (ch : Channel) : Channel :=
  { ch.handed m ks with evq := ch.evq ++ (ch.due m ks).map fun k => ch.eventOf k }

/-- Serving classes writes the owners and appends to the queue. -/
theorem served_state (m : Flags) (ks : List Cls) (ch : Channel) :
    ∃ o0 o1 q, ch.served m ks = { ch with own0 := o0, own1 := o1, evq := ch.evq ++ q } := by
  obtain ⟨o0, o1, e⟩ := handed_state m ks ch
  exact ⟨o0, o1, _, by rw [Channel.served, e]⟩

@[simp] theorem served_ie (m : Flags) (ks : List Cls) (ch : Channel) : (ch.served m ks).ie = ch.ie := by
  obtain ⟨o0, o1, q, e⟩ := served_state m ks ch
  rw [e]

@[simp] theorem served_eventOf (m : Flags) (ks : List Cls) (k : Cls) (ch : Channel) :
    (ch.served m ks).eventOf k = ch.eventOf k := by
  obtain ⟨o0, o1, q, e⟩ := served_state m ks ch
  rw [e]
  exact eventOf_congr k rfl rfl rfl rfl rfl

@[simp] theorem served_due (m : Flags) (ks ls : List Cls) (ch : Channel) :
    (ch.served m ls).due m ks = ch.due m ks := by
  simp [Channel.due]

theorem due_cons (m : Flags) (k : Cls) (ks : List Cls) (ch : Channel) :
    ch.due m (k :: ks) = ch.due m [k] ++ ch.due m ks := by
  rw [Channel.due, ← List.singleton_append, List.filter_append, List.filter_append]
  rfl

theorem served_cons (m : Flags) (k : Cls) (ks : List Cls) (ch : Channel) :
    (ch.served m [k]).served m ks = ch.served m (k :: ks) := by
  have h : (ch.served m [k]).handed m ks =
      { ch.handed m (k :: ks) with evq := (ch.served m [k]).evq } := by
    have := handed_congr m ks (ch.handed m [k]) (ch.handed m [k]).flags (ch.served m [k]).evq
    have e : ch.served m [k] =
      { ch.handed m [k] with flags := (ch.handed m [k]).flags, evq := (ch.served m [k]).evq } := rfl
    rw [← e] at this
    rw [this]
    have : ch.handed m (k :: ks) = (ch.handed m [k]).handed m ks := by
      unfold Channel.handed
      rw [← List.foldl_append, ← List.filter_append]
      rfl
    rw [this]
    obtain ⟨o0, o1, e'⟩ := handed_state m ks (ch.handed m [k])
    rw [e']
  rw [Channel.served, h, served_due]
  simp only [served_eventOf]
  simp only [Channel.served, due_cons m k ks, List.map_append, List.append_assoc]

/-- One class of a dispatch, with room for its event. -/
theorem dispatchClasses_one {c : Nat} {m : Flags} {s : State} (hc : c < s.numChannels) (k : Cls) (ls : List Cls)
    (hq : (s.ch c).evq.length + ((s.ch c).due m [k]).length ≤ s.params.evqDepth) :
    dispatchClasses c m (k :: ls) s =
      dispatchClasses c m ls
        { s.modCh c (Channel.served m [k]) with
          hist := s.hist ++ ((s.ch c).due m [k]).map fun k => .event c ((s.ch c).eventOf k) } := by
  obtain ⟨o0, o1, e, -, -⟩ := ownEffect_state k (s.ch c)
  have e1 : (s.modCh c (Channel.ownEffect k)).ch c = (s.ch c).ownEffect k := by simp [hc]
  have hie : ((s.ch c).ownEffect k).ie = (s.ch c).ie := by rw [e]
  have hev : ((s.ch c).ownEffect k).evq = (s.ch c).evq := by rw [e]
  have heo : ((s.ch c).ownEffect k).eventOf k = (s.ch c).eventOf k := by
    rw [e]
    exact eventOf_congr k rfl rfl rfl rfl rfl
  rw [dispatchClasses]
  simp only [e1, hie]
  by_cases hk : m.get k = true
  · by_cases hi : (s.ch c).ie.get k = true
    · have hf : (s.modCh c (Channel.ownEffect k)).queueFull c = false := by
        simp [Channel.due, hk, hi] at hq
        simp [State.queueFull, hc, hev]
        omega
      rw [if_pos hk, if_pos hi, hf, if_neg (by simp)]
      congr 1
      simp only [deliver, e1, heo, State.modCh_modCh, State.record, Channel.due, hk, hi, List.filter_cons_of_pos,
        List.filter_nil, List.map_cons, List.map_nil]
      have : s.modCh c ((fun ch => { ch with evq := ch.evq ++ [(s.ch c).eventOf k] }) ∘ Channel.ownEffect k) =
          s.modCh c (Channel.served m [k]) :=
        State.modCh_congr (by simp [Channel.served, Channel.handed, Channel.due, hk, hi, hev])
      rw [this]
      rfl
    · rw [if_pos hk, if_neg hi]
      have : s.modCh c (Channel.ownEffect k) = s.modCh c (Channel.served m [k]) :=
        State.modCh_congr (by simp [Channel.served, Channel.handed, Channel.due, hk, hi]; rw [e])
      rw [this]
      simp [Channel.due, hk, hi, State.modCh]
  · rw [if_neg hk]
    have : s.modCh c (Channel.served m [k]) = s.modCh c id :=
      State.modCh_congr (by simp [Channel.served, Channel.handed, Channel.due, hk])
    rw [this]
    simp [Channel.due, hk, State.modCh]

/-- With room in the queue, the classes `ks` of a dispatch are served and the dispatch goes on with the next. -/
theorem dispatchClasses_room {c : Nat} {m : Flags} {s : State} (hc : c < s.numChannels) (ks ls : List Cls)
    (hq : (s.ch c).evq.length + ((s.ch c).due m ks).length ≤ s.params.evqDepth) :
    dispatchClasses c m (ks ++ ls) s =
      dispatchClasses c m ls
        { s.modCh c (Channel.served m ks) with
          hist := s.hist ++ ((s.ch c).due m ks).map fun k => .event c ((s.ch c).eventOf k) } := by
  induction ks generalizing s with
  | nil =>
    have : s.modCh c (Channel.served m []) = s.modCh c id :=
      State.modCh_congr (by simp [Channel.served, Channel.handed, Channel.due])
    rw [this]
    simp [Channel.due, State.modCh]
  | cons k ks ih =>
    rw [due_cons, List.length_append] at hq
    rw [List.cons_append, dispatchClasses_one hc k (ks ++ ls) (by omega)]
    have hch : (({ s.modCh c (Channel.served m [k]) with
        hist := s.hist ++ ((s.ch c).due m [k]).map fun k => .event c ((s.ch c).eventOf k) } : State).ch c) =
        (s.ch c).served m [k] := by
      show (s.modCh c (Channel.served m [k])).ch c = _
      simp [hc]
    have hl : ((s.ch c).served m [k]).evq.length = (s.ch c).evq.length + ((s.ch c).due m [k]).length := by
      simp [Channel.served]
    have hc' : c < (s.modCh c (Channel.served m [k])).numChannels := by simpa using hc
    refine (ih (s := { s.modCh c (Channel.served m [k]) with
      hist := s.hist ++ ((s.ch c).due m [k]).map fun k => .event c ((s.ch c).eventOf k) }) hc'
      (by rw [hch, served_due, hl]; simpa [Nat.add_assoc] using hq)).trans ?_
    rw [hch]
    congr 1
    simp only [served_due, served_eventOf]
    have : (s.modCh c (Channel.served m [k])).modCh c (Channel.served m ks) =
        s.modCh c (Channel.served m (k :: ks)) := by
      rw [State.modCh_modCh]
      exact State.modCh_congr (served_cons m k ks _)
    have hm := congrArg State.chs this
    simp only [State.modCh] at hm ⊢
    rw [hm, due_cons m k ks]
    simp

/-- A class whose event finds the queue full: its ownership effect stands and the dispatch stops with the fault
(R94, R121). -/
theorem dispatchClasses_full {c : Nat} {m : Flags} {s : State} (hc : c < s.numChannels) {k : Cls} (ls : List Cls)
    (hk : m.get k = true) (hi : (s.ch c).ie.get k = true) (hq : (s.ch c).evq.length = s.params.evqDepth) :
    dispatchClasses c m (k :: ls) s =
      (s.modCh c (Channel.ownEffect k)).raise (.evqOverflow c ((s.ch c).eventOf k)) := by
  obtain ⟨o0, o1, e, -, -⟩ := ownEffect_state k (s.ch c)
  have e1 : (s.modCh c (Channel.ownEffect k)).ch c = { s.ch c with own0 := o0, own1 := o1 } := by simp [hc, e]
  rw [dispatchClasses, if_pos hk]
  dsimp only
  rw [if_pos (by rw [e1]; exact hi), if_pos (by simp [State.queueFull, e1, hq]), e1]
  congr 2

end Sys2Proof.Machine
end

