-- ==== Sys2Proof/Laws/PerInstr.lean ====
section
/-! SUPPORT. Statements for every command, one lemma per constructor: the length of its encoding, and its opcode. -/

namespace Sys2Proof.Laws

namespace EncodeLength

/-- The encoding has as many words as the command (R51). -/
def Statement (i : Instr) : Prop := (encode i).length = i.length

theorem cfg (c : BitVec 4) (h : CfgHead) (par : Word) (m0ar : Word) (m1ar : Word) (ndt : Word) : Statement (.cfg c h par m0ar m1ar ndt) := rfl
theorem start (c : BitVec 4) : Statement (.start c) := rfl
theorem stop (c : BitVec 4) : Statement (.stop c) := rfl
theorem rdstat (c : BitVec 4) : Statement (.rdstat c) := rfl
theorem clrf (c : BitVec 4) (mask : BitVec 5) : Statement (.clrf c mask) := rfl
theorem rdcnt (c : BitVec 4) : Statement (.rdcnt c) := rfl
theorem rdcr (c : BitVec 4) : Statement (.rdcr c) := rfl
theorem swait (c : BitVec 4) (t : Word) : Statement (.swait c t) := rfl
theorem sack (c : BitVec 4) : Statement (.sack c) := rfl
theorem sevt (c : BitVec 4) : Statement (.sevt c) := rfl
theorem dly (n : Word) : Statement (.dly n) := rfl
theorem hrd (sz : BitVec 2) (a : Word) : Statement (.hrd sz a) := rfl
theorem hwr (sz : BitVec 2) (a : Word) (v : Word) : Statement (.hwr sz a v) := rfl

end EncodeLength

namespace EncodedOpcode

/-- The head word carries an opcode of R51 whose length is the command's, and the decoder finds that opcode. -/
def Statement (i : Instr) : Prop :=
  ∃ o w ops, encode i = w :: ops ∧ Op.ofCode (opField w) = some o ∧ o.len = i.length

theorem of_head {i : Instr} {o : Op} {c : BitVec 4} {low : Word} {ops : List Word}
    (e : encode i = headOf o c low :: ops) (hl : ∀ k, 22 ≤ k → low.getLsbD k = false) (n : o.len = i.length) :
    Statement i :=
  ⟨o, _, ops, e, Op.ofCode_eq_some.2 (opField_headOf o c low hl).symm, n⟩

theorem cfg (c : BitVec 4) (h : CfgHead) (par : Word) (m0ar : Word) (m1ar : Word) (ndt : Word) : Statement (.cfg c h par m0ar m1ar ndt) :=
  of_head (o := .cfg) rfl (cfgBits_low h) rfl
theorem start (c : BitVec 4) : Statement (.start c) :=
  of_head (o := .start) rfl zero_low rfl
theorem stop (c : BitVec 4) : Statement (.stop c) :=
  of_head (o := .stop) rfl zero_low rfl
theorem rdstat (c : BitVec 4) : Statement (.rdstat c) :=
  of_head (o := .rdstat) rfl zero_low rfl
theorem clrf (c : BitVec 4) (mask : BitVec 5) : Statement (.clrf c mask) :=
  of_head (o := .clrf) rfl (place_low (by decide) mask) rfl
theorem rdcnt (c : BitVec 4) : Statement (.rdcnt c) :=
  of_head (o := .rdcnt) rfl zero_low rfl
theorem rdcr (c : BitVec 4) : Statement (.rdcr c) :=
  of_head (o := .rdcr) rfl zero_low rfl
theorem swait (c : BitVec 4) (t : Word) : Statement (.swait c t) :=
  of_head (o := .swait) rfl zero_low rfl
theorem sack (c : BitVec 4) : Statement (.sack c) :=
  of_head (o := .sack) rfl zero_low rfl
theorem sevt (c : BitVec 4) : Statement (.sevt c) :=
  of_head (o := .sevt) rfl zero_low rfl
theorem dly (n : Word) : Statement (.dly n) :=
  of_head (o := .dly) rfl zero_low rfl
theorem hrd (sz : BitVec 2) (a : Word) : Statement (.hrd sz a) :=
  of_head (o := .hrd) rfl (place_low (by decide) sz) rfl
theorem hwr (sz : BitVec 2) (a : Word) (v : Word) : Statement (.hwr sz a v) :=
  of_head (o := .hwr) rfl (place_low (by decide) sz) rfl

end EncodedOpcode

end Sys2Proof.Laws
end

