-- ==== Sys2Proof/Laws/Words.lean ====
section
/-! SUPPORT. The bits of the words computed from state: the status word (R61) and the control word (R62, R14). -/

namespace Sys2Proof

/-- The bits of five flags placed at bit 0. -/
theorem getLsbD_placeFlags (f : Flags) (i : Nat) :
    (placeFlags 0 f).getLsbD i =
      ((decide (i = 0) && f.tc) || (decide (i = 1) && f.ht) || (decide (i = 2) && f.te) ||
        (decide (i = 3) && f.fe) || (decide (i = 4) && f.dme)) := by
  simp only [placeFlags, BitVec.getLsbD_or, getLsbD_placeBit]
  by_cases h : i < 32
  · simp [h]
  · simp [h, show i ≠ 0 by omega, show i ≠ 1 by omega, show i ≠ 2 by omega, show i ≠ 3 by omega,
      show i ≠ 4 by omega]

namespace Machine

/-- The bits of the control word, by field. -/
theorem getLsbD_crWord (ch : Channel) (i : Nat) :
    (crWord ch).getLsbD i =
      ((decide (i = 0) && decide (i < 32) && ch.enAck) || (cfgBits ch.head).getLsbD i ||
        (decide (i = 16) && decide (i < 32) && ch.ct) || (decide (i = 17) && decide (i < 32) && ch.enReq)) := by
  simp only [crWord, BitVec.getLsbD_or, getLsbD_placeBit]

/-- The bits of the status word, by field. -/
theorem getLsbD_statusWord (k : Bool) (ch : Channel) (i : Nat) :
    (statusWord k ch).getLsbD i =
      ((placeFlags 0 ch.flags).getLsbD i ||
        (decide (8 ≤ i) && decide (i < 32) && ch.cstate.code.getLsbD (i - 8)) ||
        (decide (i = 12) && decide (i < 32) && ch.own0.bit) ||
        (decide (i = 13) && decide (i < 32) && ch.own1.bit) ||
        (decide (16 ≤ i) && decide (i < 32) && ch.perr.code.getLsbD (i - 16)) ||
        (decide (20 ≤ i) && decide (i < 32) && (BitVec.ofNat 8 ch.evq.length).getLsbD (i - 20)) ||
        (decide (i = 31) && decide (i < 32) && k)) := by
  simp only [statusWord, BitVec.getLsbD_or, getLsbD_placeBit, getLsbD_place]

end Machine

end Sys2Proof
end

