-- ==== Sys2Proof/Machine/Assembler.lean ====
section
/-! DEFINITION. The keys of a CFG line with their defaults (R64), the pseudo-commands (R65) and the command stream
of a list of commands (R49). The text of a line is not modelled: it is the assembler's and never the machine's. -/

namespace Sys2Proof

/-- The keys of a CFG line; those with a default may be omitted (R64). -/
structure CfgKeys where
  par   : Word
  m0ar  : Word
  n     : Word
  m1ar  : Word := 0
  /-- `dir`: P2M is 0 and M2P is 1 (R14). -/
  dir   : BitVec 2 := 0
  /-- `size`: 8, 16 and 32 bits are 0, 1 and 2 (R14). -/
  usize : BitVec 2 := 0
  /-- `mode`: CIRC is true. -/
  circ  : Bool := false
  dbm   : Bool := false
  pinc  : Bool := false
  minc  : Bool := true
  prio  : BitVec 2 := 0
  ie    : Flags := .zero
deriving DecidableEq, Repr

/-- `CFG c, <cfg keys>` (R52, R64). -/
def CfgKeys.cfg (k : CfgKeys) (c : BitVec 4) : Instr :=
  .cfg c ⟨k.ie, k.dir, k.circ, k.pinc, k.minc, k.usize, k.prio, k.dbm⟩ k.par k.m0ar k.m1ar k.n

/-- The pseudo-commands (R65). -/
inductive Pseudo where
  | oneshot (c : BitVec 4) (k : CfgKeys) (t : Word)
  | stream (c : BitVec 4) (k : CfgKeys)
  | clrall (c : BitVec 4)
  | rearm (c : BitVec 4) (k : CfgKeys)
deriving DecidableEq, Repr

/-- The commands a pseudo-command expands to (R65). -/
def Pseudo.expand : Pseudo → List Instr
  | .oneshot c k t => [{ k with circ := false }.cfg c, .start c, .swait c t]
  | .stream c k => [{ k with circ := true }.cfg c, .start c]
  | .clrall c => [.clrf c 31]
  | .rearm c k => [.stop c, k.cfg c, .start c]

/-- The command stream of a list of commands: their words in order (R49). -/
def assemble (is : List Instr) : List Word := is.flatMap encode

end Sys2Proof
end

