-- ==== Sys2Proof/Tests/Slice0.lean ====
section
/-! SUPPORT. Tests of single steps, with the expected results of spec/95_test_vectors.md or worked out from the cited
rules, and a witness for the hypotheses of each statement. -/

namespace Sys2Proof.Tests

open Sys2Proof.Machine Sys2Proof.Safety

/-! ## Small states (95_test_vectors §0: P0, S0, the base descriptor B) -/

/-- P0 of 95_test_vectors §0. -/
def p0 : Config where
  evqDepth     := 4
  ackTimeout   := 10
  hangAdmitted := false
  enAckBound   := some 2
  errTE        := false
  errFE        := false
  errDME       := false
  ram          := [(0x20000000, 0x20010000)]
  oracle       := .unconstrained
  widths       := []

/-- A machine of two channels under P0, with `ch` as channel 0. -/
def machine (ch : Channel) (hw : Wait := .none) (stream : List Word := []) : State :=
  { State.reset with chs := [ch, Channel.reset], params := p0, hw := hw, stream := stream }

/-- A channel configured with B: P2M, 8-bit, one-shot, four elements. -/
def chB : Channel :=
  { Channel.reset with
    cstate := .configured, minc := true, par := 0x40000000, m0ar := 0x20000000, reload := 4, ndtr := 4 }

/-- B, armed by START. -/
def armed : Channel := chB.arm

/-- B, running, `n` elements left. -/
def running (n : BitVec 16) : Channel := { chB.arm with enAck := true, cstate := .running, ndtr := n }

/-- B, completed. -/
def completed : Channel :=
  { running 0 with cstate := .completed, enAck := false, enReq := false, flags := ⟨true, true, false, false, false⟩ }

/-- B, in ERROR with a transfer error, three elements left. -/
def failed : Channel :=
  { running 3 with
    cstate := .error, perr := .te, enAck := false, enReq := false, flags := ⟨false, false, true, false, false⟩ }

/-- A disable requested and not yet acknowledged. -/
def stopping : Channel := { running 3 with enReq := false }

/-- HALVES, eight elements, running in slot 0, with HT and TC interrupts (V-N5). -/
def halves (n : BitVec 16) : Channel :=
  { running n with circ := true, reload := 8, ie := ⟨true, true, false, false, false⟩ }

/-- DUAL, two elements a slot, running in slot 0, with the TC interrupt (V-E6). -/
def dual (n : BitVec 16) : Channel :=
  { running n with
    circ := true, dbm := true, reload := 2, m0ar := 0x20000100, m1ar := 0x20000200
    ie := ⟨true, false, false, false, false⟩ }

/-- The state of a next outcome. -/
def nextOf : Result → State
  | .next t => t
  | .fault _ => State.reset
  | .refused _ => State.reset

/-- Status and value of the last history entry, if it is a result. -/
def lastResult (s : State) : Option (Status × Word) :=
  match s.hist.getLast? with
  | some (.result _ _ st v) => some (st, v)
  | _ => none

/-! ## WellFormed: an ill-formed term for each check, refused -/

theorem test_wf_hrd_size : ¬ (Instr.hrd 3 0).WellFormed := by
  unfold Instr.WellFormed
  decide

theorem test_wf_hwr_size : ¬ (Instr.hwr 3 0 0).WellFormed := by
  unfold Instr.WellFormed
  decide

/-! ## Decoding: words written out from R52 to R56 (95_test_vectors §2.1) -/

/-- V-C1, the base descriptor: opcode 000001, channel 0000, MINC (bit 10). -/
theorem test_decode_cfg :
    decode [0b00000100000000000000010000000000, 0x40000000, 0x20000000, 0, 4] =
      .ok (.cfg 0 ⟨Flags.zero, 0, false, false, true, 0, 0, false⟩ 0x40000000 0x20000000 0 4) := by decide

/-- `CFG 1, mode=CIRC, dbm=1, ie={TC}` has head 04408502. -/
theorem test_decode_cfg_dual :
    decode [0x04408502, 0x40000000, 0x20000100, 0x20000200, 2] =
      .ok (.cfg 1 ⟨⟨true, false, false, false, false⟩, 0, true, false, true, 0, 0, true⟩
        0x40000000 0x20000100 0x20000200 2) := by decide

theorem test_decode_start : decode [0b00001000010000000000000000000000] = .ok (.start 1) := by decide

theorem test_decode_stop : decode [0b00001100010000000000000000000000] = .ok (.stop 1) := by decide

theorem test_decode_rdstat : decode [0x10400000] = .ok (.rdstat 1) := by decide

/-- Mask bit 0 is TC and bit 4 is DME (R54). -/
theorem test_decode_clrf : decode [0b00010100010000000000000000010001] = .ok (.clrf 1 0b10001) := by decide

theorem test_decode_rdcnt : decode [0x18400000] = .ok (.rdcnt 1) := by decide

theorem test_decode_rdcr : decode [0x1C400000] = .ok (.rdcr 1) := by decide

theorem test_decode_swait : decode [0b00100000010000000000000000000000, 0x64] = .ok (.swait 1 100) := by decide

theorem test_decode_sack : decode [0x24400000] = .ok (.sack 1) := by decide

theorem test_decode_sevt : decode [0x28400000] = .ok (.sevt 1) := by decide

theorem test_decode_dly : decode [0b00101100000000000000000000000000, 3] = .ok (.dly 3) := by decide

theorem test_decode_hrd : decode [0b01000000000000000000000000000010, 0x20000000] = .ok (.hrd 2 0x20000000) := by
  decide

theorem test_decode_hwr :
    decode [0b01000100000000000000000000000001, 0x20000010, 0xABCD1234] =
      .ok (.hwr 1 0x20000010 0xABCD1234) := by decide

/-- V-D1 to V-D4: unknown opcodes, whatever follows. -/
theorem test_decode_unknown :
    decode [0x00000000] = .error .unknownOpcode ∧ decode [0x30000000] = .error .unknownOpcode ∧
      decode [0x48000000] = .error .unknownOpcode ∧ decode [0xFC000000] = .error .unknownOpcode := by decide

/-- V-D5, V-D7, V-D8, V-D10, V-D11, V-D13: reserved bits. -/
theorem test_decode_reserved :
    decode [0x08000001] = .error (.reservedBits 1) ∧ decode [0x08800001] = .error (.reservedBits 1) ∧
      decode [0x14000020] = .error (.reservedBits 1) ∧
      decode [0x40400000, 0x20000000] = .error (.reservedBits 2) ∧
      decode [0x2C400000, 0] = .error (.reservedBits 2) ∧
      decode [0x04000001, 0, 0, 0, 1] = .error (.reservedBits 5) := by decide

/-- V-D9, and V-D14 to V-D16: the size field 11, and truncated commands. -/
theorem test_decode_size_and_truncated :
    decode [0x40000003, 0x20000000] = .error (.badSize 2) ∧ decode [0x04000000] = .error .truncated ∧
      decode [0x20000000] = .error .truncated ∧ decode [0x44000002, 0x20000000] = .error .truncated := by decide

/-- Omitted keys take R64's defaults: the head is V-C1's; `STREAM` sets CIRC, and `CLRALL` selects all five. -/
theorem test_pseudo :
    let k : CfgKeys := ⟨0x40000000, 0x20000000, 4, 0, 0, 0, false, false, false, true, 0, Flags.zero⟩
    k = { par := 0x40000000, m0ar := 0x20000000, n := 4 } ∧
      assemble (Pseudo.oneshot 0 k 100).expand =
        [0x04000400, 0x40000000, 0x20000000, 0, 4, 0x08000000, 0x20000000, 100] ∧
      assemble (Pseudo.stream 0 k).expand = [0x04000500, 0x40000000, 0x20000000, 0, 4, 0x08000000] ∧
      assemble (Pseudo.clrall 0).expand = [0x1400001F] ∧
      assemble (Pseudo.rearm 0 k).expand =
        [0x0C000000, 0x04000400, 0x40000000, 0x20000000, 0, 4, 0x08000000] := by decide

/-- The words of V-C1 as one number, the first word lowest. -/
theorem test_decodeTableWord :
    decodeTableWord 160 (0x04000400 + 0x40000000 * 2 ^ 32 + 0x20000000 * 2 ^ 64 + 4 * 2 ^ 128) =
      some (.cfg 0 ⟨Flags.zero, 0, false, false, true, 0, 0, false⟩ 0x40000000 0x20000000 0 4) := by decide

/-- The step after `withFetchWord` runs the command placed: here HWR.H of V-H2, from reset. -/
theorem test_withFetchWord :
    step (State.reset.withFetchWord 96 (0x44000001 + 0x20000010 * 2 ^ 32 + 0xABCD1234 * 2 ^ 64)) =
      .next { State.reset with
        stream := [0x44000001, 0x20000010, 0xABCD1234, 0, 0], cp := 3
        mem := [(0x20000010, 0x34), (0x20000011, 0x12)]
        hist := [.result 0 0x44000001 .ok 0] } := by rfl

/-! ## Commands, one step each -/

/-- V-C1. -/
theorem test_cfg_accepts :
    exec (.cfg 0 ⟨Flags.zero, 0, false, false, true, 0, 0, false⟩ 0x40000000 0x20000000 0 4)
        (machine Channel.reset .none [0x04000400]) =
      .next { machine chB .none [0x04000400] with
        cp := 5, clkEn := true, hist := [.result 0 0x04000400 .ok 0] } := by rfl

/-- V-C18 (W4): a CFG on a running channel. -/
theorem test_cfg_rejects_running :
    exec (.cfg 0 ⟨Flags.zero, 0, false, false, true, 1, 0, false⟩ 0x40003800 0x20000000 0 4)
        (machine (running 3)) =
      .next { machine (running 3) with cp := 5, hist := [.result 0 0 .configurationRejected 0] } := by rfl

/-- V-C3 to V-C10, V-C13 and V-C14: accepted and rejected descriptors (head words as the vectors give them). -/
theorem test_cfg_valid :
    let ok := fun (head par m0ar m1ar ndt : Word) => cfgValid (cfgHeadOf head) par m0ar m1ar ndt
    ok 0x04000400 0x40000000 0x20000000 0 0 = false ∧ ok 0x04000400 0x40000000 0x20000000 0 0x00010004 = false ∧
      ok 0x04000400 0x40000000 0x20000000 0 65535 = true ∧ ok 0x04000480 0x40000000 0x20000000 0 4 = false ∧
      ok 0x04001C00 0x40000000 0x20000000 0 4 = false ∧ ok 0x04008400 0x40000000 0x20000000 0 4 = false ∧
      ok 0x04000500 0x40000000 0x20000000 0 1 = false ∧ ok 0x04000500 0x40000000 0x20000000 0 2 = true ∧
      ok 0x04008500 0x40000000 0x20000000 0x20000100 1 = true ∧
      ok 0x04001400 0x40000000 0x20000000 0x20000002 4 = true ∧
      ok 0x04009500 0x40000000 0x20000000 0x20000002 4 = false ∧
      ok 0x04001400 0x40000000 0xFFFFFFFC 0 1 = true ∧ ok 0x04001400 0x40000000 0xFFFFFFFC 0 2 = false ∧
      ok 0x04001000 0x40000000 0xFFFFFFFC 0 100 = true ∧ ok 0x04000600 0xFFFFFFFF 0x20000000 0 2 = false := by
  decide

/-- V-C22: START's issue clears the flags left from before and arms the channel. -/
theorem test_start_issue :
    exec (.start 0) (machine { chB with flags := ⟨true, true, false, false, false⟩ }) =
      .next (machine
        { chB with enReq := true, cstate := .armed, own0 := .hw, own1 := .app, ackAge := 0 } (.startWait 0 0)) := by
  rfl

/-- V-C24 and V-C25: after ten ticks the poll times out where the channel is still ARMED, and not where it runs. -/
theorem test_start_poll :
    lastResult (nextOf (perform .host { machine armed (.startWait 0 0) with tick := 10 })) =
        some (.hardwareAcknowledgeTimeout, 0) ∧
      lastResult (nextOf (perform .host { machine (running 4) (.startWait 0 0) with tick := 10 })) =
        some (.ok, 0) := by decide

/-- V-C27: STOP on IDLE, the issue step. -/
theorem test_stop_issue : exec (.stop 0) (machine Channel.reset) = .next (machine Channel.reset (.stopWait 0 0)) := by
  rfl

/-- V-C31: an error landed while the disable was pending; STOP's poll gives (OK, 3) and consumes it. -/
theorem test_stop_poll :
    let t := nextOf (perform .host (machine failed (.stopWait 0 0)))
    lastResult t = some (.ok, 3) ∧ (t.ch 0).cstate = .idle ∧ (t.ch 0).perr = .none ∧ (t.ch 0).own0 = .app ∧
      (t.ch 0).flags.te = true := by decide

/-- V-C33: `tcif`, `htif`, COMPLETED, `own[0] = HW`, `clk_en` is 80001403. -/
theorem test_rdstat :
    lastResult (nextOf (exec (.rdstat 0) { machine completed with clkEn := true })) = some (.ok, 0x80001403) := by
  decide

/-- V-C24: ERROR, `perr = ACKTO`, `own[0] = HW`, `clk_en` is 80041500. -/
theorem test_rdstat_ackto :
    lastResult (nextOf (exec (.rdstat 0)
      { machine { armed with cstate := .error, perr := .ackto, enReq := false } with clkEn := true })) =
        some (.ok, 0x80041500) := by decide

/-- V-C34: TC and HT cleared of TC, HT and TE. -/
theorem test_clrf :
    ((nextOf (exec (.clrf 0 0b00011) (machine { chB with flags := ⟨true, true, true, false, false⟩ }))).ch 0).flags =
      ⟨false, false, true, false, false⟩ := by decide

/-- V-C36: RDCNT of 512. -/
theorem test_rdcnt :
    lastResult (nextOf (exec (.rdcnt 0) (machine { chB with ndtr := 512, reload := 512 }))) =
      some (.ok, 0x00000200) := by decide

/-- V-C37: running is 00020401, and with the disable pending 00000401. -/
theorem test_rdcr :
    lastResult (nextOf (exec (.rdcr 0) (machine (running 4)))) = some (.ok, 0x00020401) ∧
      lastResult (nextOf (exec (.rdcr 0) (machine stopping))) = some (.ok, 0x00000401) := by decide

/-- V-S5 and W1: SWAIT on CONFIGURED and on a circular channel is refused; on COMPLETED it polls. -/
theorem test_swait_issue :
    lastResult (nextOf (exec (.swait 0 5) (machine chB))) = some (.invalidStateError, 0) ∧
      lastResult (nextOf (exec (.swait 0 5) (machine (halves 8)))) = some (.invalidStateError, 0) ∧
      (nextOf (exec (.swait 0 5) (machine completed))).hw = .swaitPoll 0 0 5 := by decide

/-- V-S9 and V-S6: completion wins over the timeout; an ERROR with the engine enabled is not consumed. By the code of
R103, R101 and R109's row, the ERROR that START's timeout leaves is consumed (log 18). -/
theorem test_swait_poll :
    lastResult (nextOf (perform .host { machine completed (.swaitPoll 0 0 1) with tick := 1 })) = some (.ok, 0) ∧
      (let t := nextOf (perform .host
          (machine { stopping with cstate := .error, perr := .ackto, ndtr := 2 } (.swaitPoll 0 0 5)));
        lastResult t = some (.hardwareAcknowledgeTimeout, 2) ∧ (t.ch 0).cstate = .error) ∧
      (let t := nextOf (perform .host
          (machine { failed with perr := .ackto, own0 := .hw, ndtr := 4 } (.swaitPoll 0 0 5)));
        lastResult t = some (.hardwareAcknowledgeTimeout, 4) ∧ (t.ch 0).cstate = .idle ∧
          (t.ch 0).own0 = .app ∧ (t.ch 0).perr = .none) := by decide

/-- V-S10 and V-S12: SACK on COMPLETED and on RUNNING. -/
theorem test_sack :
    (let t := nextOf (exec (.sack 0) (machine completed));
      lastResult t = some (.ok, 0) ∧ (t.ch 0).cstate = .idle) ∧
      lastResult (nextOf (exec (.sack 0) (machine (running 4)))) = some (.invalidStateError, 0) := by decide

/-- V-E12: the pending error of a consumed ERROR is reported, with the remaining count. -/
theorem test_sack_error :
    lastResult (nextOf (exec (.sack 0) (machine { failed with perr := .ackto }))) =
      some (.hardwareAcknowledgeTimeout, 3) := by decide

/-- V-N11: TE, TransferError, slot 1 is the word 00000112; the rest of the queue stays. -/
theorem test_sevt :
    let q : List EventRec := [⟨.te, .transferError, true⟩, ⟨.ht, .success, false⟩]
    let t := nextOf (exec (.sevt 0) (machine { failed with evq := q }))
    lastResult t = some (.ok, 0x00000112) ∧ (t.ch 0).evq = [⟨.ht, .success, false⟩] := by decide

/-- V-S13: an empty queue. -/
theorem test_sevt_empty : lastResult (nextOf (exec (.sevt 0) (machine chB))) = some (.empty, 0) := by decide

/-- V-S15: the wait of DLY 3 from tick FFFFFFFE ends at tick 1 and not at tick 0. -/
theorem test_dly_wraps :
    ({ machine chB (.dlyWait 0xFFFFFFFE 3) with tick := 1 } : State).enabled .host = true ∧
      ({ machine chB (.dlyWait 0xFFFFFFFE 3) with tick := 0 } : State).enabled .host = false := by decide

/-- V-H1. -/
theorem test_hrd :
    lastResult (nextOf (exec (.hrd 2 0x20000000)
      { machine chB with
        mem := [(0x20000000, 0x11), (0x20000001, 0x22), (0x20000002, 0x33), (0x20000003, 0x44)] })) =
          some (.ok, 0x44332211) := by decide

/-- V-H5, V-H6, V-H9: the three faults of a host access; the machine then stops. -/
theorem test_hrd_faults :
    step { machine chB .none [0x40000001, 0x20000001] with sched := [.host, .host] } =
        .next { machine chB .none [0x40000001, 0x20000001] with
          sched := [.host], faults := [.hostMisaligned 0 0x20000001 2]
          hist := [.fault (.hostMisaligned 0 0x20000001 2)] } ∧
      (nextOf (exec (.hrd 2 0x20010000) (machine chB))).faults = [.hostNotRam 0 0x20010000 4] ∧
      (nextOf (exec (.hrd 0 0x20000101) (machine (dual 2)))).faults =
        [.ownershipViolation 0 0x20000101 1 0 false] := ⟨rfl, by decide, by decide⟩

/-- V-H2: the bits above the width are ignored. -/
theorem test_hwr :
    exec (.hwr 1 0x20000010 0xABCD1234) (machine chB) =
      .next { machine chB with
        mem := [(0x20000010, 0x34), (0x20000011, 0x12)], cp := 3, hist := [.result 0 0 .ok 0] } := by rfl

/-- V-H10: the byte just past a HW slot is not in it; and storing 0 where 4 stood unlists the byte (log 5). -/
theorem test_hwr_past_slot :
    (nextOf (exec (.hwr 0 0x20000102 0) { machine (dual 2) with mem := [(0x20000102, 4)] })).mem = [] := by decide

/-! ## Engine, notifier and tick, one step each -/

/-- V-E2: the last element of B. -/
theorem test_transfer_last :
    let t := nextOf (perform (.xfer 0) { machine { running 1 with m0ar := 0x20000100 } with answers := [0xAA] })
    t.mem = [(0x20000103, 0xAA)] ∧ (t.ch 0).cstate = .completed ∧ (t.ch 0).ndtr = 0 ∧ (t.ch 0).enAck = false ∧
      (t.ch 0).flags.tc = true := by decide

/-- V-E6: the last element of slot 0 of DUAL changes the target and gives slot 1 to the hardware. -/
theorem test_transfer_swap :
    let t := nextOf (perform (.xfer 0) { machine (dual 1) with answers := [7] })
    t.mem = [(0x20000101, 7)] ∧ (t.ch 0).ct = true ∧ (t.ch 0).ndtr = 2 ∧ (t.ch 0).own0 = .hw ∧
      (t.ch 0).own1 = .hw := by decide

/-- V-E10: an element outside RAM is a bus error, with no access. -/
theorem test_bus_error :
    let t := nextOf (perform (.xfer 0) (machine { running 2 with m0ar := 0x2000FFFE }))
    t.hist = [.flag 0 .te] ∧ (t.ch 0).cstate = .error ∧ (t.ch 0).perr = .te ∧ (t.ch 0).ndtr = 2 := by decide

/-- V-E9: a spontaneous transfer error. -/
theorem test_error :
    let t := nextOf (perform (.err 0 .te) (machine (halves 8)))
    (t.ch 0).flags.te = true ∧ (t.ch 0).enAck = false ∧ (t.ch 0).enReq = false ∧ (t.ch 0).cstate = .error := by
  decide

/-- R79: the enable acknowledgement. -/
theorem test_ack_on :
    let t := nextOf (perform (.ackOn 0) (machine armed))
    (t.ch 0).enAck = true ∧ (t.ch 0).cstate = .running := by decide

/-- V-E11: the disable acknowledgement keeps the count and the state. -/
theorem test_ack_off :
    let t := nextOf (perform (.ackOff 0) (machine stopping))
    (t.ch 0).enAck = false ∧ (t.ch 0).cstate = .running ∧ (t.ch 0).ndtr = 3 := by decide

/-- V-N2: all the flags are in the snapshot, HT too though it is disabled. -/
theorem test_snapshot :
    (nextOf (perform (.snap 0)
      (machine { completed with ie := ⟨true, false, false, false, false⟩ }))).ntf =
        .snapped 0 ⟨true, true, false, false, false⟩ := by decide

/-- V-N7: HT and TC of HALVES in one dispatch, with the engine back in slot 0. -/
theorem test_dispatch :
    let s := machine { halves 8 with own1 := .hw, flags := ⟨true, true, false, false, false⟩ }
    let t := nextOf (perform .dispatch { s with ntf := .snapped 0 ⟨true, true, false, false, false⟩ })
    (t.ch 0).own0 = .hw ∧ (t.ch 0).own1 = .app ∧ t.ntf = .idle ∧ (t.ch 0).flags = Flags.zero ∧
      (t.ch 0).evq.map eventWord = [0x00000001, 0x00000100] := by decide

/-- V-N9: the second event into a queue of depth 1; the snapshot stays and the event is recorded in the fault. -/
theorem test_dispatch_overflow :
    let e : EventRec := ⟨.tc, .success, false⟩
    let ch := { dual 2 with own1 := .hw, evq := [e], flags := ⟨true, false, false, false, false⟩ }
    let t := nextOf (perform .dispatch
      { machine ch with params := { p0 with evqDepth := 1 }, ntf := .snapped 0 ⟨true, false, false, false, false⟩ })
    t.faults = [.evqOverflow 0 ⟨.tc, .success, true⟩] ∧ t.ntf = .snapped 0 ⟨true, false, false, false, false⟩ ∧
      (t.ch 0).evq = [e] ∧ (t.ch 0).own0 = .hw ∧ (t.ch 0).own1 = .app := by decide

/-- V-T1 and V-T2: the tick wraps, and ages the pending disable; a second tick is then held back. -/
theorem test_tick :
    let t := nextOf (perform .tick { machine stopping with tick := 0xFFFFFFFF })
    t.tick = 0 ∧ (t.ch 0).ackAge = 1 ∧ (t.ch 1).ackAge = 0 ∧ t.enabled .tick = false := by decide

/-- V-N1: the interrupt line. -/
theorem test_irq :
    Channel.irq { completed with ie := ⟨true, false, false, false, false⟩ } = true ∧
      Channel.irq completed = false := by decide

/-! ## Witnesses: for each statement with hypotheses, a state and operands that meet them together -/

theorem witness_EncodedCommandDecodesToItself :
    (Instr.hwr 2 0x20000010 5).WellFormed ∧ (Instr.hrd 0 0).WellFormed ∧ (Instr.start 15).WellFormed := by
  refine ⟨?_, ?_, trivial⟩ <;> (unfold Instr.WellFormed; decide)

theorem witness_DecodedWordsAreTheEncoding :
    decode [0x44000002, 0x20000010, 5, 9] = .ok (.hwr 2 0x20000010 5) := by decide

/-- The rows' clauses at the edges: the opcodes beside the assigned ones; one word too few; the lowest and the
highest reserved bit; the sizes 3 and 2. -/
theorem witness_DecodeChecksInOrder :
    ((0x33FFFFFF : Word).toNat / 2 ^ 26 = 0x0C ∧ (0x3FFFFFFF : Word).toNat / 2 ^ 26 = 0x0F ∧
      (0x48000000 : Word).toNat / 2 ^ 26 = 0x12) ∧
    ((0x04000000 : Word).toNat / 2 ^ 26 = 1 ∧ ([0, 0, 0] : List Word).length + 1 < 5) ∧
    ((0x04000001 : Word) &&& 0xFC3F0001 ≠ 0x04000000 ∧ (0x04200000 : Word) &&& 0xFC3F0001 ≠ 0x04000000 ∧
      (0x47C00000 : Word) &&& 0xFFFFFFFC ≠ 0x44000000) ∧
    ((0x40000003 : Word) &&& 0xFFFFFFFC = 0x40000000 ∧ (0x40000003 : Word).toNat % 4 = 3) ∧
    ((0x40000002 : Word) &&& 0xFFFFFFFC = 0x40000000 ∧ (0x40000002 : Word).toNat % 4 ≠ 3) := by decide

theorem witness_ChosenStepIsPerformed :
    let s := { machine armed with sched := [.ackOn 0] }
    s.faults = [] ∧ s.sched = .ackOn 0 :: [] ∧ s.enabled (.ackOn 0) = true := by decide

theorem witness_StepRunsTheDecodedCommand :
    let s := { machine chB .none [0x08000000] with sched := [.host, .tick] }
    s.faults = [] ∧ s.ntf = .idle ∧ s.hw = .none ∧ s.sched = .host :: [.tick] ∧
      decode (s.stream.drop s.cp) = .ok (.start 0) := by decide

theorem witness_FaultFreeMachineNeverStops : State.reset.faults = [] := rfl

theorem witness_RecordedFaultStopsEveryAgent :
    ({ machine (running 2) with faults := [.hostNotRam 6 0 1] } : State).faults = .hostNotRam 6 0 1 :: [] := rfl

theorem witness_WordsThatAreNoCommand :
    let s := fun ws : List Word => machine chB .none ws
    (s [0x30000000]).hw = .none ∧ (s [0x30000000]).faults = [] ∧
      decode ((s [0x30000000]).stream.drop 0) = .error .unknownOpcode ∧
      decode ((s [0x08000001]).stream.drop 0) = .error (.reservedBits 1) ∧
      decode ((s [0x40000003, 0]).stream.drop 0) = .error (.badSize 2) ∧
      decode ((s [0x44000002, 0]).stream.drop 0) = .error .truncated := by decide

/-- The first number that is no channel, of two. -/
theorem witness_InvalidChannelHasNoOtherEffect : (machine chB).numChannels ≤ (2 : BitVec 4).toNat := by decide

theorem witness_NotifierHoldsTheHostOnly :
    ({ machine (halves 8) with ntf := .snapped 0 ⟨true, false, false, false, false⟩ } : State).ntf =
      .snapped 0 ⟨true, false, false, false, false⟩ := rfl

theorem witness_AcceptedCfgWritesTheDescriptor :
    (1 : BitVec 4).toNat < (machine chB).numChannels ∧ ((machine chB).ch 1).cstate = .idle ∧
      ((machine chB).ch 0).cstate = .configured ∧ ((machine chB).ch 0).enReq = false ∧
      ((machine chB).ch 0).enAck = false ∧
      cfgValid ⟨Flags.zero, 1, true, true, true, 2, 3, true⟩ 0x40000000 0x20000000 0xFFFFFFFC 1 = true := by decide

/-- Each of CFG's rejections: a number that is no channel, enabled by either bit, a terminal state, and a descriptor that is not valid. -/
theorem witness_RejectedCfgChangesNothing :
    ¬ ((2 : BitVec 4).toNat < (machine chB).numChannels) ∧
      (0 : BitVec 4).toNat < (machine armed).numChannels ∧ ((machine armed).ch 0).enReq = true ∧
      ((machine stopping).ch 0).enAck = true ∧
      (¬ (((machine completed).ch 0).enReq = true ∨ ((machine completed).ch 0).enAck = true) ∧
        ¬ (((machine completed).ch 0).cstate = .idle ∨ ((machine completed).ch 0).cstate = .configured)) ∧
      (¬ (((machine chB).ch 0).enReq = true ∨ ((machine chB).ch 0).enAck = true) ∧
        ((machine chB).ch 0).cstate = .configured ∧
        cfgValid ⟨Flags.zero, 0, false, false, true, 0, 0, false⟩ 0 0 0 65536 = false) := by decide

theorem witness_StartArmsAConfiguredChannel :
    (1 : BitVec 4).toNat < (machine chB).numChannels ∧ ((machine chB).ch 0).cstate = .configured ∧
      ((machine chB).ch 1).cstate ≠ .configured := by decide

theorem witness_StartPollEndsTheWait :
    let s := machine armed (.startWait 0 0)
    let t := machine (running 4) (.startWait 0 0)
    s.faults = [] ∧ s.ntf = .idle ∧ s.hw = .startWait 0 0 ∧ 0 < s.numChannels ∧ (s.ch 0).cstate = .armed ∧
      t.hw = .startWait 0 0 ∧ (t.ch 0).cstate ≠ .armed := by decide

theorem witness_StopRequestsTheDisable : (1 : BitVec 4).toNat < (machine (running 4)).numChannels := by decide

theorem witness_StopPollEndsTheWait :
    let s := machine stopping (.stopWait 0 0)
    let t := machine chB (.stopWait 0 0)
    s.faults = [] ∧ s.ntf = .idle ∧ s.hw = .stopWait 0 0 ∧ 0 < s.numChannels ∧ (s.ch 0).enAck = true ∧
      t.hw = .stopWait 0 0 ∧ (t.ch 0).enAck = false := by decide

/-- At the largest queue R7 allows. -/
theorem witness_RdstatReadsTheStatusWord :
    let s := machine { completed with evq := List.replicate 255 ⟨.tc, .success, false⟩ }
    (0 : BitVec 4).toNat < s.numChannels ∧ (s.ch 0).evq.length ≤ 255 :=
  ⟨by decide, Nat.le_of_eq (List.length_replicate ..)⟩

theorem witness_ClrfClearsTheSelectedFlags : (0 : BitVec 4).toNat < (machine completed).numChannels := by decide

theorem witness_ReadsOfTheCountAndTheControlWord :
    (0 : BitVec 4).toNat < (machine (running 65535)).numChannels := by decide

theorem witness_SwaitOpensThePoll :
    (0 : BitVec 4).toNat < (machine (running 4)).numChannels ∧
      (((machine (running 4)).ch 0).circ = false ∧ ((machine (running 4)).ch 0).cstate = .running) ∧
      ¬ (((machine (halves 4)).ch 0).circ = false) ∧
      ¬ (((machine chB).ch 0).cstate = .running ∨ ((machine chB).ch 0).cstate = .completed ∨
        ((machine chB).ch 0).cstate = .error) := by decide

theorem witness_SwaitPollReportsTheOutcome :
    let s := fun ch => machine ch (.swaitPoll 0 0 5)
    (s completed).faults = [] ∧ (s completed).ntf = .idle ∧ (s completed).hw = .swaitPoll 0 0 5 ∧
      0 < (s completed).numChannels ∧ ((s completed).ch 0).cstate = .completed ∧
      (((s failed).ch 0).cstate = .error ∧ ((s failed).ch 0).perr ≠ .none ∧ ((s failed).ch 0).enAck = false) ∧
      (let e := { stopping with cstate := .error, perr := .ackto };
        ((s e).ch 0).cstate = .error ∧ ((s e).ch 0).perr ≠ .none ∧ ((s e).ch 0).enAck = true) ∧
      ((s (running 3)).ch 0).cstate = .running := by decide

theorem witness_SwaitStopReportsTheFinalCount :
    let s := fun ch => machine ch (.swaitStop 0 0)
    let off := { stopping with enAck := false }
    (s off).faults = [] ∧ (s off).ntf = .idle ∧ (s off).hw = .swaitStop 0 0 ∧ 0 < (s off).numChannels ∧
      (((s off).ch 0).enAck = false ∧ ((s off).ch 0).cstate = .running) ∧
      (((s failed).ch 0).enAck = false ∧ ((s failed).ch 0).cstate = .error ∧ ((s failed).ch 0).perr ≠ .none) ∧
      (((s completed).ch 0).enAck = false ∧ ((s completed).ch 0).cstate = .completed) ∧
      ((s stopping).ch 0).enAck = true := by decide

theorem witness_SackConsumesATerminalState :
    (0 : BitVec 4).toNat < (machine completed).numChannels ∧
      (((machine completed).ch 0).cstate = .completed ∧ ((machine completed).ch 0).enAck = false) ∧
      (((machine failed).ch 0).cstate = .error ∧ ((machine failed).ch 0).enAck = false ∧
        ((machine failed).ch 0).perr ≠ .none) ∧
      ((machine (running 4)).ch 0).cstate = .running := by decide

theorem witness_SevtTakesTheOldestEvent :
    (0 : BitVec 4).toNat < (machine chB).numChannels ∧ ((machine chB).ch 0).evq = [] ∧
      ((machine { chB with evq := [⟨.dme, .fifoError, true⟩] }).ch 0).evq = ⟨.dme, .fifoError, true⟩ :: [] := by
  decide

theorem witness_DlyWaitsForTheTicks :
    let s := machine chB (.dlyWait 0 3)
    s.faults = [] ∧ s.ntf = .idle ∧ s.hw = .dlyWait 0 3 := by decide

theorem lifecycle_two {s : State} (hn : s.numChannels = 2) (h0 : ChannelInv s 0) (h1 : ChannelInv s 1) :
    LifecycleInv s := by
  intro c hc
  have : c = 0 ∨ c = 1 := by omega
  rcases this with rfl | rfl
  · exact h0
  · exact h1

/-- One element is left when the disable of a timed-out SWAIT is acknowledged. -/
theorem witness_TimeoutErrorReportsWhatIsLeft :
    let s := machine { running 1 with enReq := false, enAck := false } (.swaitStop 0 0)
    LifecycleInv s ∧ 0 < s.numChannels ∧ s.hw = .swaitStop 0 0 ∧
      perform .host s = .next (nextOf (perform .host s)) ∧
      (nextOf (perform .host s)).hist = s.hist ++ [resultOf s .timeoutError 1] :=
  ⟨lifecycle_two rfl (by constructor <;> decide) (by constructor <;> decide), by decide, rfl, rfl, by decide⟩

/-- Each fault of a host access at an edge: one off alignment, the first byte after RAM, and the first and the last
byte of a slot the hardware owns. -/
theorem witness_HostAccessFaults :
    ((0x20000001 : Word).toNat % 2 ^ (1 : BitVec 2).toNat ≠ 0) ∧
      ((0x20010000 : Word).toNat % 2 ^ (2 : BitVec 2).toNat = 0 ∧ p0.isRam 0x20010000 = false) ∧
      (p0.isRam 0x20000100 = true ∧ TouchesSlot (machine (dual 2)) 0x20000100 1 0 false) ∧
      (p0.isRam 0x20000101 = true ∧ TouchesSlot (machine (dual 2)) 0x20000101 1 0 false) :=
  ⟨by decide, by decide, ⟨by decide, by decide, by decide, 0x20000100, by decide⟩,
    ⟨by decide, by decide, by decide, 0x20000101, by decide⟩⟩

/-- The last word of RAM, and no slot is the hardware's. -/
theorem witness_HrdReadsLittleEndian :
    (2 : BitVec 2) ≠ 3#2 ∧ (0x2000FFFC : Word).toNat % 2 ^ (2 : BitVec 2).toNat = 0 ∧
      (∀ k, k < 2 ^ (2 : BitVec 2).toNat →
        (machine chB).params.isRam ((0x2000FFFC : Word).toNat + k) = true) ∧
      ¬ TouchesHwSlot (machine chB) (0x2000FFFC : Word).toNat (2 ^ (2 : BitVec 2).toNat) :=
  ⟨by decide, by decide, by decide, hwTouch_none.1 (by decide)⟩

/-- The byte just past a slot the hardware owns. -/
theorem witness_HwrStoresLittleEndian :
    (0 : BitVec 2) ≠ 3#2 ∧ Memory.wf (machine (dual 2)).mem = true ∧
      (0x20000102 : Word).toNat % 2 ^ (0 : BitVec 2).toNat = 0 ∧
      (∀ k, k < 2 ^ (0 : BitVec 2).toNat →
        (machine (dual 2)).params.isRam ((0x20000102 : Word).toNat + k) = true) ∧
      ¬ TouchesHwSlot (machine (dual 2)) (0x20000102 : Word).toNat (2 ^ (0 : BitVec 2).toNat) :=
  ⟨by decide, by decide, by decide, by decide, hwTouch_none.1 (by decide)⟩

theorem witness_CommandsLeaveTheRestAlone :
    exec (.start 0) (machine chB) = .next (nextOf (exec (.start 0) (machine chB))) := rfl

theorem witness_EngineAcknowledgesEnableAndDisable : (machine armed).faults = [] ∧ 1 < (machine armed).numChannels := by
  decide

/-- The half point and the last element, at the last bytes of RAM. -/
theorem witness_TransferCountsAndSwaps :
    let half := machine (running 3)
    let last := machine { running 1 with m0ar := 0x2000FFFC }
    (0 < half.numChannels ∧ (half.ch 0).enAck = true ∧ (half.ch 0).ndtr ≠ 0 ∧
      ∀ k, k < 2 ^ (half.ch 0).usize.toNat →
        half.params.isRam ((half.ch 0).maddr ((half.ch 0).reload.toNat - (half.ch 0).ndtr.toNat) + k) = true) ∧
    (0 < last.numChannels ∧ (last.ch 0).enAck = true ∧ (last.ch 0).ndtr ≠ 0 ∧
      ∀ k, k < 2 ^ (last.ch 0).usize.toNat →
        last.params.isRam ((last.ch 0).maddr ((last.ch 0).reload.toNat - (last.ch 0).ndtr.toNat) + k) = true) := by
  decide

/-- A channel reading address 0x40000000 of `LOOPBACK`, of native width `w` there, where writes `q` were made. -/
def looped (w : Nat) (q : List HistEvent) : State :=
  { machine (running 3) with
    params := { p0 with oracle := .loopback, widths := [⟨0, 0x40000000, w⟩] }, hist := q, answers := [0x1234] }

/-- The unconstrained oracle; and under `LOOPBACK` a write waiting at the native width, the same at another native
width, and a wider write waiting. -/
theorem witness_TransferFromPeripheral :
    (let s := { machine (running 3) with answers := [0x1234] };
      0 < s.numChannels ∧ (s.ch 0).enAck = true ∧ (s.ch 0).ndtr ≠ 0 ∧ (s.ch 0).dir = 0#2 ∧
        Memory.wf s.mem = true ∧ s.params.oracle = .unconstrained ∧ s.answers = 0x1234 :: [] ∧
        ∀ k, k < 2 ^ (s.ch 0).usize.toNat →
          s.params.isRam ((s.ch 0).maddr ((s.ch 0).reload.toNat - (s.ch 0).ndtr.toNat) + k) = true) ∧
    (let s := looped 1 [.periphWrite 1 0x40000000 1 0xAB];
      s.params.oracle = .loopback ∧ s.params.nativeWidth 0 ((s.ch 0).paddr 1) = some 1 ∧
        loopbackQueue ((s.ch 0).paddr 1) s.hist [] = (1, 0xAB) :: []) ∧
    (looped 2 []).params.nativeWidth 0 (((looped 2 []).ch 0).paddr 1) = some 2 ∧
    loopbackQueue 0x40000000 (looped 1 [.periphWrite 1 0x40000000 4 0xABCD]).hist [] = [(4, 0xABCD)] := by decide

/-- R42: `LOOPBACK` answers the oldest write at the width, and else the value is the scripted answer. -/
theorem test_loopback :
    let value := fun s => (moveElement 0 s).1
    value (looped 1 [.periphWrite 1 0x40000000 1 0xAB, .periphWrite 0 0x40000000 1 0xCD]) = 0xAB ∧
      value (looped 1 [.periphWrite 1 0x40000000 1 0xAB, .periphRead 0 0x40000000 1 0xAB,
        .periphWrite 0 0x40000000 1 0xCD]) = 0xCD ∧
      value (looped 2 [.periphWrite 1 0x40000000 1 0xAB]) = 0x34 ∧
      value (looped 1 [.periphWrite 1 0x40000000 4 0xABCD]) = 0x34 := by decide

theorem witness_TransferToPeripheral :
    let s := machine { running 3 with dir := 1 }
    0 < s.numChannels ∧ (s.ch 0).enAck = true ∧ (s.ch 0).ndtr ≠ 0 ∧ (s.ch 0).dir ≠ 0#2 ∧
      ∀ k, k < 2 ^ (s.ch 0).usize.toNat →
        s.params.isRam ((s.ch 0).maddr ((s.ch 0).reload.toNat - (s.ch 0).ndtr.toNat) + k) = true := by decide

/-- The three schemes, an element left, and a descriptor that ends at 2^32. -/
theorem witness_AddressesAndSlots :
    (running 1).circ = false ∧ ((halves 5).circ = true ∧ (halves 5).dbm = false) ∧
      ((dual 1).circ = true ∧ (dual 1).dbm = true) ∧
      ((halves 5).ndtr ≠ 0 ∧ (halves 5).ndtr.toNat ≤ (halves 5).reload.toNat) ∧
      (DescriptorOk { chB with usize := 2, m0ar := 0xFFFFFFF0 } ∧ 3 < chB.reload.toNat) :=
  ⟨by decide, by decide, by decide, by decide, by constructor <;> decide, by decide⟩

/-- An admitted class, and a last byte outside RAM. -/
theorem witness_ErrorsEndTheTransfer :
    let s := machine { running 1 with m0ar := 0x2000FFFD }
    s.faults = [] ∧ 0 < s.numChannels ∧ (s.ch 0).enAck = true ∧ (s.ch 0).ndtr ≠ 0 ∧
      (0 < 2 ^ (s.ch 0).usize.toNat ∧
        s.params.isRam ((s.ch 0).maddr ((s.ch 0).reload.toNat - (s.ch 0).ndtr.toNat) + 0) = false) := by decide

theorem witness_SwapSchedule :
    ((running 4).ndtr = (running 4).reload ∧ (running 4).ct = false ∧ 1 ≤ (running 4).reload.toNat ∧
      (running 4).scheme = .oneshot) ∧
    ((halves 8).ndtr = (halves 8).reload ∧ (halves 8).ct = false ∧ 2 ≤ (halves 8).reload.toNat ∧
      (halves 8).scheme = .halves) ∧
    ((dual 2).ndtr = (dual 2).reload ∧ (dual 2).ct = false ∧ 1 ≤ (dual 2).reload.toNat ∧
      (dual 2).scheme = .dual) := by decide

theorem witness_OneShotCompletesAfterItsCount :
    let ch := running 4
    ch.scheme = .oneshot ∧ ch.cstate = .running ∧ ch.enAck = true ∧ ch.ndtr = ch.reload ∧ 1 ≤ ch.reload.toNat ∧
      4 ≤ ch.reload.toNat := by decide

theorem witness_EngineStepTouchesItsChannelOnly :
    let s := machine { running 3 with dir := 1 }
    perform (.xfer 0) s = .next (nextOf (perform (.xfer 0) s)) := rfl

theorem witness_SnapshotTakesAllFlags : (machine completed).faults = [] ∧ 1 < (machine completed).numChannels := by
  decide

/-- Two events into a queue with exactly two places, and a class whose enable is 0. -/
theorem witness_DispatchDeliversInOrder :
    let m : Flags := ⟨true, true, false, true, false⟩
    let s := { machine { halves 8 with evq := List.replicate 2 ⟨.tc, .success, true⟩ } with ntf := .snapped 0 m }
    s.ntf = .snapped 0 m ∧ 0 < s.numChannels ∧
      (s.ch 0).evq.length + ((([.te, .fe, .dme, .ht, .tc] : List Cls).filter m.get).filter
        (s.ch 0).ie.get).length ≤ s.params.evqDepth := by decide

theorem witness_EventRecordOfAClass :
    (running 1).circ = false ∧ ((halves 5).circ = true ∧ (halves 5).dbm = false) ∧
      ((dual 1).circ = true ∧ (dual 1).dbm = true) := by decide

/-- HT takes the last place and TC, the last class, overflows; and TE, the first class, overflows at once. -/
theorem witness_DeliveryIntoAFullQueueIsAFault :
    (let m : Flags := ⟨true, true, false, false, false⟩;
      let s := { machine { halves 8 with evq := List.replicate 3 ⟨.tc, .success, true⟩ } with ntf := .snapped 0 m };
      s.faults = [] ∧ 0 < s.numChannels ∧ s.ntf = .snapped 0 m ∧
        [Cls.te, Cls.fe, Cls.dme, Cls.ht, Cls.tc] = [Cls.te, Cls.fe, Cls.dme, Cls.ht] ++ Cls.tc :: [] ∧
        m.get .tc = true ∧ (s.ch 0).ie.get .tc = true ∧
        (s.ch 0).evq.length + ((([.te, .fe, .dme, .ht] : List Cls).filter m.get).filter
          (s.ch 0).ie.get).length = s.params.evqDepth) ∧
    (let m : Flags := ⟨true, false, true, false, false⟩;
      let s := { machine { failed with
        ie := ⟨false, false, true, false, false⟩, evq := List.replicate 4 ⟨.tc, .success, true⟩ } with
        ntf := .snapped 0 m };
      s.faults = [] ∧ 0 < s.numChannels ∧ s.ntf = .snapped 0 m ∧
        [Cls.te, Cls.fe, Cls.dme, Cls.ht, Cls.tc] = [] ++ Cls.te :: [Cls.fe, Cls.dme, Cls.ht, Cls.tc] ∧
        m.get .te = true ∧ (s.ch 0).ie.get .te = true ∧ (s.ch 0).evq.length + 0 = s.params.evqDepth) := by decide

/-- A boundary with the engine in either slot, a terminal class of a stopped engine, and a class that is neither. -/
theorem witness_OwnershipHandoffOfAClass :
    ((dual 2).circ = true ∧ (dual 2).enAck = true ∧ (dual 2).curSlot = false) ∧
      ((halves 4).circ = true ∧ (halves 4).dbm = false ∧ (halves 4).enAck = true ∧ (halves 4).curSlot = true) ∧
      (failed.enAck = false) ∧ (completed.circ = false ∧ completed.enAck = false) ∧
      ¬ ((running 1).circ = true) := by decide

theorem witness_DispatchKeepsTheEnginesSlot :
    let s := { machine (dual 2) with ntf := .snapped 0 ⟨true, false, false, false, false⟩ }
    s.ntf = .snapped 0 ⟨true, false, false, false, false⟩ ∧ 0 < s.numChannels ∧ (s.ch 0).enAck = true ∧
      perform .dispatch s = .next (nextOf (perform .dispatch s)) := ⟨rfl, by decide, by decide, rfl⟩

/-- The shortest cycles: one element a slot in DUAL, and two in HALVES. -/
theorem witness_DualSlotsAlternate :
    (let ch := { dual 1 with reload := 1 };
      ch.scheme = .dual ∧ ch.enAck = true ∧ ch.ct = false ∧ ch.ndtr = ch.reload ∧ 1 ≤ ch.reload.toNat ∧
        ch.own0 = .hw ∧ ch.own1 = .app) ∧
    (let ch := { halves 2 with reload := 2 };
      ch.scheme = .halves ∧ ch.enAck = true ∧ ch.ct = false ∧ ch.ndtr = ch.reload ∧ 2 ≤ ch.reload.toNat ∧
        ch.own0 = .hw ∧ ch.own1 = .app) := by decide

/-- A tick that ages a pending disable of STOP. -/
def agingState : State := { machine stopping (.stopWait 0 0) with sched := [.tick] }

/-- Each clause: the tick above; and the polls of a STOP and of a START where an acknowledgement is in. -/
theorem witness_BoundedWaitsNeverTimeOut :
    (agingState.params.hangAdmitted = false ∧ LifecycleInv agingState ∧ AckBoundInv agingState ∧
      step agingState = .next (nextOf (step agingState))) ∧
    (AckBoundInv (machine chB (.stopWait 0 0)) ∧ 2 ≤ p0.ackTimeout ∧
      (machine chB (.stopWait 0 0)).enabled .host = true) ∧
    (AckBoundInv (machine (running 4) (.startWait 0 0)) ∧
      (machine (running 4) (.startWait 0 0)).enabled .host = true ∧ p0.enAckBound = some 2 ∧
        2 < p0.ackTimeout) := by
  refine ⟨⟨rfl, lifecycle_two rfl (by constructor <;> decide) (by constructor <;> decide), ?_, rfl⟩,
    ⟨?_, by decide, by decide⟩, ?_, by decide, rfl, by decide⟩
  · exact ⟨fun c t0 h _ => by cases h; decide, fun _ _ h => (nomatch h), fun _ _ _ h => (nomatch h)⟩
  · exact ⟨fun c t0 h e => by cases h; exact absurd e (by decide), fun _ _ h => (nomatch h),
      fun _ _ _ h => (nomatch h)⟩
  · exact ⟨fun _ _ h => (nomatch h), fun _ _ h => (nomatch h),
      fun c t0 b h _ e => by cases h; exact absurd e (by decide)⟩

/-- A run of one transfer: channel 0 moves its last element, and time then goes on. -/
def fairRun : Nat → State
  | 0 => { machine { running 1 with dir := 1 } with sched := [.xfer 0] }
  | n + 1 =>
    { machine { completed with dir := 1, flags := ⟨true, false, false, false, false⟩ } with
      tick := BitVec.ofNat 32 n, draws := n
      hist := [.periphWrite 0 0x40000000 1 0, .xfer 0 false 3 0x20000003 0x40000000 0, .flag 0 .tc] ++
        List.replicate n .tick }

/-- After the transfer nothing but the tick is enabled. -/
theorem fairRun_only_tick {n : Nat} {m : Move} (h : (fairRun (n + 1)).enabled m = true) : m = .tick := by
  have two : ∀ c, c < (fairRun (n + 1)).numChannels → c = 0 ∨ c = 1 := fun c hc => by
    have : c < 2 := hc
    omega
  cases m with
  | tick => rfl
  | host => exact absurd h (by simp [State.enabled, State.guard, State.hostReady, fairRun, machine])
  | dispatch => exact nomatch (show false = true from h)
  | ackOn c | ackOff c | xfer c | snap c | err c k =>
    simp only [State.enabled, State.guard, Bool.and_eq_true, decide_eq_true_eq] at h
    rcases two c (by tauto) with rfl | rfl <;> first
      | exact nomatch (show false = true from h.2.2)
      | exact nomatch (show false = true from h.2.1.2)

theorem fairRun_pick (n : Nat) :
    (fairRun (n + 1)).pick =
      some (.tick, { fairRun (n + 1) with draws := n + 1 }) := by
  have h : (fairRun (n + 1)).enabledMoves = [.tick] := rfl
  show ((fairRun (n + 1)).enabledMoves[Config.freeMove n % (fairRun (n + 1)).enabledMoves.length]?).map _ = _
  rw [h]
  simp [Nat.mod_one]
  exact ⟨rfl, rfl⟩

theorem fairRun_isRun : IsRun fairRun := by
  intro n
  cases n with
  | zero => rfl
  | succ n =>
    show (match (fairRun (n + 1)).pick with
      | some (m, t) => perform m t
      | none => .refused .noEnabledStep) = _
    rw [fairRun_pick]
    show Host.Outcome.next (tickStep { fairRun (n + 1) with draws := n + 1 }) = _
    simp only [tickStep, fairRun, State.record]
    refine congrArg _ ?_
    simp [machine, State.reset, List.replicate_succ', completed, Channel.age, Channel.ackPending, Channel.enPending,
      Channel.disPending]
    exact ⟨fun h => absurd h (by decide), (BitVec.ofNat_add n 1).symm⟩

theorem fairRun_fair {ms : Move → Prop} (h : ¬ ms .tick) : WeaklyFair fairRun ms := by
  intro n hn
  obtain ⟨m, hm, e⟩ := hn (n + 1) (Nat.le_succ n)
  exact absurd (fairRun_only_tick e ▸ hm) h

theorem witness_FairOneShotRunCompletes :
    FairRun fairRun ∧ 0 < (fairRun 0).numChannels ∧ ((fairRun 0).ch 0).scheme = .oneshot ∧
      ((fairRun 0).ch 0).cstate = .running ∧ ((fairRun 0).ch 0).enAck = true ∧ ((fairRun 0).ch 0).ndtr ≠ 0 ∧
      LifecycleInv (fairRun 0) ∧ (∀ k, (fairRun 0).params.admits k = false) ∧
      (∀ i, i < ((fairRun 0).ch 0).reload.toNat → ∀ k, k < ((fairRun 0).ch 0).ub →
        (fairRun 0).params.isRam (((fairRun 0).ch 0).maddr i + k) = true) ∧
      ∀ n, ((fairRun n).ch 0).cstate = .running → ((fairRun n).ch 0).enReq = true := by
  refine ⟨⟨fairRun_isRun, fun c => fairRun_fair (by simp), fun _ c => fairRun_fair (by simp),
      fun _ c => fairRun_fair (by simp), fairRun_fair (by simp), fairRun_fair (by simp), ?_⟩,
    by decide, rfl, rfl, rfl, by decide, lifecycle_two rfl (by constructor <;> decide) (by constructor <;> decide),
    fun k => by cases k <;> rfl, by decide, fun n => ?_⟩
  · exact fun n _ => ⟨n + 1, Nat.le_succ n, .tick, _, rfl, fairRun_pick n⟩
  · cases n with
    | zero => exact fun _ => rfl
    | succ n => exact fun h => nomatch h

/-- A circular channel takes its last element with HT left from before, and the engine goes back to slot 0. -/
def movingState : State :=
  { machine { halves 1 with flags := ⟨false, true, false, false, false⟩ } with
    mem := [(0x20000000, 1)], sched := [.xfer 0], answers := [7] }

theorem moving_steps : step movingState = .next (nextOf (step movingState)) := rfl

theorem witness_StepKeepsTheLifecycle :
    LifecycleInv movingState ∧ WaitInv movingState ∧ NotifierInv movingState ∧
      step movingState = .next (nextOf (step movingState)) :=
  ⟨lifecycle_two rfl (by constructor <;> decide) (by constructor <;> decide), trivial, trivial, rfl⟩

theorem witness_StepKeepsDescriptorsAndPointer :
    DescriptorInv movingState ∧ PointerInv movingState ∧ step movingState = .next (nextOf (step movingState)) := by
  refine ⟨fun c hc => ?_, Nat.le_refl 0, rfl⟩
  have hc : c < 2 := hc
  have : c = 0 ∨ c = 1 := by omega
  rcases this with rfl | rfl <;> (constructor <;> decide)

theorem witness_StepKeepsMemoryCanonical :
    Memory.wf movingState.mem = true ∧ step movingState = .next (nextOf (step movingState)) := ⟨by decide, rfl⟩

theorem witness_StepOnlyAppends :
    ParamsInv (machine completed) ∧
    step { machine completed .none [0x40000001, 0x20000001] with sched := [.host] } =
      .next { machine completed .none [0x40000001, 0x20000001] with
        faults := [.hostMisaligned 0 0x20000001 2], hist := [.fault (.hostMisaligned 0 0x20000001 2)] } :=
  ⟨show p0.wf 2 by decide, rfl⟩

/-- A step that takes channel 0 from one lifecycle state to another. -/
def Moves (m : Move) (s : State) (a b : CState) : Prop :=
  LifecycleInv s ∧ WaitInv s ∧ s.enabled m = true ∧ perform m s = .next (nextOf (perform m s)) ∧
    (s.ch 0).cstate = a ∧ ((nextOf (perform m s)).ch 0).cstate = b

/-- Each transition of R109 is taken from some state. -/
theorem witness_LifecycleTransitions :
    Moves .host (machine Channel.reset .none (encode (.cfg 0 chB.head chB.par chB.m0ar 0 4))) .idle .configured ∧
    Moves .host (machine chB .none (encode (.start 0))) .configured .armed ∧
    Moves (.ackOn 0) (machine armed) .armed .running ∧
    Moves (.xfer 0) (machine { running 1 with dir := 1 }) .running .completed ∧
    Moves (.xfer 0) (machine { running 1 with m0ar := 0x2000FFFD }) .running .error ∧
    Moves .host { machine armed (.startWait 0 0) with tick := 10 } .armed .error ∧
    Moves .host { machine stopping (.stopWait 0 0) with tick := 10 } .running .error ∧
    Moves .host (machine chB (.stopWait 0 0)) .configured .idle ∧
    Moves .host (machine failed .none (encode (.sack 0))) .error .idle ∧
    Moves .host (machine completed (.swaitPoll 0 0 5)) .completed .idle := by
  refine ⟨?_, ?_, ?_, ?_, ?_, ?_, ?_, ?_, ?_, ?_⟩ <;>
    exact ⟨lifecycle_two rfl (by constructor <;> decide) (by constructor <;> decide),
      by first | exact trivial | exact Nat.succ_pos 1, by decide, rfl,
      by decide, by decide⟩

/-- A CFG that is accepted, and a step that writes no descriptor. -/
theorem witness_OnlyCfgWritesTheDescriptor :
    (let s := { machine Channel.reset .none (encode (.cfg 0 chB.head chB.par chB.m0ar 0 4)) with sched := [.host] };
      0 < s.numChannels ∧ step s = .next (nextOf (step s)) ∧ ((nextOf (step s)).ch 0).reload = 4) ∧
      0 < movingState.numChannels ∧ step movingState = .next (nextOf (step movingState)) :=
  ⟨⟨by decide, rfl, rfl⟩, by decide, rfl⟩

end Sys2Proof.Tests
end

section
/-! SUPPORT. The step as a whole (R5, R6, R121, R129): which step it takes, that it always takes one while no fault is
recorded, what every step keeps, and the frame of an engine's step. -/

namespace Sys2Proof.Machine

/-! ## The step taken -/

/-- The machine performs the step the scheduler picks. -/
theorem step_of_pick {s t : State} {m : Move} (hf : s.faults = []) (hp : s.pick = some (m, t)) :
    step s = perform m t := by
  simp [step, hf, hp]

@[simp] theorem decode_nil : decode [] = .error .truncated := rfl

/-- Words that decode to a command stand before the end of the stream. -/
theorem cp_lt_of_decode {s : State} {i : Instr} (h : decode s.fetch = .ok i) : s.cp < s.stream.length := by
  by_contra hge
  have hnil : s.fetch = [] := List.drop_of_length_le (Nat.not_lt.1 hge)
  simp [hnil] at h

/-- A host that waits for nothing runs the command at the command pointer (R31, R57). -/
theorem perform_host_of_decode {s : State} {i : Instr} (hw : s.hw = .none) (h : decode s.fetch = .ok i) :
    perform .host s = exec i s := by
  simp only [perform, hostStep, if_pos hw, issueStep, h]

/-- Settles O5: an enabled choice at the head of the script is the one picked. -/
theorem chosenStepIsPerformed : Obligations.ChosenStepIsPerformed :=
  fun _ _ _ hf hs he => step_of_pick hf (pick_of_sched hs he)

/-- Settles O6: the host is enabled because the words that decode lie before the end of the stream, so O5 applies. -/
theorem stepRunsTheDecodedCommand : Obligations.StepRunsTheDecodedCommand := by
  intro s l i hf hn hw hs hd
  have hcp : s.cp < s.stream.length := cp_lt_of_decode hd
  have he : s.enabled .host = true := by simp [State.enabled, State.guard, State.hostReady, hf, hn, hw, hcp]
  rw [chosenStepIsPerformed s .host l hf hs he]
  exact perform_host_of_decode hw hd

/-! ## No deadlock (R129) -/

/-- Where no fault is recorded a step is enabled by its guard alone. -/
theorem enabled_eq_guard {s : State} (hf : s.faults = []) (m : Move) : s.enabled m = s.guard m := by
  simp [State.enabled, hf]

/-- A host that waits for nothing has no poll step. -/
theorem hw_ne_none_of_pollReady {s : State} (h : s.pollReady = true) : s.hw ≠ .none := by
  intro e
  simp [State.pollReady, e] at h

/-- A channel of the list is read by its number. -/
theorem exists_ch_of_mem {s : State} {ch : Channel} (h : ch ∈ s.chs) : ∃ c, c < s.numChannels ∧ s.ch c = ch := by
  obtain ⟨c, hc, e⟩ := List.getElem_of_mem h
  exact ⟨c, hc, by simp [State.ch, hc, e]⟩

/-- An acknowledgement that has reached its bound is pending. -/
theorem pending_of_ackBoundReached {p : Config} {ch : Channel} (h : ackBoundReached p ch = true) :
    ch.disPending = true ∨ ch.enPending = true := by
  rw [ackBoundReached, Bool.or_eq_true, Bool.and_eq_true, Bool.and_eq_true] at h
  exact h.imp And.left And.left

/-- R129, "No deadlock": the notifier's dispatch, the host's poll, the acknowledgement that is due, or else the tick. -/
theorem exists_enabled {s : State} (hf : s.faults = []) : ∃ m, s.enabled m = true := by
  simp only [enabled_eq_guard hf]
  by_cases hn : s.ntf = .idle
  case neg => exact ⟨.dispatch, by simp [State.guard, hn]⟩
  by_cases hp : s.pollReady = true
  case pos =>
    exact ⟨.host, by simp [State.guard, State.hostReady, hn, hp, hw_ne_none_of_pollReady hp]⟩
  by_cases hb : s.chs.any (ackBoundReached s.params) = true
  case neg => exact ⟨.tick, by simp [State.guard, State.tickAllowed, hf, hp, hb]⟩
  obtain ⟨ch, hmem, hreached⟩ := List.any_eq_true.1 hb
  obtain ⟨c, hc, rfl⟩ := exists_ch_of_mem hmem
  obtain hd | he := pending_of_ackBoundReached hreached
  · exact ⟨.ackOff c, by simp [State.guard, hc, hd]⟩
  · exact ⟨.ackOn c, by simp [State.guard, hc, he]⟩

/-- Every enabled step is in the list the free choice is made from. -/
theorem mem_enabledMoves {s : State} {m : Move} (h : s.enabled m = true) : m ∈ s.enabledMoves := by
  refine List.mem_filter.2 ⟨?_, h⟩
  obtain ⟨-, hg⟩ := Bool.and_eq_true_iff.1 h
  cases m with
  | host => simp [allMoves]
  | dispatch => simp [allMoves]
  | tick => simp [allMoves]
  | ackOn c | ackOff c | xfer c | snap c =>
    simp only [State.guard, Bool.and_eq_true, decide_eq_true_eq] at hg
    simp [allMoves, hg]
  | err c k =>
    simp only [State.guard, Bool.and_eq_true, decide_eq_true_eq] at hg
    cases k <;> simp [allMoves, hg]

/-- While some step is enabled the scheduler picks one. -/
theorem pick_isSome {s : State} {m : Move} (h : s.enabled m = true) : ∃ m' t, s.pick = some (m', t) := by
  unfold State.pick
  split
  · exact ⟨_, _, rfl⟩
  · have hpos : 0 < s.enabledMoves.length := List.length_pos_of_mem (mem_enabledMoves h)
    have hlt := Nat.mod_lt (Config.freeMove s.draws) hpos
    exact ⟨_, _, by rw [List.getElem?_eq_getElem hlt, Option.map_some]⟩

/-- Settles O7: some step is enabled (R129), so one is picked, and every step of an agent answers a next state (R6). -/
theorem faultFreeMachineNeverStops : Obligations.FaultFreeMachineNeverStops := by
  intro s hf
  obtain ⟨m, hm⟩ := exists_enabled hf
  obtain ⟨m', u, hp⟩ := pick_isSome hm
  exact ⟨⟨m, hm⟩, step_of_pick hf hp ▸ perform_total m' u⟩

/-! ## What every step keeps -/

/-- The faults and the history only grow, `clk_en` stays set, and the inputs and the number of channels are the same
(R7, R28, R32 to R34). -/
structure Extends (s t : State) : Prop where
  faults      : s.faults <+: t.faults
  hist        : s.hist <+: t.hist
  clkEn       : s.clkEn = true → t.clkEn = true
  params      : t.params = s.params
  stream      : t.stream = s.stream
  numChannels : t.numChannels = s.numChannels

theorem Extends.trans {s t u : State} (h : Extends s t) (h' : Extends t u) : Extends s u where
  faults := h.faults.trans h'.faults
  hist := h.hist.trans h'.hist
  clkEn := h'.clkEn ∘ h.clkEn
  params := h'.params.trans h.params
  stream := h'.stream.trans h.stream
  numChannels := h'.numChannels.trans h.numChannels

/-- Picking a step writes only the script and the draw counter. -/
theorem Rescheduled.extends {s u : State} (h : Rescheduled s u) : Extends s u := by
  rw [h]
  exact ⟨List.prefix_rfl, List.prefix_rfl, id, rfl, rfl, rfl⟩

theorem extends_modCh (s : State) (c : Nat) (f : Channel → Channel) : Extends s (s.modCh c f) :=
  ⟨List.prefix_rfl, List.prefix_rfl, id, rfl, rfl, s.modCh_numChannels c f⟩

theorem extends_transferStep (c : Nat) (s : State) : Extends s (transferStep c s) := by
  obtain ⟨m, e, hh, -⟩ := transferStep_state c s
  have hnum : (transferStep c s).numChannels = s.numChannels := by
    rw [e]
    exact s.modCh_numChannels c Channel.advance
  exact ⟨by rw [e], hh, by rw [e]; exact id, by rw [e], by rw [e], hnum⟩

theorem Dispatched.extends {c : Nat} {s t : State} (h : Dispatched c s t) : Extends s t :=
  ⟨h.faults, h.hist, by rw [h.rest]; exact id, by rw [h.rest], by rw [h.rest], h.count⟩

theorem extends_dispatchStep (s : State) : Extends s (dispatchStep s) := by
  unfold dispatchStep
  split
  · exact ⟨List.prefix_rfl, List.prefix_rfl, id, rfl, rfl, rfl⟩
  · next c m _ => exact (extends_modCh s c _).trans (dispatchClasses_dispatched c m dispatchOrder _).extends

/-- Each rule of the machine extends the state. A transfer and a dispatch do so by their own laws, and every other
rule appends at most one entry to the history and one fault. -/
theorem Effect.extends {s t : State} {m : Move} (h : Effect s m t) : Extends s t := by
  cases h
  case transfer c _ => exact extends_transferStep c s
  case dispatch => exact extends_dispatchStep s
  all_goals constructor <;> simp [ackOnStep, ackOffStep, errStep, snapStep, tickStep, State.numChannels]

/-- Settles O58: the step extends the state, and the ranges of R7 speak of what is the same. -/
theorem stepOnlyAppends : Obligations.StepOnlyAppends := by
  intro s t h
  obtain ⟨-, m, u, -, hu, hp⟩ := step_next h
  obtain ⟨hfaults, hhist, hclk, hparams, hstream, hnum⟩ := hu.extends.trans (perform_effect hp).extends
  refine ⟨hfaults, hhist, hclk, hparams, hstream, hnum, fun hinv => ?_⟩
  rwa [ParamsInv, hparams, hnum]

/-! ## The frame of an engine's step -/

/-- Between `s` and `t` only channel `c`, the bytes of its next element, and the history have changed, of what R86
names. -/
structure EngineFrame (c : Nat) (s t : State) : Prop where
  other       : ∀ e, e ≠ c → t.ch e = s.ch e
  numChannels : t.numChannels = s.numChannels
  cp          : t.cp = s.cp
  hw          : t.hw = s.hw
  ntf         : t.ntf = s.ntf
  tick        : t.tick = s.tick
  clkEn       : t.clkEn = s.clkEn
  faults      : t.faults = s.faults
  mem         : ∀ a, (a < (s.ch c).maddr (s.ch c).index ∨ (s.ch c).maddr (s.ch c).index + (s.ch c).ub ≤ a) →
    Memory.read t.mem a = Memory.read s.mem a

/-- An engine step that moves no element updates its channel and records one entry. -/
theorem engineFrame_modCh_record (c : Nat) (f : Channel → Channel) (e : HistEvent) (s : State) :
    EngineFrame c s ((s.modCh c f).record e) :=
  ⟨fun d hd => s.modCh_ch_ne c d f hd, s.modCh_numChannels c f, rfl, rfl, rfl, rfl, rfl, rfl, fun _ _ => rfl⟩

theorem engineFrame_transferStep (c : Nat) (s : State) : EngineFrame c s (transferStep c s) := by
  obtain ⟨m, e, -, hm⟩ := transferStep_state c s
  rw [e]
  refine ⟨fun d hd => s.modCh_ch_ne c d Channel.advance hd, s.modCh_numChannels c Channel.advance,
    rfl, rfl, rfl, rfl, rfl, rfl, ?_⟩
  intro a ha
  obtain rfl | rfl := hm
  · rfl
  · exact Memory.read_writeLE_outside s.mem _ ha

/-- Settles O42: an engine step is an element transfer or an update of its channel with a record. -/
theorem engineStepTouchesItsChannelOnly : Obligations.EngineStepTouchesItsChannelOnly := by
  intro s t c m hm hp
  have hframe : EngineFrame c s t := by
    obtain rfl | rfl | rfl | ⟨k, rfl⟩ := hm
    · cases perform_effect hp with
      | ackOn => exact engineFrame_modCh_record c _ _ s
    · cases perform_effect hp with
      | ackOff => exact engineFrame_modCh_record c _ _ s
    · cases perform_effect hp with
      | transfer _ => exact engineFrame_transferStep c s
      | busError _ => exact engineFrame_modCh_record c _ _ s
    · cases perform_effect hp with
      | error => exact engineFrame_modCh_record c _ _ s
  obtain ⟨hother, hnum, hcp, hhw, hntf, htick, hclk, hfaults, hmem⟩ := hframe
  exact ⟨hother, hnum, hcp, hhw, hntf, htick, hclk, hfaults, hmem⟩

/-! ## The reset state -/

/-- Every channel of the reset state is at reset (R134). -/
@[simp] theorem reset_ch (c : Nat) : State.reset.ch c = Channel.reset :=
  List.getElem?_getD_replicate_default_eq _ Config.channelsAtReset c

theorem channelInv_reset (c : Nat) : ChannelInv State.reset c := by
  constructor <;> rw [reset_ch] <;>
    simp [Channel.reset, State.reset, Wait.stopping, Wait.inSwait]

theorem descriptorOk_reset : DescriptorOk Channel.reset := by
  constructor <;> decide

theorem ackBoundInv_reset : AckBoundInv State.reset := by
  constructor <;> intros <;> simp_all [State.reset]

/-- Settles O54: every channel is at reset, and the host and the notifier wait for nothing. -/
theorem resetMeetsTheInvariants : Obligations.ResetMeetsTheInvariants :=
  ⟨fun c _ => channelInv_reset c, fun c _ => (reset_ch c).symm ▸ descriptorOk_reset, Nat.le_refl 0, trivial, trivial,
    ackBoundInv_reset, by unfold ParamsInv; decide, rfl⟩

end Sys2Proof.Machine
end

section
/-! SUPPORT. The descriptor and the command pointer over a step (R12, R14, R17, R38, R49, R67), and the engine's
addresses and slots (R22 to R24, R78). -/

namespace Sys2Proof.Machine

/-! ## Addresses and slots -/

/-- The first `k` items of size `u`, at a stride of `u` or all at one place, hold item `j` whole. -/
theorem stride_add_le_extent (inc : Bool) (u : Nat) {j k : Nat} (h : j < k) :
    (if inc then j * u else 0) + u ≤ if inc then k * u else u := by
  cases inc
  · simp
  · simpa [Nat.succ_mul] using Nat.mul_le_mul_right u (Nat.succ_le_of_lt h)

/-- The stride of an item keeps its alignment. -/
theorem dvd_add_stride {u b : Nat} (inc : Bool) (j : Nat) (h : u ∣ b) : u ∣ b + if inc then j * u else 0 := by
  cases inc
  · simpa using h
  · simpa using h.add (Nat.dvd_mul_left u j)

namespace Channel

variable {ch : Channel}

/-- The base address is slot 1's exactly in DUAL with the current target 1 (R22, R78). -/
theorem base_eq (ch : Channel) :
    ch.base = if ch.circ = true ∧ ch.dbm = true ∧ ch.ct = true then ch.m1ar.toNat else ch.m0ar.toNat := by
  simp only [base, scheme_dual, and_assoc]

theorem base_of_not_dual (h : ch.scheme ≠ .dual) : ch.base = ch.m0ar.toNat := by simp [base, h]

theorem base_dual (h : ch.scheme = .dual) : ch.base = if ch.ct then ch.m1ar.toNat else ch.m0ar.toNat := by
  simp [base, h]

theorem slotRange_oneshot (h : ch.scheme = .oneshot) (sl : Slot) :
    ch.slotRange sl = if sl then (0, 0) else (ch.m0ar.toNat, ch.m0ar.toNat + ch.spanBytes ch.count) := by
  cases sl <;> simp [slotRange, h]

theorem slotRange_halves (h : ch.scheme = .halves) (sl : Slot) :
    ch.slotRange sl =
      if sl then
        if ch.minc then (ch.m0ar.toNat + ch.count / 2 * ch.ub, ch.m0ar.toNat + ch.count * ch.ub)
        else (ch.m0ar.toNat, ch.m0ar.toNat + ch.ub)
      else (ch.m0ar.toNat, ch.m0ar.toNat + ch.spanBytes (ch.count / 2)) := by
  cases sl <;> simp [slotRange, h]

theorem slotRange_dual (h : ch.scheme = .dual) (sl : Slot) :
    ch.slotRange sl =
      if sl then (ch.m1ar.toNat, ch.m1ar.toNat + ch.spanBytes ch.count)
      else (ch.m0ar.toNat, ch.m0ar.toNat + ch.spanBytes ch.count) := by
  cases sl <;> simp [slotRange, h]

theorem curSlot_halves (h : ch.scheme = .halves) : ch.curSlot = decide (ch.count / 2 ≤ ch.index) := by
  rw [curSlot_eq, h]
  rfl

/-- `[a, a + n)` lies in the half-open range. -/
def Within (a n : Nat) (r : Nat × Nat) : Prop := r.1 ≤ a ∧ a + n ≤ r.2

/-- Element `j` lies in the range that the first `k` elements span from the base (R23, R78). -/
theorem element_within_span (ch : Channel) {j k : Nat} (h : j < k) :
    Within (ch.maddr j) ch.ub (ch.base, ch.base + ch.spanBytes k) := by
  have := stride_add_le_extent ch.minc ch.ub h
  simp only [Within, maddr, spanBytes]
  omega

/-- Element `j` of the second half lies in slot 1's range in HALVES (R23, R78). -/
theorem element_within_second_half (h : ch.scheme = .halves) {j : Nat} (hj : ch.count / 2 ≤ j)
    (hn : j < ch.count) : Within (ch.maddr j) ch.ub (ch.slotRange true) := by
  have hbase : ch.base = ch.m0ar.toNat := base_of_not_dual (by simp [h])
  have hend := stride_add_le_extent ch.minc ch.ub hn
  have hstart := Nat.mul_le_mul_right ch.ub hj
  rw [slotRange_halves h]
  cases hm : ch.minc with
  | false => simp [Within, maddr, hbase, hm]
  | true =>
    simp only [hm, if_true] at hend
    simp only [Within, maddr, hbase, hm, if_true]
    omega

/-- The next element lies whole in the current slot's range, in every scheme (R24). -/
theorem element_within_curSlot (h : ch.index < ch.count) :
    Within (ch.maddr ch.index) ch.ub (ch.slotRange ch.curSlot) := by
  cases hs : ch.scheme with
  | oneshot =>
    have hcur : ch.curSlot = false := by rw [curSlot_eq, hs]
    rw [hcur, slotRange_oneshot hs, ← base_of_not_dual (by simp [hs])]
    exact ch.element_within_span h
  | halves =>
    by_cases hi : ch.count / 2 ≤ ch.index
    · rw [show ch.curSlot = true by simp [curSlot_halves hs, hi]]
      exact element_within_second_half hs hi h
    · rw [show ch.curSlot = false by simp [curSlot_halves hs, hi], slotRange_halves hs,
        ← base_of_not_dual (by simp [hs])]
      exact ch.element_within_span (Nat.not_le.1 hi)
  | dual =>
    have hcur : ch.curSlot = ch.ct := by rw [curSlot_eq, hs]
    have hrange : ch.slotRange ch.ct = (ch.base, ch.base + ch.spanBytes ch.count) := by
      rw [slotRange_dual hs, base_dual hs]
      cases ch.ct <;> rfl
    rw [hcur, hrange]
    exact ch.element_within_span h

end Channel

/-- The base of a descriptor CFG accepts is aligned, and the elements it spans end in the 32-bit space (R38). -/
theorem DescriptorOk.base_aligned_and_bounded {ch : Channel} (h : DescriptorOk ch) :
    ch.ub ∣ ch.base ∧ ch.base + ch.spanBytes ch.count ≤ 2 ^ 32 := by
  rw [Channel.base_eq]
  split
  · next hdual =>
    obtain ⟨-, hdbm, -⟩ := hdual
    exact ⟨Nat.dvd_of_mod_eq_zero (h.m1arAl hdbm), h.m1Top hdbm⟩
  · exact ⟨Nat.dvd_of_mod_eq_zero h.m0arAl, h.m0Top⟩

/-- Every access of a descriptor CFG accepts is aligned and ends in the 32-bit space (R38). -/
theorem DescriptorOk.access_aligned_and_bounded {ch : Channel} (h : DescriptorOk ch) {j : Nat} (hj : j < ch.count) :
    ch.ub ∣ ch.maddr j ∧ ch.ub ∣ ch.paddr j ∧ ch.maddr j + ch.ub ≤ 2 ^ 32 ∧ ch.paddr j + ch.ub ≤ 2 ^ 32 := by
  obtain ⟨hal, hend⟩ := h.base_aligned_and_bounded
  have hm : ch.maddr j + ch.ub ≤ ch.base + ch.spanBytes ch.count := (ch.element_within_span hj).2
  have hp := stride_add_le_extent ch.pinc ch.ub hj
  refine ⟨dvd_add_stride ch.minc j hal, dvd_add_stride ch.pinc j (Nat.dvd_of_mod_eq_zero h.parAl), by omega, ?_⟩
  have htop := h.parTop
  simp only [Channel.paddr]
  omega

/-- Settles O37: the addresses and slots by scheme, the next element in the current slot, and R38's bounds. -/
theorem addressesAndSlots : Obligations.AddressesAndSlots := by
  intro ch n ub i span m0 m1
  refine ⟨fun j => ?_, fun j => rfl, fun hc => ?_, fun hc hd => ?_, fun hc hd => ?_, fun h0 hn => ?_,
    fun hok j hj => hok.access_aligned_and_bounded hj⟩
  · rw [Channel.maddr, Channel.base_eq]
    rfl
  · have hs := Channel.scheme_oneshot.2 hc
    rw [Channel.slotRange_oneshot hs, Channel.slotRange_oneshot hs, Channel.curSlot_eq, hs]
    exact ⟨rfl, rfl, rfl⟩
  · have hs := Channel.scheme_halves.2 ⟨hc, hd⟩
    rw [Channel.slotRange_halves hs, Channel.slotRange_halves hs, Channel.curSlot_halves hs]
    exact ⟨rfl, rfl, rfl⟩
  · have hs := Channel.scheme_dual.2 ⟨hc, hd⟩
    rw [Channel.slotRange_dual hs, Channel.slotRange_dual hs, Channel.curSlot_eq, hs]
    exact ⟨rfl, rfl, rfl⟩
  · have hpos : 0 < ch.ndtr.toNat := Nat.pos_of_ne_zero fun e => h0 (BitVec.eq_of_toNat_eq e)
    have hlt : ch.index < ch.count := Nat.sub_lt_self hpos hn
    exact Channel.element_within_curSlot hlt

/-! ## The descriptor over a step -/

/-- Two values of a channel hold the same descriptor: what CFG writes, but for the counters and the target a
transfer moves (R14, R17, R18). -/
def SameDescriptor (ch d : Channel) : Prop :=
  d = { d with
    ie := ch.ie, dir := ch.dir, circ := ch.circ, pinc := ch.pinc, minc := ch.minc, usize := ch.usize
    prio := ch.prio, dbm := ch.dbm, reload := ch.reload, par := ch.par, m0ar := ch.m0ar, m1ar := ch.m1ar }

theorem SameDescriptor.refl (ch : Channel) : SameDescriptor ch ch := rfl

theorem SameDescriptor.trans {a b d : Channel} (h : SameDescriptor a b) (h' : SameDescriptor b d) :
    SameDescriptor a d := by
  unfold SameDescriptor at *
  rw [h', h]

/-- The shape of R67 is a matter of the descriptor alone. -/
theorem DescriptorOk.congr {ch d : Channel} (h : SameDescriptor ch d) (hok : DescriptorOk ch) : DescriptorOk d := by
  obtain ⟨hdir, husize, hdbm, hhalves, hpar, hm0, hm1, hparTop, hm0Top, hm1Top⟩ := hok
  rw [h]
  exact ⟨hdir, husize, hdbm, hhalves, hpar, hm0, hm1, hparTop, hm0Top, hm1Top⟩

/-- What CFG accepts has the shape of R67. -/
theorem descriptorOk_configure {h : CfgHead} {par m0ar m1ar ndt : Word} (ch : Channel)
    (hv : cfgValid h par m0ar m1ar ndt = true) : DescriptorOk (ch.configure h par m0ar m1ar ndt) := by
  have hcount : ndt.toNat % 2 ^ 16 = (ch.configure h par m0ar m1ar ndt).count :=
    (BitVec.toNat_setWidth 16 ndt).symm
  simp only [cfgValid, hcount, Bool.and_eq_true, Bool.or_eq_true, Bool.not_eq_true', beq_iff_eq,
    decide_eq_true_eq] at hv
  obtain ⟨⟨⟨⟨⟨⟨⟨⟨hdir, husize⟩, -⟩, hdbm⟩, hhalves⟩, ⟨hpar, hm0⟩, hm1⟩, hparTop⟩, hm0Top⟩, hm1Top⟩ := hv
  exact
    { dir := hdir
      usize := fun e => by simp [show h.usize = 3#2 from e] at husize
      dbm := fun e => by simpa [show h.dbm = true from e] using hdbm
      halves := fun e e' =>
        Nat.succ_le_of_lt (by simpa [show h.circ = true from e, show h.dbm = false from e'] using hhalves)
      parAl := hpar
      m0arAl := hm0
      m1arAl := fun e => hm1.resolve_left (by simp [show h.dbm = true from e])
      parTop := hparTop
      m0Top := hm0Top
      m1Top := fun e => hm1Top.resolve_left (by simp [show h.dbm = true from e]) }

/-- An update that keeps the descriptor of the channel it writes keeps every descriptor. -/
theorem sameDescriptor_of_modify {s t : State} {d : Nat} {f : Channel → Channel} (ht : t.chs = s.chs.modify d f)
    (hf : ∀ ch, SameDescriptor ch (f ch)) (c : Nat) : SameDescriptor (s.ch c) (t.ch c) := by
  rw [State.ch_congr (t := s.modCh d f) ht]
  by_cases hd : d < s.numChannels
  · rw [s.modCh_ch d c f hd]
    split
    · next e => exact e ▸ hf (s.ch c)
    · exact .refl (s.ch c)
  · rw [modCh_ch_ge (Nat.not_lt.1 hd)]
    exact .refl (s.ch c)

theorem sameDescriptor_advance (ch : Channel) : SameDescriptor ch ch.advance := by
  rw [Channel.advance_fixed]
  rfl

theorem sameDescriptor_transferStep (s : State) (d c : Nat) :
    SameDescriptor (s.ch c) ((transferStep d s).ch c) := by
  obtain ⟨m, e, -, -⟩ := transferStep_state d s
  have hchs : (transferStep d s).chs = s.chs.modify d Channel.advance := congrArg State.chs e
  exact sameDescriptor_of_modify hchs sameDescriptor_advance c

theorem Dispatched.sameDescriptor {d : Nat} {s t : State} (h : Dispatched d s t) (c : Nat) :
    SameDescriptor (s.ch c) (t.ch c) := by
  by_cases hc : c = d
  · obtain ⟨o0, o1, q, e, -, -⟩ := h.own
    rw [hc, e]
    rfl
  · rw [h.other c hc]
    exact .refl (s.ch c)

theorem sameDescriptor_dispatchStep (s : State) (c : Nat) : SameDescriptor (s.ch c) ((dispatchStep s).ch c) := by
  unfold dispatchStep
  split
  · exact .refl (s.ch c)
  · next d m _ =>
    exact (sameDescriptor_of_modify rfl (fun ch => by exact rfl) c).trans
      ((dispatchClasses_dispatched d m dispatchOrder _).sameDescriptor c)

theorem sameDescriptor_tickStep (s : State) (c : Nat) : SameDescriptor (s.ch c) ((tickStep s).ch c) := by
  have hch : (tickStep s).ch c = (s.ch c).age := List.getD_map s.chs Channel.reset Channel.age
  rw [hch, Channel.age]
  split <;> rfl

/-- The words at `cp` are a valid CFG of channel `c`, which was disabled in IDLE or CONFIGURED and is written by it
(R66, R68). -/
def WrittenByCfg (s t : State) (c : Nat) : Prop :=
  (s.ch c).enabled = false ∧ ((s.ch c).cstate = .idle ∨ (s.ch c).cstate = .configured) ∧
    ∃ d h par m0ar m1ar ndt, d.toNat = c ∧ decode s.fetch = .ok (.cfg d h par m0ar m1ar ndt) ∧
      cfgValid h par m0ar m1ar ndt = true ∧ t.ch c = (s.ch c).configure h par m0ar m1ar ndt

/-- Each rule of the machine keeps every descriptor, but for the one an accepted CFG writes. -/
theorem Effect.descriptor {s t : State} {m : Move} (h : Effect s m t) (c : Nat) :
    SameDescriptor (s.ch c) (t.ch c) ∨ WrittenByCfg s t c := by
  cases h
  case cfg d h par m0ar m1ar ndt hw hi hc en st ok =>
    by_cases e : c = d.toNat
    · subst e
      exact .inr ⟨en, st, d, h, par, m0ar, m1ar, ndt, rfl, hi, ok, s.modCh_ch_same _ _ hc⟩
    · have hne := s.modCh_ch_ne d.toNat c (·.configure h par m0ar m1ar ndt) e
      exact .inl (hne ▸ .refl (s.ch c))
  case transfer d _ => exact .inl (sameDescriptor_transferStep s d c)
  case dispatch => exact .inl (sameDescriptor_dispatchStep s c)
  case tick => exact .inl (sameDescriptor_tickStep s c)
  case start | stop | clrf | sack | sevt | startLate | stopDone | stopLate | swaitTaken | swaitTimeout | swaitStopped |
      swaitLate | ackOn | ackOff | busError | error =>
    refine .inl (sameDescriptor_of_modify rfl (fun ch => ?_) c)
    rfl
  all_goals exact .inl (.refl (s.ch c))

/-- A step that answers a next state is a rule of the machine, applied with a choice or a draw used up. -/
theorem step_effect {s t : State} (h : step s = .next t) :
    ∃ m l n, Effect { s with sched := l, draws := n } m t := by
  obtain ⟨-, m, u, -, hu, hp⟩ := step_next h
  exact ⟨m, u.sched, u.draws, hu ▸ perform_effect hp⟩

/-- Every step keeps every descriptor, but for the one an accepted CFG writes. -/
theorem step_descriptor {s t : State} (h : step s = .next t) (c : Nat) :
    SameDescriptor (s.ch c) (t.ch c) ∨ WrittenByCfg s t c := by
  obtain ⟨m, l, n, he⟩ := step_effect h
  exact he.descriptor c

/-- Settles O60: a step keeps the descriptor or is an accepted CFG of the channel. -/
theorem onlyCfgWritesTheDescriptor : Obligations.OnlyCfgWritesTheDescriptor := by
  intro s t c _ h
  refine (step_descriptor h c).imp_right ?_
  rintro ⟨hen, hst, d, hd, par, m0ar, m1ar, ndt, hdc, hdec, hok, hch⟩
  obtain ⟨hreq, hack⟩ := Bool.or_eq_false_iff.1 hen
  exact ⟨hreq, hack, hst, by rw [hch, Channel.configure_cstate], d, hd, par, m0ar, m1ar, ndt, hdc, hdec, hok⟩

/-! ## The command pointer over a step -/

/-- Where the command pointer stands when the waiting command, if any, has completed (R12). -/
def State.pointerEnd (s : State) : Nat := s.cp + s.hw.pendingLength

/-- From `s` to `t` the command pointer does not move back, and its end moves on at most by words the stream holds. -/
structure PointerMove (s t : State) : Prop where
  mono : s.cp ≤ t.cp
  fits : t.pointerEnd ≤ s.pointerEnd ∨ t.pointerEnd ≤ s.cp + s.fetch.length

/-- A rule that writes neither the pointer nor the wait. -/
theorem pointerMove_of_eq {s t : State} (hcp : t.cp = s.cp) (hhw : t.hw = s.hw) : PointerMove s t :=
  ⟨hcp.ge, .inl (by rw [State.pointerEnd, hcp, hhw, State.pointerEnd])⟩

/-- A host that waits for nothing completes a command whose words the stream holds. -/
theorem pointerMove_of_result {s t : State} {n : Nat} (hw : s.hw = .none) (hn : n ≤ s.fetch.length)
    (hcp : t.cp = s.cp + n) (hhw : t.hw = s.hw) : PointerMove s t := by
  have hend : t.pointerEnd = s.cp + n := by rw [State.pointerEnd, hhw, hw, hcp]; rfl
  exact ⟨by omega, .inr (by omega)⟩

/-- A host opens the wait of a command whose words the stream holds. -/
theorem pointerMove_of_wait {s t : State} {n : Nat} (hn : n ≤ s.fetch.length) (hcp : t.cp = s.cp)
    (hhw : t.hw.pendingLength = n) : PointerMove s t := by
  have hend : t.pointerEnd = s.cp + n := by rw [State.pointerEnd, hhw, hcp]
  exact ⟨hcp.ge, .inr (by omega)⟩

/-- The command that waits completes. -/
theorem pointerMove_of_finish {s t : State} {w : Wait} (hw : s.hw = w) (hcp : t.cp = s.cp + w.pendingLength)
    (hhw : t.hw = .none) : PointerMove s t := by
  have hend : t.pointerEnd = s.pointerEnd := by rw [State.pointerEnd, hhw, hcp, State.pointerEnd, hw]; rfl
  exact ⟨by omega, .inl hend.le⟩

/-- An illegal command has its words in the stream (R58). -/
theorem illegalLength_le {ws : List Word} {r : Reject} (h : decode ws = .error r) (ne : r ≠ .truncated) :
    illegalLength r ≤ ws.length := by
  obtain ⟨hop, hlen⟩ := length_le_of_reject h
  cases r with
  | unknownOpcode => exact hop rfl
  | truncated => exact absurd rfl ne
  | reservedBits n => exact hlen n (.inl rfl)
  | badSize n => exact hlen n (.inr rfl)

/-- An element transfer writes neither the pointer nor the wait. -/
theorem pointerMove_transferStep (c : Nat) (s : State) : PointerMove s (transferStep c s) := by
  obtain ⟨m, e, -, -⟩ := transferStep_state c s
  exact pointerMove_of_eq (by rw [e]) (by rw [e])

theorem Dispatched.cp_eq {c : Nat} {s t : State} (h : Dispatched c s t) : t.cp = s.cp := by rw [h.rest]

theorem Dispatched.hw_eq {c : Nat} {s t : State} (h : Dispatched c s t) : t.hw = s.hw := by rw [h.rest]

/-- Nor does a dispatch. -/
theorem pointerMove_dispatchStep (s : State) : PointerMove s (dispatchStep s) := by
  unfold dispatchStep
  split
  · exact pointerMove_of_eq rfl rfl
  · next c m _ =>
    have hd := dispatchClasses_dispatched c m dispatchOrder
    exact pointerMove_of_eq (hd _).cp_eq (hd _).hw_eq

/-- Each rule of the machine moves the pointer so: an issued command ends or waits within the words it was decoded
from, the command that waited ends with its length, and the other agents move nothing (R12, R31, R58). -/
theorem Effect.pointerMove {s t : State} {m : Move} (h : Effect s m t) : PointerMove s t := by
  cases h
  case illegal hw hi ne => exact pointerMove_of_result hw (illegalLength_le hi ne) rfl rfl
  case answer hw hi st v => exact pointerMove_of_result hw (length_le_of_decode hi) rfl rfl
  case store hw hi _ | cfg hw hi _ _ _ _ | clrf hw hi _ | sack hw hi _ _ _ _ _ | sevt hw hi _ _ =>
    exact pointerMove_of_result hw (length_le_of_decode hi) rfl rfl
  case start hi _ _ | stop hi _ | swait hi _ _ _ | dly hi =>
    exact pointerMove_of_wait (length_le_of_decode hi) rfl rfl
  case startDone hw _ | startLate hw _ | stopDone hw _ | stopLate hw _ | swaitTaken hw _ _ | swaitReported hw _ _ _ |
      swaitStopped hw _ | swaitLate hw _ | dlyDone hw =>
    exact pointerMove_of_finish hw rfl rfl
  case swaitTimeout c t0 n hw _ _ =>
    exact ⟨Nat.le_refl s.cp, .inl (by rw [State.pointerEnd, State.pointerEnd, hw]; exact Nat.le_refl _)⟩
  case transfer c _ => exact pointerMove_transferStep c s
  case dispatch => exact pointerMove_dispatchStep s
  all_goals exact pointerMove_of_eq rfl rfl

/-- A move of the pointer in an unchanged stream keeps its end within the stream. -/
theorem PointerMove.inv {s t : State} (h : PointerMove s t) (hs : t.stream = s.stream) (hp : PointerInv s) :
    PointerInv t := by
  have hfetch : s.fetch.length = s.stream.length - s.cp := List.length_drop
  have hfits := h.fits
  unfold PointerInv State.pointerEnd at *
  rw [hs]
  omega

/-- Settles O56: a descriptor is kept or is one that CFG accepted, and each rule moves the pointer within the stream. -/
theorem stepKeepsDescriptorsAndPointer : Obligations.StepKeepsDescriptorsAndPointer := by
  intro s t h
  obtain ⟨-, -, -, -, hstream, hnum, -⟩ := stepOnlyAppends s t h
  refine ⟨fun hinv c hc => ?_, fun hinv => ?_⟩
  · obtain hsame | ⟨-, -, d, hd, par, m0ar, m1ar, ndt, -, -, hok, hch⟩ := step_descriptor h c
    · exact (hinv c (hnum ▸ hc)).congr hsame
    · exact hch ▸ descriptorOk_configure (s.ch c) hok
  · obtain ⟨m, l, n, he⟩ := step_effect h
    have hmove := he.pointerMove
    exact ⟨hmove.inv hstream hinv, hmove.mono⟩

end Sys2Proof.Machine
end

section
/-! SUPPORT. Memory over a step (R35, R37): every store is in the 32-bit space and so keeps the canonical form, the
host's accesses (R115, R116), and the element a transfer moves (R39, R42, R80). -/

namespace Sys2Proof.Machine

/-! ## The canonical form over a step -/

/-- An access whose bytes are all RAM ends in the 32-bit space. -/
theorem access_end_le {p : Config} {a n : Nat} (hn : 1 ≤ n) (h : allRam p a n = true) : a + n ≤ 2 ^ 32 := by
  obtain ⟨k, rfl⟩ := Nat.exists_eq_add_of_le' hn
  exact allRam_le h

/-- Memory `m'` is `m`, or `m` with bytes of the 32-bit space stored. -/
def Stored (m m' : Memory) : Prop := m' = m ∨ ∃ a n v, a + n ≤ 2 ^ 32 ∧ m' = Memory.writeLE m a n v

/-- Stores keep the canonical form. -/
theorem Stored.wf {m m' : Memory} (h : Stored m m') (hm : Memory.wf m = true) : Memory.wf m' = true := by
  obtain rfl | ⟨a, n, v, ha, rfl⟩ := h
  · exact hm
  · exact Memory.writeLE_wf hm ha

/-- An access that passes its checks ends in the 32-bit space (R114). -/
theorem access_end_le_of_check {s : State} {a : Nat} {sz : BitVec 2}
    (h : s.haccCheck a (accessBytes sz) = none) : a + accessBytes sz ≤ 2 ^ 32 := by
  obtain ⟨-, hram, -⟩ := haccCheck_none.1 h
  exact access_end_le (accessBytes_pos sz) (allRam_eq_true.2 hram)

/-- An element whose target is RAM ends in the 32-bit space (R84). -/
theorem target_end_le {p : Config} {ch : Channel} (h : ch.targetInRam p = true) :
    ch.maddr ch.index + ch.ub ≤ 2 ^ 32 :=
  access_end_le (unitBytes_pos ch.usize) h

theorem stored_transferStep {c : Nat} {s : State} (ram : (s.ch c).targetInRam s.params = true) :
    Stored s.mem (transferStep c s).mem := by
  obtain ⟨m, e, -, hm⟩ := transferStep_state c s
  rw [e]
  exact hm.imp_right fun e' => ⟨_, _, _, target_end_le ram, e'⟩

@[simp] theorem dispatchStep_mem (s : State) : (dispatchStep s).mem = s.mem := by
  unfold dispatchStep
  split
  · rfl
  · next c m _ => rw [(dispatchClasses_dispatched c m dispatchOrder _).rest, State.modCh_mem]

/-- Each rule of the machine leaves memory alone, but for HWR and the element transfer, which store in RAM. -/
theorem Effect.stored {s t : State} {m : Move} (h : Effect s m t) : Stored s.mem t.mem := by
  cases h
  case store sz a v _ _ ok => exact .inr ⟨a.toNat, accessBytes sz, v.toNat, access_end_le_of_check ok, rfl⟩
  case transfer c ram => exact stored_transferStep ram
  case dispatch => exact .inl (dispatchStep_mem s)
  all_goals exact .inl rfl

/-- Settles O57: the rule the step applies stores in the 32-bit space or not at all. -/
theorem stepKeepsMemoryCanonical : Obligations.StepKeepsMemoryCanonical := by
  intro s t hm h
  obtain ⟨m, l, n, he⟩ := step_effect h
  exact he.stored.wf hm

/-! ## The host's accesses -/

/-- Byte `k` of a word, by division. -/
theorem extractLsb'_byte (v : Word) (k : Nat) : v.extractLsb' (8 * k) 8 = BitVec.ofNat 8 (v.toNat / 256 ^ k) := by
  rw [BitVec.extractLsb', Nat.shiftRight_eq_div_pow, Nat.pow_mul]

/-- A legal host access is at most a word wide (R56). -/
theorem accessBytes_le {sz : BitVec 2} (h : sz ≠ 3#2) : accessBytes sz ≤ 4 := by
  revert sz
  decide

/-- A read of at most four bytes is a word. -/
theorem toNat_readLE (m : Memory) (a : Nat) {n : Nat} (hn : n ≤ 4) :
    (BitVec.ofNat 32 (Memory.readLE m a n)).toNat = Memory.readLE m a n := by
  have hlt : Memory.readLE m a n < 256 ^ 4 := (Memory.readLE_lt m a n).trans_le (Nat.pow_le_pow_right (by decide) hn)
  rw [BitVec.toNat_ofNat]
  exact Nat.mod_eq_of_lt hlt

/-- Byte `k` of the word read is the byte at its address (R37). -/
theorem extractLsb'_readLE (m : Memory) (a : Nat) {n k : Nat} (hn : n ≤ 4) (hk : k < n) :
    (BitVec.ofNat 32 (Memory.readLE m a n)).extractLsb' (8 * k) 8 = Memory.read m (a + k) := by
  rw [extractLsb'_byte, toNat_readLE m a hn]
  refine BitVec.eq_of_toNat_eq ?_
  rw [BitVec.toNat_ofNat]
  exact Memory.readLE_byte m hk

theorem exec_hrd_of_check {s : State} {sz : BitVec 2} {a : Word}
    (h : s.haccCheck a.toNat (accessBytes sz) = none) :
    exec (.hrd sz a) s =
      .next (s.result 2 .ok (BitVec.ofNat 32 (Memory.readLE s.mem a.toNat (accessBytes sz)))) := by
  simp only [exec, execHrd, h]

theorem exec_hwr_of_check {s : State} {sz : BitVec 2} {a v : Word}
    (h : s.haccCheck a.toNat (accessBytes sz) = none) :
    exec (.hwr sz a v) s =
      .next (({ s with mem := Memory.writeLE s.mem a.toNat (accessBytes sz) v.toNat } : State).result 3 .ok 0) := by
  simp only [exec, execHwr, h]

/-- Settles O30: the access passes its check, and the word read has the bytes of memory. -/
theorem hrdReadsLittleEndian : Obligations.HrdReadsLittleEndian := by
  intro s sz a hsz n hal hram hslot
  have hn : accessBytes sz ≤ 4 := accessBytes_le hsz
  refine ⟨_, exec_hrd_of_check (haccCheck_none.2 ⟨hal, hram, hslot⟩), ?_, fun k hk => ?_⟩
  · rw [toNat_readLE s.mem _ hn]
    exact Memory.readLE_lt s.mem a.toNat n
  · exact extractLsb'_readLE s.mem a.toNat hn hk

/-- Settles O31: the access passes its check, and the store has its bytes inside and its frame outside. -/
theorem hwrStoresLittleEndian : Obligations.HwrStoresLittleEndian := by
  intro s sz a v hsz hm n hal hram hslot
  have hcheck : s.haccCheck a.toNat (accessBytes sz) = none := haccCheck_none.2 ⟨hal, hram, hslot⟩
  refine ⟨_, exec_hwr_of_check hcheck, rfl, fun k hk => ?_, fun d hd => ?_⟩
  · rw [extractLsb'_byte]
    exact Memory.read_writeLE_inside hm v.toNat hk (access_end_le_of_check hcheck)
  · exact Memory.read_writeLE_outside s.mem v.toNat hd

/-! ## The element a transfer moves -/

/-- A transfer step whose target is RAM is an element transfer (R80, R84). -/
theorem perform_xfer_of_ram {s : State} {c : Nat} (h : (s.ch c).targetInRam s.params = true) :
    perform (.xfer c) s = .next (transferStep c s) := by
  simp only [perform, xferStep, if_pos h]

/-- The flag events of an element transfer, by the counters (R80). -/
theorem advanceEvents_eq (c : Nat) (ch : Channel) :
    ch.advanceEvents c =
      (if 2 ≤ ch.count ∧ ch.index + 1 = ch.count / 2 then [.flag c .ht] else []) ++
        (if ch.ndtr = 1 then [.flag c .tc] else []) := by
  simp only [Channel.advanceEvents, Channel.atHalf_eq, Channel.atFull_eq]

/-- Flag events neither make nor answer a write (R42). -/
theorem loopbackQueue_advanceEvents (a c : Nat) (ch : Channel) (q : List (Nat × Nat)) :
    loopbackQueue a (ch.advanceEvents c) q = q := by
  unfold Channel.advanceEvents
  split <;> split <;> rfl

/-- What an element transfer records: the access `e`, the transfer of `v` and its flags, in that order (R80). -/
def transferRecord (c : Nat) (ch : Channel) (e : HistEvent) (v : Nat) : List HistEvent :=
  [e, .xfer c ch.curSlot ch.index (ch.maddr ch.index) (ch.paddr ch.index) v] ++ ch.advanceEvents c

/-- Of a transfer's record the access alone bears on the writes waiting (R42). -/
theorem loopbackQueue_transferRecord (a c : Nat) (ch : Channel) (e : HistEvent) (v : Nat) (q : List (Nat × Nat)) :
    loopbackQueue a (transferRecord c ch e v) q = loopbackQueue a [e] q := by
  rw [transferRecord, loopbackQueue_append, loopbackQueue_advanceEvents]
  cases e <;> rfl

/-- A transfer that reads the peripheral takes the oldest write waiting there (R42). -/
theorem waiting_after_read (h : List HistEvent) (a b c n v : Nat) (ch : Channel) :
    loopbackQueue a (h ++ transferRecord c ch (.periphRead c b n v) v) [] =
      if a = b then (loopbackQueue a h []).tail else loopbackQueue a h [] := by
  rw [loopbackQueue_append, loopbackQueue_transferRecord]
  simp only [loopbackQueue, eq_comm (a := b)]

/-- A transfer that writes the peripheral adds its value behind the writes waiting there (R42). -/
theorem waiting_after_write (h : List HistEvent) (a b c n v : Nat) (ch : Channel) :
    loopbackQueue a (h ++ transferRecord c ch (.periphWrite c b n v) v) [] =
      if a = b then loopbackQueue a h [] ++ [(n, v)] else loopbackQueue a h [] := by
  rw [loopbackQueue_append, loopbackQueue_transferRecord]
  simp only [loopbackQueue, eq_comm (a := b)]

/-- An element transfer from the peripheral: the answer is stored at the element's address and recorded (R80). -/
theorem transferStep_in {s : State} {c : Nat} (h : (s.ch c).dir = 0#2) :
    let ch := s.ch c
    let r := s.periphRead c (ch.paddr ch.index) ch.ub
    transferStep c s =
      { s with
        chs := s.chs.modify c Channel.advance, mem := Memory.writeLE s.mem (ch.maddr ch.index) ch.ub r.1
        answers := r.2.answers, draws := r.2.draws
        hist := s.hist ++ transferRecord c ch (.periphRead c (ch.paddr ch.index) ch.ub r.1) r.1 } := by
  simp only [transferStep, moveElement_in h]
  rw [periphRead_state]
  simp [State.record, State.modCh, transferRecord]

/-- An element transfer to the peripheral: the value at the element's address is recorded (R80). -/
theorem transferStep_out {s : State} {c : Nat} (h : (s.ch c).dir ≠ 0#2) :
    let ch := s.ch c
    let v := Memory.readLE s.mem (ch.maddr ch.index) ch.ub
    transferStep c s =
      { s with
        chs := s.chs.modify c Channel.advance
        hist := s.hist ++ transferRecord c ch (.periphWrite c (ch.paddr ch.index) ch.ub v) v } := by
  simp only [transferStep, moveElement_out h]
  simp [State.record, State.modCh, transferRecord]

/-- The record of a transfer, written out. -/
theorem append_transferRecord (l : List HistEvent) (c : Nat) (ch : Channel) (e : HistEvent) (v : Nat) :
    l ++ transferRecord c ch e v =
      l ++ [e, .xfer c ch.curSlot ch.index (ch.maddr ch.index) (ch.paddr ch.index) v] ++
        (if 2 ≤ ch.count ∧ ch.index + 1 = ch.count / 2 then [.flag c .ht] else []) ++
        (if ch.ndtr = 1 then [.flag c .tc] else []) := by
  simp only [transferRecord, advanceEvents_eq, List.append_assoc]

/-- Settles O35: the answer is the oracle's, the store has its bytes inside and its frame outside, and the read takes
the oldest write waiting. -/
theorem transferFromPeripheral : Obligations.TransferFromPeripheral := by
  intro s c _ _ _ hdir hm ch i ub waiting mismatched hram
  have htarget : ch.targetInRam s.params = true := allRam_eq_true.2 hram
  have hstep := perform_xfer_of_ram htarget
  rw [transferStep_in hdir] at hstep
  refine ⟨_, (s.periphRead c (ch.paddr i) ub).1, hstep, periphRead_lt s c _ ub, fun k hk => ?_, fun d hd => ?_,
    fun ho hw x l hq => ?_, fun hfree x l ha => ?_, fun a => ?_, append_transferRecord _ _ _ _ _, rfl⟩
  · have hbyte := Memory.read_writeLE_inside hm (s.periphRead c (ch.paddr i) ub).1 hk (target_end_le htarget)
    exact (congrArg BitVec.toNat hbyte).trans (BitVec.toNat_ofNat _ 8)
  · exact Memory.read_writeLE_outside s.mem _ hd
  · have hnative : ∀ w, s.params.nativeWidth c (ch.paddr i) = some w → w = ub := fun w e =>
      by_contra fun ne => hw ⟨w, e, ne⟩
    have hread := periphRead_loopback ho hnative hq
    exact ⟨congrArg Prod.fst hread, congrArg (fun r => r.2.answers) hread, congrArg (fun r => r.2.draws) hread⟩
  · have hread := periphRead_scripted (oracleAnswer_free hfree) ha
    exact ⟨congrArg Prod.fst hread, congrArg (fun r => r.2.answers) hread, congrArg (fun r => r.2.draws) hread⟩
  · exact waiting_after_read s.hist a _ c _ _ ch

/-- Settles O36: the value read has the bytes of memory, which stays, and the write waits behind those before it. -/
theorem transferToPeripheral : Obligations.TransferToPeripheral := by
  intro s c _ _ _ hdir ch i ub waiting hram
  have hstep := perform_xfer_of_ram (allRam_eq_true.2 hram)
  rw [transferStep_out hdir] at hstep
  refine ⟨_, Memory.readLE s.mem (ch.maddr i) ub, hstep, Memory.readLE_lt s.mem _ ub,
    fun k hk => Memory.readLE_byte s.mem hk, fun a => waiting_after_write s.hist a _ c _ _ ch,
    append_transferRecord _ _ _ _ _, rfl⟩

end Sys2Proof.Machine
end

section
/-! SUPPORT. Encoding and decoding (R50 to R58): the fields a head word is read into, the words of a built command, and
the decoder's checks in their order. -/

namespace Sys2Proof

/-! ## Decoding an encoded command -/

/-- No opcode bit is a reserved bit (R50, R57). -/
theorem place_code_and_reserved (o : Op) : place 26 o.code &&& o.reserved = 0#32 := by
  cases o <;> decide

/-- Of a head word the channel field and the fields below can set a reserved bit. -/
theorem headOf_and_reserved (o : Op) {c : BitVec 4} {low : Word} (hc : place 22 c &&& o.reserved = 0#32)
    (hl : low &&& o.reserved = 0#32) : headOf o c low &&& o.reserved = 0#32 := by
  rw [headOf, BitVec.and_or_distrib_right, BitVec.and_or_distrib_right, place_code_and_reserved, hc, hl,
    BitVec.or_zero, BitVec.or_zero]

/-- A head word with no reserved bit and no illegal size, followed by its operand words, decodes to what is built from
them. -/
theorem decode_headOf {o : Op} {c : BitVec 4} {low : Word} {ops : List Word}
    (h22 : ∀ i, 22 ≤ i → low.getLsbD i = false) (hlen : o.len ≤ ops.length + 1)
    (hc : place 22 c &&& o.reserved = 0#32) (hl : low &&& o.reserved = 0#32)
    (hsz : o.hasSize = true → szField (headOf o c low) ≠ 3#2) :
    decode (headOf o c low :: ops) = .ok (o.build (headOf o c low) ops) := by
  rw [decode_cons_of_op (opField_headOf o c low h22)]
  exact decodeOp_ok.2 ⟨hlen, headOf_and_reserved o hc hl, fun h => hsz h.1 h.2, rfl⟩

/-- The opcode has a channel field (R50, R55, R56). -/
def Op.hasChannel (o : Op) : Bool := !(o == .dly || o.hasSize)

/-- A channel field is not reserved (R57). -/
theorem place_chan_and_reserved {o : Op} (h : o.hasChannel = true) (c : BitVec 4) :
    place 22 c &&& o.reserved = 0#32 := by
  revert h c
  cases o <;> decide

/-- A command of a channel field and nothing below it (R53). -/
theorem decode_headOf_plain {o : Op} (c : BitVec 4) {ops : List Word} (ho : o.hasChannel = true)
    (hlen : o.len ≤ ops.length + 1) (hsz : o.hasSize = false) :
    decode (headOf o c 0 :: ops) = .ok (o.build (headOf o c 0) ops) :=
  decode_headOf zero_low hlen (place_chan_and_reserved ho c) BitVec.zero_and (by simp [hsz])

@[simp] theorem chField_headOf_zero (o : Op) (c : BitVec 4) : chField (headOf o c 0#32) = c :=
  chField_headOf o c 0 zero_low

/-- The size field of HRD and HWR is read back (R56). -/
@[simp] theorem szField_headOf_place (o : Op) (c : BitVec 4) (sz : BitVec 2) :
    szField (headOf o c (place 0 sz)) = sz :=
  (field_headOf_low o c _ 0 2 (by decide)).trans (field_place_zero sz (by decide))

/-- The configuration fields set no reserved bit (R52). -/
theorem cfgBits_and_reserved (h : CfgHead) : cfgBits h &&& Op.cfg.reserved = 0#32 := by
  have hres : ∀ i, i < 32 → Op.cfg.reserved.getLsbD i = true → i = 0 ∨ 16 ≤ i := by decide
  refine (reserved_zero .cfg _).2 fun i hi hr => ?_
  rw [getLsbD_cfgBits]
  obtain rfl | h16 := hres i hi hr
  · simp
  · simp
    omega

theorem decode_encode_cfg (c : BitVec 4) (h : CfgHead) (par m0ar m1ar ndt : Word) (rest : List Word) :
    decode (encode (.cfg c h par m0ar m1ar ndt) ++ rest) = .ok (.cfg c h par m0ar m1ar ndt) := by
  refine (decode_headOf (cfgBits_low h) (by simp [Op.len]) (place_chan_and_reserved rfl c) (cfgBits_and_reserved h)
    (by simp [Op.hasSize])).trans ?_
  simp [Op.build, chField_headOf _ c _ (cfgBits_low h), cfgHeadOf_headOf]

theorem decode_encode_clrf (c : BitVec 4) (mask : BitVec 5) (rest : List Word) :
    decode (encode (.clrf c mask) ++ rest) = .ok (.clrf c mask) := by
  have hl : place 0 mask &&& Op.clrf.reserved = 0#32 := by
    revert mask
    decide
  have h22 := place_low (show 5 ≤ 22 by decide) mask
  refine (decode_headOf h22 (by simp [Op.len]) (place_chan_and_reserved rfl c) hl (by simp [Op.hasSize])).trans ?_
  simp [Op.build, chField_headOf _ c _ h22, field_headOf_low _ c _ 0 5 (by decide), field_place_zero mask (by decide)]

/-- HRD and HWR: a size that is not 11 decodes (R56). -/
theorem decode_headOf_sized {o : Op} {sz : BitVec 2} {ops : List Word} (hres : o.reserved = 0x03FFFFFC#32)
    (hlen : o.len ≤ ops.length + 1) (hsz : SizeOk sz) :
    decode (headOf o 0 (place 0 sz) :: ops) = .ok (o.build (headOf o 0 (place 0 sz)) ops) := by
  have hl : place 0 sz &&& 0x03FFFFFC#32 = 0#32 := by
    revert sz
    decide
  refine decode_headOf (place_low (by decide) sz) hlen ?_ (hres ▸ hl) fun _ => ?_
  · rw [hres]
    decide
  · rwa [szField_headOf_place]

/-- Settles O1: the head word passes the checks of R57, and each field is read back as it was put. -/
theorem encodedCommandDecodesToItself : Obligations.EncodedCommandDecodesToItself := by
  intro i rest hwf
  cases i with
  | cfg c h par m0ar m1ar ndt => exact decode_encode_cfg c h par m0ar m1ar ndt rest
  | clrf c mask => exact decode_encode_clrf c mask rest
  | dly n => exact decode_headOf (o := .dly) zero_low (by simp [Op.len]) (by decide) (by decide) (by decide)
  | hrd sz a =>
    refine (decode_headOf_sized (o := .hrd) rfl (by simp [Op.len]) hwf).trans ?_
    simp [Op.build]
  | hwr sz a v =>
    refine (decode_headOf_sized (o := .hwr) rfl (by simp [Op.len]) hwf).trans ?_
    simp [Op.build]
  | start c | stop c | rdstat c | rdcnt c | rdcr c | sack c | sevt c | swait c t =>
    refine (decode_headOf_plain c rfl (by simp [Op.len]) rfl).trans ?_
    simp [Op.build]

/-! ## The words of a decoded command -/

/-- The channel field a command of the opcode is built from; 0 where the format has none (R50, R55, R56). -/
def Op.chan (o : Op) (w : Word) : BitVec 4 := if o.hasChannel then chField w else 0

/-- The fields below the channel field a command of the opcode is built from, at their places (R52 to R56). -/
def Op.low : Op → Word → Word
  | .cfg, w => cfgBits (cfgHeadOf w)
  | .clrf, w => place 0 (field w 0 5)
  | .hrd, w | .hwr, w => place 0 (szField w)
  | .start, _ | .stop, _ | .rdstat, _ | .rdcnt, _ | .rdcr, _ | .swait, _ | .sack, _ | .sevt, _ | .dly, _ => 0

/-- The words of a built command are its fields and its operand words. -/
theorem encode_build (o : Op) (w : Word) (ops : List Word) :
    encode (o.build w ops) = headOf o (o.chan w) (o.low w) :: (List.range (o.len - 1)).map (ops.getD · 0) := by
  cases o <;> rfl

/-- The configuration fields are bits 15:1 of the word they are read from (R52). -/
theorem getLsbD_cfgBits_cfgHeadOf (w : Word) (i : Nat) :
    (cfgBits (cfgHeadOf w)).getLsbD i = (decide (1 ≤ i ∧ i < 16) && w.getLsbD i) := by
  rw [getLsbD_cfgBits]
  by_cases hi : i < 16
  · interval_cases i <;> simp [cfgHeadOf, getLsbD_field, -BitVec.getLsbD_eq_getElem]
  · simp [hi]
    omega

/-- A field read at bit 0 and placed there is the low bits of the word. -/
theorem getLsbD_place_field (w : Word) {n : Nat} (hn : n ≤ 32) (i : Nat) :
    (place 0 (field w 0 n)).getLsbD i = (decide (i < n) && w.getLsbD i) := by
  rw [getLsbD_place, getLsbD_field]
  by_cases hi : i < n
  · simp [hi, hi.trans_le hn]
  · simp [hi]

/-- The channel field is read, or reserved (R57, check 3). -/
theorem getLsbD_chan (o : Op) (w : Word) {i : Nat} (hi : i < 4) :
    (o.chan w).getLsbD i = (!o.reserved.getLsbD (22 + i) && w.getLsbD (22 + i)) := by
  have hres : ∀ j, j < 4 → (!o.reserved.getLsbD (22 + j)) = o.hasChannel := by cases o <;> decide
  rw [hres i hi, Op.chan]
  split
  · next h => rw [h, Bool.true_and, chField, getLsbD_field, decide_eq_true hi, Bool.true_and]
  · next h => simp [h]

/-- Below the channel field each bit is read into a field, or reserved (R57, check 3). -/
theorem getLsbD_low (o : Op) (w : Word) {i : Nat} (hi : i < 22) :
    (o.low w).getLsbD i = (!o.reserved.getLsbD i && w.getLsbD i) := by
  cases o with
  | cfg =>
    have hres : ∀ j, j < 22 → (!Op.cfg.reserved.getLsbD j) = decide (1 ≤ j ∧ j < 16) := by decide
    rw [hres i hi]
    exact getLsbD_cfgBits_cfgHeadOf w i
  | clrf =>
    have hres : ∀ j, j < 22 → (!Op.clrf.reserved.getLsbD j) = decide (j < 5) := by decide
    rw [hres i hi]
    exact getLsbD_place_field w (by decide) i
  | hrd | hwr =>
    have hres : ∀ j, j < 22 → (!(0x03FFFFFC#32).getLsbD j) = decide (j < 2) := by decide
    simp only [Op.reserved, hres i hi]
    exact getLsbD_place_field w (by decide) i
  | dly =>
    have hres : ∀ j, j < 22 → Op.dly.reserved.getLsbD j = true := by decide
    simp [Op.low, hres i hi]
  | start | stop | rdstat | rdcnt | rdcr | swait | sack | sevt =>
    have hres : ∀ j, j < 22 → (0x003FFFFF#32).getLsbD j = true := by decide
    simp [Op.low, Op.reserved, hres i hi]

theorem low_low (o : Op) (w : Word) : ∀ i, 22 ≤ i → (o.low w).getLsbD i = false := by
  cases o with
  | cfg => exact cfgBits_low _
  | clrf | hrd | hwr => exact place_low (by decide) _
  | start | stop | rdstat | rdcnt | rdcr | swait | sack | sevt | dly => exact zero_low

/-- A head word is its opcode, its channel field and the bits below (R50). -/
theorem eq_headOf {o : Op} {c : BitVec 4} {low w : Word} (h22 : ∀ i, 22 ≤ i → low.getLsbD i = false)
    (hop : opField w = o.code) (hch : chField w = c) (hlow : ∀ i, i < 22 → w.getLsbD i = low.getLsbD i) :
    w = headOf o c low := by
  refine BitVec.eq_of_getLsbD_eq fun i hi => ?_
  by_cases h : i < 22
  · rw [hlow i h, getLsbD_headOf_low _ _ _ _ h]
  · subst hch
    rw [getLsbD_headOf, ← hop, h22 i (by omega), opField, chField, getLsbD_field, getLsbD_field]
    by_cases h26 : i < 26
    · simp [hi, show 22 ≤ i by omega, show ¬ 26 ≤ i by omega, show i - 22 < 4 by omega]
    · simp [hi, show 22 ≤ i by omega, show 26 ≤ i by omega, show i - 26 < 6 by omega, show ¬ i - 22 < 4 by omega]

/-- A head word of the opcode with no reserved bit is the head word of the command built from it. -/
theorem headOf_of_reserved {o : Op} {w : Word} (hop : opField w = o.code) (hr : w &&& o.reserved = 0#32) :
    headOf o (o.chan w) (o.low w) = w := by
  have hread : ∀ i, i < 32 → (!o.reserved.getLsbD i && w.getLsbD i) = w.getLsbD i := by
    intro i hi
    cases e : o.reserved.getLsbD i
    · simp
    · simp [(reserved_zero o w).1 hr i hi e]
  refine (eq_headOf (low_low o w) hop (BitVec.eq_of_getLsbD_eq fun i hi => ?_) fun i hi => ?_).symm
  · rw [getLsbD_chan o w hi, hread (22 + i) (by omega), chField, getLsbD_field]
    simp [hi]
  · rw [getLsbD_low o w hi, hread i (by omega)]

/-- The first words of a list, read one by one. -/
theorem take_eq_map_getD {n : Nat} {l : List Word} (h : n ≤ l.length) :
    l.take n = (List.range n).map (l.getD · 0) := by
  refine List.ext_getElem (by simp [h]) fun i hi _ => ?_
  have : i < l.length := by simp at hi; omega
  simp [this]

/-- A command with a size field is well-formed when the size is not 11 (R56). -/
theorem wellFormed_build {o : Op} {w : Word} (ops : List Word) (h : ¬ (o.hasSize = true ∧ szField w = 3#2)) :
    (o.build w ops).WellFormed := by
  cases o with
  | hrd | hwr => exact fun e => h ⟨rfl, e⟩
  | cfg | start | stop | rdstat | clrf | rdcnt | rdcr | swait | sack | sevt | dly => trivial

/-- A head word that decodes has the opcode of a row and passes checks 2 and 3 (R57). -/
theorem exists_op_of_decode {w : Word} {ops : List Word} {i : Instr} (h : decode (w :: ops) = .ok i) :
    ∃ o : Op, opField w = o.code ∧ decodeOp o w ops = .ok i := by
  rw [decode] at h
  split at h
  · simp at h
  · next o ho => exact ⟨o, (Op.ofCode_eq_some.1 ho).symm, h⟩

/-- Settles O2: the checks leave no bit of the head word but the opcode and the fields, and the operands are the words
after it. -/
theorem decodedWordsAreTheEncoding : Obligations.DecodedWordsAreTheEncoding := by
  intro ws i h
  cases ws with
  | nil => simp [decode] at h
  | cons w ops =>
    obtain ⟨o, hop, hdec⟩ := exists_op_of_decode h
    obtain ⟨hlen, hr, hsz, rfl⟩ := decodeOp_ok.1 hdec
    refine ⟨wellFormed_build ops hsz, ?_⟩
    have hpos : o.len = (o.len - 1) + 1 := by cases o <;> rfl
    rw [encode_build, headOf_of_reserved hop hr, Op.build_length, hpos, List.take_succ_cons,
      take_eq_map_getD (by omega), Nat.add_sub_cancel]

/-! ## The checks of the decoder -/

/-- The match, the mask and the length of the opcode's row (R51). -/
def Op.row (o : Op) : Word × Word × Nat := (place 26 o.code, 0xFC000000#32 ||| o.reserved, o.len)

/-- The opcode field by division. -/
theorem toNat_opField (w : Word) : (opField w).toNat = w.toNat / 2 ^ 26 := by
  rw [opField, field, BitVec.extractLsb'_toNat, Nat.shiftRight_eq_div_pow]
  omega

theorem toNat_szField (w : Word) : (szField w).toNat = w.toNat % 4 := by
  rw [szField, field, BitVec.extractLsb'_toNat, Nat.shiftRight_zero]

/-- The opcode is read from the match of its row. -/
theorem toNat_row_match (o : Op) : o.row.1.toNat / 2 ^ 26 = o.code.toNat := by
  cases o <;> rfl

/-- A head word has the opcode of a row when it agrees with the match in the opcode field. -/
theorem opField_eq_code_iff (o : Op) (w : Word) : opField w = o.code ↔ w.toNat / 2 ^ 26 = o.row.1.toNat / 2 ^ 26 := by
  rw [toNat_row_match, ← toNat_opField, BitVec.toNat_inj]

/-- The mask of the opcode field leaves the opcode. -/
theorem and_opMask (w : Word) : w &&& 0xFC000000#32 = place 26 (opField w) := by
  have hmask : ∀ i, i < 32 → (0xFC000000#32).getLsbD i = decide (26 ≤ i) := by decide
  refine BitVec.eq_of_getLsbD_eq fun i hi => ?_
  rw [BitVec.getLsbD_and, hmask i hi, getLsbD_place, opField, getLsbD_field]
  by_cases h : 26 ≤ i
  · simp [h, hi, show i - 26 < 6 by omega]
  · simp [h]

/-- Under the mask of its opcode's row a head word is the match exactly when no reserved bit is set (R57, check 3). -/
theorem and_mask_eq_match_iff {o : Op} {w : Word} (hop : opField w = o.code) :
    w &&& o.row.2.1 = o.row.1 ↔ w &&& o.reserved = 0#32 := by
  simp only [Op.row, BitVec.and_or_distrib_left, and_opMask, hop]
  constructor
  · intro h
    have hdisj := place_code_and_reserved o
    calc w &&& o.reserved
        = (place 26 o.code ||| w &&& o.reserved) &&& o.reserved := by
          rw [BitVec.and_or_distrib_right, hdisj, BitVec.and_assoc, BitVec.and_self, BitVec.zero_or]
      _ = 0#32 := by rw [h, hdisj]
  · intro h
    rw [h, BitVec.or_zero]

/-- HRD and HWR are the opcodes with a size field. -/
theorem hasSize_iff {o : Op} {w : Word} (hop : opField w = o.code) :
    o.hasSize = true ↔ w.toNat / 2 ^ 26 = 0x10 ∨ w.toNat / 2 ^ 26 = 0x11 := by
  rw [← toNat_opField, hop]
  cases o <;> decide

theorem szField_eq_three_iff (w : Word) : szField w = 3#2 ↔ w.toNat % 4 = 3 := by
  rw [← toNat_szField, ← BitVec.toNat_inj]
  rfl

/-- The opcodes are those of the table (R51). -/
theorem mem_all (o : Op) : o ∈ Op.all := by
  cases o <;> decide

/-- Check 1: a head word whose opcode field is no row's (R57). -/
theorem decode_of_unknown {w : Word} {ops : List Word} (h : ∀ o : Op, opField w ≠ o.code) :
    decode (w :: ops) = .error .unknownOpcode := by
  have hnone : Op.ofCode (opField w) = none :=
    Option.eq_none_iff_forall_ne_some.2 fun o ho => h o (Op.ofCode_eq_some.1 ho).symm
  rw [decode, hnone]

section checks

variable {o : Op} {w : Word} {ops : List Word}

/-- Check 2 (R57). -/
theorem decodeOp_of_short (h : ops.length + 1 < o.len) : decodeOp o w ops = .error .truncated := if_pos h

/-- Check 3, the reserved bits (R57). -/
theorem decodeOp_of_reserved (hlen : o.len ≤ ops.length + 1) (hr : w &&& o.reserved ≠ 0#32) :
    decodeOp o w ops = .error (.reservedBits o.len) := by
  rw [decodeOp, if_neg (Nat.not_lt.2 hlen), if_pos hr]

/-- Check 3, the size field (R57). -/
theorem decodeOp_of_size (hlen : o.len ≤ ops.length + 1) (hr : w &&& o.reserved = 0#32)
    (hsz : o.hasSize = true ∧ szField w = 3#2) : decodeOp o w ops = .error (.badSize o.len) := by
  rw [decodeOp, if_neg (Nat.not_lt.2 hlen), if_neg (not_not_intro hr), if_pos hsz]

end checks

/-- Settles O4: the rows are those of the opcodes, and the checks of R57 are made in their order. -/
theorem decodeChecksInOrder : Obligations.DecodeChecksInOrder := by
  intro w ops rows sized
  have hrows : rows = Op.all.map Op.row := by decide
  rw [hrows, List.forall_mem_map, List.forall_mem_map]
  refine ⟨fun h => decode_of_unknown fun o ho => h o (mem_all o) ((opField_eq_code_iff o w).1 ho), fun o _ heq => ?_⟩
  have hop : opField w = o.code := (opField_eq_code_iff o w).2 heq
  have hsize : sized ∧ w.toNat % 4 = 3 ↔ o.hasSize = true ∧ szField w = 3#2 :=
    and_congr (hasSize_iff hop).symm (szField_eq_three_iff w).symm
  rw [decode_cons_of_op hop, ← and_imp (a := sized), hsize, ne_eq, and_mask_eq_match_iff hop]
  refine ⟨decodeOp_of_short, decodeOp_of_reserved, decodeOp_of_size, fun hlen hr hsz => ?_⟩
  exact ⟨o.build w ops, decodeOp_ok.2 ⟨hlen, hr, hsz, rfl⟩, wellFormed_build ops hsz, o.build_length w ops⟩

/-- Settles O3: the words are literals, so the decoder is run on them. -/
theorem wordsOfTheSpecDecode : Obligations.WordsOfTheSpecDecode := by
  unfold Obligations.WordsOfTheSpecDecode
  decide

end Sys2Proof
end

section
/-! SUPPORT. The words the commands answer (R61 to R63), the commands' answers (R57 to R59, R74 to R77, R107), and the
frame of every command (R58, R66 to R77, R102 to R108, R115, R116). -/

namespace Sys2Proof

/-! ## The fields of a computed word -/

/-- A placed field is read back at its place. -/
@[simp] theorem extractLsb'_place_self {n lo : Nat} (x : BitVec n) (h : lo + n ≤ 32) :
    (place lo x).extractLsb' lo n = x := by
  refine BitVec.eq_of_getLsbD_eq fun i hi => ?_
  rw [BitVec.getLsbD_extractLsb', getLsbD_place]
  simp [hi, show lo + i < 32 by omega]

/-- Beside its place a placed field is 0. -/
@[simp] theorem extractLsb'_place_disjoint {m n lo lo' : Nat} (x : BitVec m) (h : lo + n ≤ lo' ∨ lo' + m ≤ lo) :
    (place lo' x).extractLsb' lo n = 0#n := by
  refine BitVec.eq_of_getLsbD_eq fun i hi => ?_
  rw [BitVec.getLsbD_extractLsb', getLsbD_place, BitVec.getLsbD_zero]
  obtain h | h := h
  · simp [show ¬ lo' ≤ lo + i by omega]
  · simp [BitVec.getLsbD_of_ge x (lo + i - lo') (by omega)]

namespace Machine

open Safety

theorem Owner.bit_eq (o : Owner) : o.bit = decide (o = .hw) := by
  cases o <;> rfl

/-- The single bits of the status word (R61). -/
theorem statusWord_bits (k : Bool) (ch : Channel) :
    let v := statusWord k ch
    (v.getLsbD 0 = ch.flags.tc ∧ v.getLsbD 1 = ch.flags.ht ∧ v.getLsbD 2 = ch.flags.te ∧ v.getLsbD 3 = ch.flags.fe ∧
      v.getLsbD 4 = ch.flags.dme) ∧
    (v.getLsbD 11 = false ∧ v.getLsbD 12 = decide (ch.own0 = .hw) ∧ v.getLsbD 13 = decide (ch.own1 = .hw)) ∧
    v.getLsbD 19 = false ∧ v.getLsbD 31 = k := by
  simp [getLsbD_statusWord, getLsbD_placeFlags, Owner.bit_eq, -BitVec.getLsbD_eq_getElem]

/-- The fields of the status word (R61). -/
theorem statusWord_fields (k : Bool) (ch : Channel) :
    let v := statusWord k ch
    v.extractLsb' 5 3 = 0#3 ∧ v.extractLsb' 8 3 = ch.cstate.code ∧ v.extractLsb' 14 2 = 0#2 ∧
      v.extractLsb' 16 3 = ch.perr.code ∧ v.extractLsb' 20 8 = BitVec.ofNat 8 ch.evq.length ∧
      v.extractLsb' 28 3 = 0#3 := by
  simp (disch := decide) [statusWord, placeFlags, placeBit, BitVec.extractLsb'_or]

/-- The single bits of the control word (R62, R14). -/
theorem crWord_bits (ch : Channel) :
    let v := crWord ch
    v.getLsbD 0 = ch.enAck ∧
    (v.getLsbD 1 = ch.ie.tc ∧ v.getLsbD 2 = ch.ie.ht ∧ v.getLsbD 3 = ch.ie.te ∧ v.getLsbD 4 = ch.ie.fe ∧
      v.getLsbD 5 = ch.ie.dme) ∧
    (v.getLsbD 8 = ch.circ ∧ v.getLsbD 9 = ch.pinc ∧ v.getLsbD 10 = ch.minc ∧ v.getLsbD 15 = ch.dbm) ∧
    v.getLsbD 16 = ch.ct ∧ v.getLsbD 17 = ch.enReq := by
  simp [getLsbD_crWord, getLsbD_cfgBits, Channel.head, -BitVec.getLsbD_eq_getElem]

/-- The fields of the control word (R62, R14). -/
theorem crWord_fields (ch : Channel) :
    let v := crWord ch
    v.extractLsb' 6 2 = ch.dir ∧ v.extractLsb' 11 2 = ch.usize ∧ v.extractLsb' 13 2 = ch.prio ∧
      v.extractLsb' 18 14 = 0#14 := by
  simp (disch := decide) [crWord, cfgBits, Channel.head, placeFlags, placeBit, BitVec.extractLsb'_or]

/-- The single bits of the event word (R63). -/
theorem eventWord_bits (e : EventRec) : (eventWord e).getLsbD 3 = false ∧ (eventWord e).getLsbD 8 = e.slot := by
  simp [eventWord, getLsbD_place, getLsbD_placeBit, -BitVec.getLsbD_eq_getElem]

/-- The fields of the event word (R63). -/
theorem eventWord_fields (e : EventRec) :
    let v := eventWord e
    v.extractLsb' 0 3 = e.src.code ∧ v.extractLsb' 4 2 = e.outcome.code ∧ v.extractLsb' 6 2 = 0#2 ∧
      v.extractLsb' 9 23 = 0#23 := by
  simp (disch := decide) [eventWord, placeBit, BitVec.extractLsb'_or]

/-! ## Answers of the commands -/

/-- An update of channel `c` is of that channel alone. -/
theorem onlyChannel_of_modify {s t : State} {c : Nat} {f : Channel → Channel} (hc : c < s.numChannels)
    (ht : t.chs = s.chs.modify c f) : OnlyChannel s t c (f (s.ch c)) := by
  have hchs : t.chs = (s.modCh c f).chs := ht
  refine ⟨?_, ?_, fun e he => ?_⟩
  · rw [State.numChannels, hchs]
    exact s.modCh_numChannels c f
  · exact (State.ch_congr hchs c).trans (s.modCh_ch_same c f hc)
  · exact (State.ch_congr hchs e).trans (s.modCh_ch_ne c e f he)

/-- A host that waits for nothing rejects words that are no command (R58, R59). -/
theorem perform_host_of_reject {s : State} {r : Reject} (hw : s.hw = .none) (h : decode s.fetch = .error r) :
    perform .host s = .next (rejectStep r s) := by
  simp only [perform, hostStep, if_pos hw, issueStep, h]

/-- Settles O9: the host rejects the words, as an illegal command or with a fault. -/
theorem wordsThatAreNoCommand : Obligations.WordsThatAreNoCommand := by
  intro s r hw hr
  rw [perform_host_of_reject hw hr]
  refine ⟨fun n hn => ?_, ?_⟩
  · obtain ⟨rfl, rfl⟩ | rfl | rfl := hn <;> rfl
  · rintro rfl hf
    refine ⟨_, rfl, ?_, ?_⟩
    · simp [rejectStep, State.raise, hf]
    · simp [step, rejectStep, hf]

/-- Settles O10: each of the commands checks its channel number first (R57, check 4). -/
theorem invalidChannelHasNoOtherEffect : Obligations.InvalidChannelHasNoOtherEffect := by
  intro s c i hc hi
  obtain ⟨h, par, m0ar, m1ar, ndt, rfl⟩ | rfl | rfl | rfl | ⟨m, rfl⟩ | rfl | rfl | ⟨t, rfl⟩ | rfl | rfl := hi
  all_goals
    simp only [exec, execCfg, execStart, execStop, execRdstat, execClrf, execRdcnt, execRdcr, execSwait, execSack,
      execSevt, onChannel_of_ge hc]
    rfl

section reads

variable {s : State} {c : BitVec 4} (hc : c.toNat < s.numChannels)
include hc

/-- RDSTAT answers the status word (R74). -/
theorem exec_rdstat : exec (.rdstat c) s = .next (s.result 1 .ok (statusWord s.clkEn (s.ch c.toNat))) := by
  simp only [exec, execRdstat, onChannel_of_lt hc]

/-- RDCNT answers the remaining count (R76). -/
theorem exec_rdcnt : exec (.rdcnt c) s = .next (s.result 1 .ok (s.ch c.toNat).remaining) := by
  simp only [exec, execRdcnt, onChannel_of_lt hc]

/-- RDCR answers the control word (R77). -/
theorem exec_rdcr : exec (.rdcr c) s = .next (s.result 1 .ok (crWord (s.ch c.toNat))) := by
  simp only [exec, execRdcr, onChannel_of_lt hc]

/-- SEVT with no event (R107). -/
theorem exec_sevt_nil (h : (s.ch c.toNat).evq = []) : exec (.sevt c) s = .next (s.result 1 .empty 0) := by
  simp only [exec, execSevt, onChannel_of_lt hc, h]

/-- SEVT takes the oldest event (R107). -/
theorem exec_sevt_cons {e : EventRec} {q : List EventRec} (h : (s.ch c.toNat).evq = e :: q) :
    exec (.sevt c) s =
      .next ((s.modCh c.toNat fun ch => { ch with evq := q }).result 1 .ok (eventWord e)) := by
  simp only [exec, execSevt, onChannel_of_lt hc, h]

end reads

/-- Settles O19: the answer is the status word, whose bits and fields are R61's. -/
theorem rdstatReadsTheStatusWord : Obligations.RdstatReadsTheStatusWord := by
  intro s c hc hq ch
  obtain ⟨⟨htc, hht, hte, hfe, hdme⟩, ⟨h11, hown0, hown1⟩, h19, hclk⟩ := statusWord_bits s.clkEn ch
  obtain ⟨h5, hcstate, h14, hperr, hevq, h28⟩ := statusWord_fields s.clkEn ch
  refine ⟨statusWord s.clkEn ch, exec_rdstat hc, htc, hht, hte, hfe, hdme, h5, ?_, h11, hown0, hown1, h14, ?_, h19,
    ?_, h28, hclk⟩
  · rw [hcstate]
    cases ch.cstate <;> rfl
  · rw [hperr]
    cases ch.perr <;> rfl
  · rw [hevq, BitVec.toNat_ofNat]
    exact Nat.mod_eq_of_lt (Nat.lt_succ_of_le hq)

/-- Settles O21: the answers are the count and the control word, whose bits and fields are R62's. -/
theorem readsOfTheCountAndTheControlWord : Obligations.ReadsOfTheCountAndTheControlWord := by
  intro s c hc ch
  obtain ⟨hack, ⟨htc, hht, hte, hfe, hdme⟩, ⟨hcirc, hpinc, hminc, hdbm⟩, hct, hreq⟩ := crWord_bits ch
  obtain ⟨hdir, husize, hprio, h18⟩ := crWord_fields ch
  exact ⟨⟨ch.remaining, BitVec.toNat_setWidth_of_le (by decide), exec_rdcnt hc⟩,
    crWord ch, exec_rdcr hc, hack, htc, hht, hte, hfe, hdme, hdir, hcirc, hpinc, hminc, husize, hprio, hdbm, hct,
    hreq, h18⟩

/-- Settles O26: SEVT answers by the queue, and the event word has R63's bits and fields. -/
theorem sevtTakesTheOldestEvent : Obligations.SevtTakesTheOldestEvent := by
  intro s c hc
  refine ⟨exec_sevt_nil hc, fun e q he => ?_⟩
  obtain ⟨h3, hslot⟩ := eventWord_bits e
  obtain ⟨hsrc, houtcome, h6, h9⟩ := eventWord_fields e
  refine ⟨_, eventWord e, exec_sevt_cons hc he,
    onlyChannel_of_modify (f := fun ch => { ch with evq := q }) hc rfl, rfl, ?_, h3, ?_, h6, hslot, h9⟩
  · rw [hsrc]
    cases e.src <;> rfl
  · rw [houtcome]
    cases e.outcome <;> rfl

/-! ## The frame of the commands -/

/-- The channel a command may write (R66, R70, R72, R75, R106, R107). -/
def writtenChannel : Instr → Option (BitVec 4)
  | .cfg c .. | .start c | .stop c | .clrf c _ | .sack c | .sevt c => some c
  | .rdstat _ | .rdcnt _ | .rdcr _ | .swait .. | .dly _ | .hrd .. | .hwr .. => none

/-- The commands that may write a channel, one by one. -/
theorem command_of_writtenChannel {i : Instr} {c : BitVec 4} (h : writtenChannel i = some c) :
    (∃ h p m0 m1 n, i = .cfg c h p m0 m1 n) ∨ i = .start c ∨ i = .stop c ∨ (∃ m, i = .clrf c m) ∨ i = .sack c ∨
      i = .sevt c := by
  cases i <;> simp_all [writtenChannel]

/-- What a command can write: its channel, memory if it is HWR, `clk_en` if it is CFG, and the host's own fields. -/
structure CommandFrame (i : Instr) (s t : State) : Prop where
  chs   : t.chs = s.chs ∨ ∃ c f, writtenChannel i = some c ∧ t.chs = s.chs.modify c.toNat f
  mem   : (∀ sz a v, i ≠ .hwr sz a v) → t.mem = s.mem
  clkEn : (∀ c h p m0 m1 n, i ≠ .cfg c h p m0 m1 n) → t.clkEn = s.clkEn
  rest  : t = { s with
    chs := t.chs, mem := t.mem, clkEn := t.clkEn, cp := t.cp, hw := t.hw, faults := t.faults, hist := t.hist }

namespace CommandFrame

variable {i : Instr} {s t : State}

/-- An answer writes `cp` and `hist` alone. -/
theorem answer (n : Nat) (st : Status) (v : Word) : CommandFrame i s (s.result n st v) :=
  ⟨.inl rfl, fun _ => rfl, fun _ => rfl, rfl⟩

theorem fault (f : Fault) : CommandFrame i s (s.raise f) := ⟨.inl rfl, fun _ => rfl, fun _ => rfl, rfl⟩

theorem wait (w : Wait) : CommandFrame i s { s with hw := w } := ⟨.inl rfl, fun _ => rfl, fun _ => rfl, rfl⟩

/-- A command's channel written, with an answer. -/
theorem modCh_answer {c : BitVec 4} (hi : writtenChannel i = some c) (f : Channel → Channel) (n : Nat) (st : Status)
    (v : Word) : CommandFrame i s ((s.modCh c.toNat f).result n st v) :=
  ⟨.inr ⟨c, f, hi, rfl⟩, fun _ => rfl, fun _ => rfl, rfl⟩

/-- A command's channel written, with a wait. -/
theorem modCh_wait {c : BitVec 4} (hi : writtenChannel i = some c) (f : Channel → Channel) (w : Wait) :
    CommandFrame i s { s.modCh c.toNat f with hw := w } :=
  ⟨.inr ⟨c, f, hi, rfl⟩, fun _ => rfl, fun _ => rfl, rfl⟩

/-- A command with a channel field answers `InvalidChannel` or follows its own rule. -/
theorem of_onChannel {c : BitVec 4} {n : Nat} {rule : Nat → State} (h : onChannel c n s rule = .next t)
    (hrule : CommandFrame i s (rule c.toNat)) : CommandFrame i s t := by
  obtain ⟨-, rfl⟩ | ⟨-, rfl⟩ := onChannel_next h
  · exact hrule
  · exact answer ..

end CommandFrame

/-- Every command keeps the frame, in each branch of its rule. -/
theorem exec_frame {i : Instr} {s t : State} (h : exec i s = .next t) : CommandFrame i s t := by
  cases i with
  | cfg c =>
    simp only [exec, execCfg] at h
    refine .of_onChannel h ?_
    split_ifs
    · exact .answer ..
    · exact .answer ..
    · exact .answer ..
    · exact ⟨.inr ⟨c, _, rfl, rfl⟩, fun _ => rfl, fun hne => (hne _ _ _ _ _ _ rfl).elim, rfl⟩
  | start c =>
    simp only [exec, execStart] at h
    refine .of_onChannel h ?_
    split_ifs
    · exact .answer ..
    · exact .modCh_wait rfl ..
  | stop c =>
    simp only [exec, execStop] at h
    exact .of_onChannel h (.modCh_wait rfl ..)
  | rdstat c | rdcnt c | rdcr c =>
    simp only [exec, execRdstat, execRdcnt, execRdcr] at h
    exact .of_onChannel h (.answer ..)
  | clrf c =>
    simp only [exec, execClrf] at h
    exact .of_onChannel h (.modCh_answer rfl ..)
  | swait c =>
    simp only [exec, execSwait] at h
    refine .of_onChannel h ?_
    split_ifs
    · exact .answer ..
    · exact .wait _
  | sack c =>
    simp only [exec, execSack] at h
    refine .of_onChannel h ?_
    split_ifs
    · exact .modCh_answer rfl ..
    · exact .modCh_answer rfl ..
    · exact .answer ..
  | sevt c =>
    simp only [exec, execSevt] at h
    refine .of_onChannel h ?_
    split
    · exact .answer ..
    · exact .modCh_answer rfl ..
  | dly n =>
    cases h
    exact .wait _
  | hrd sz a =>
    simp only [exec, execHrd] at h
    split at h <;> cases h
    · exact .fault _
    · exact .answer ..
  | hwr sz a v =>
    simp only [exec, execHwr] at h
    split at h <;> cases h
    · exact .fault _
    · exact ⟨.inl rfl, fun hne => (hne _ _ _ rfl).elim, fun _ => rfl, rfl⟩

namespace CommandFrame

variable {i : Instr} {s t : State} (h : CommandFrame i s t)
include h

theorem numChannels : t.numChannels = s.numChannels := by
  obtain e | ⟨c, f, -, e⟩ := h.chs
  · rw [State.numChannels, e, State.numChannels]
  · rw [State.numChannels, e, List.length_modify, State.numChannels]

/-- A channel that the command does not write reads as before. -/
theorem ch (e : Nat) : (∃ c, c.toNat = e ∧ writtenChannel i = some c) ∨ t.ch e = s.ch e := by
  obtain hchs | ⟨c, f, hi, hchs⟩ := h.chs
  · exact .inr (State.ch_congr hchs e)
  · by_cases hce : c.toNat = e
    · exact .inl ⟨c, hce, hi⟩
    · have hmod : t.ch e = (s.modCh c.toNat f).ch e := State.ch_congr hchs e
      exact .inr (hmod.trans (s.modCh_ch_ne _ e f (Ne.symm hce)))

end CommandFrame

/-- Settles O32: every command keeps its frame. -/
theorem commandsLeaveTheRestAlone : Obligations.CommandsLeaveTheRestAlone := by
  intro i s t h
  have hframe := exec_frame h
  have hrest := hframe.rest
  refine ⟨fun hi a => by rw [hframe.mem hi], hframe.clkEn, by rw [hrest], by rw [hrest], by rw [hrest], by rw [hrest],
    hframe.numChannels, by rw [hrest], by rw [hrest], by rw [hrest], fun e => ?_⟩
  exact (hframe.ch e).imp_left fun ⟨c, hce, hi⟩ => ⟨c, hce, command_of_writtenChannel hi⟩

end Machine

end Sys2Proof
end

section
/-! SUPPORT. The channel controller commands (R66 to R73, R75): what makes a configuration valid, the answer of each
command branch by branch, and the poll steps of START and STOP. -/

namespace Sys2Proof.Machine

open Safety

/-! ## The validity of a configuration (R67) -/

/-- Condition 1: the direction is not a reserved one. -/
theorem dir_valid_iff (dir : BitVec 2) : (dir == 0#2 || dir == 1#2) = true ↔ dir.toNat < 2 := by
  revert dir
  decide

/-- Condition 2: the unit size is not the reserved one. -/
theorem usize_valid_iff (us : BitVec 2) : (us == 0#2 || us == 1#2 || us == 2#2) = true ↔ us.toNat < 3 := by
  revert us
  decide

/-- Condition 4: double buffering needs circular mode. -/
theorem dbm_valid_iff (dbm circ : Bool) : (!(dbm && !circ)) = true ↔ (dbm = true → circ = true) := by
  cases dbm <;> simp

/-- Condition 5: the two halves of HALVES need two elements. -/
theorem halves_valid_iff (circ dbm : Bool) (n : Nat) :
    (!(circ && !dbm && decide (n < 2))) = true ↔ (circ = true → dbm = false → 2 ≤ n) := by
  cases circ <;> cases dbm <;> simp [Nat.succ_le_iff]

/-- Conditions 6 and 9 are about M1AR in double-buffer mode only. -/
theorem not_or_eq_true_iff (b x : Bool) : (!b || x) = true ↔ (b = true → x = true) := by
  cases b <;> simp

/-- Settles O12: the nine conditions of `cfg_valid`, one after the other. -/
theorem configurationValidity : Obligations.ConfigurationValidity := by
  intro h par m0ar m1ar ndt n ub span
  have hhigh : ndt.toNat / 2 ^ 16 = 0 ↔ ndt.toNat < 65536 := by omega
  simp only [cfgValid, Bool.and_eq_true, dir_valid_iff, usize_valid_iff, dbm_valid_iff, halves_valid_iff,
    not_or_eq_true_iff, beq_iff_eq, decide_eq_true_eq, hhigh, ← Nat.dvd_iff_mod_eq_zero, and_assoc]
  rfl

/-! ## The commands' answers, branch by branch -/

/-- A channel is enabled by either side of its enable (R15). -/
theorem Channel.enabled_iff (ch : Channel) : ch.enabled = true ↔ ch.enReq = true ∨ ch.enAck = true := by
  rw [enabled, Bool.or_eq_true]

section answers

variable {s : State} {c : BitVec 4} (hc : c.toNat < s.numChannels)
include hc

section cfg

variable (h : CfgHead) (par m0ar m1ar ndt : Word)

/-- CFG on an enabled channel (R66, first check). -/
theorem exec_cfg_of_enabled (hen : (s.ch c.toNat).enabled = true) :
    exec (.cfg c h par m0ar m1ar ndt) s = .next (s.result 5 .configurationRejected 0) := by
  simp only [exec, execCfg, onChannel_of_lt hc, if_pos hen]

variable (hen : ¬ (s.ch c.toNat).enabled = true)
include hen

/-- CFG on a channel that is neither IDLE nor CONFIGURED (R66, second check). -/
theorem exec_cfg_of_state (hst : ¬ ((s.ch c.toNat).cstate = .idle ∨ (s.ch c.toNat).cstate = .configured)) :
    exec (.cfg c h par m0ar m1ar ndt) s = .next (s.result 5 .invalidStateError 0) := by
  simp only [exec, execCfg, onChannel_of_lt hc, if_neg hen, if_pos (not_or.1 hst)]

variable (hst : (s.ch c.toNat).cstate = .idle ∨ (s.ch c.toNat).cstate = .configured)
include hst

/-- CFG of a configuration that is not valid (R66, third check). -/
theorem exec_cfg_of_invalid (hv : cfgValid h par m0ar m1ar ndt = false) :
    exec (.cfg c h par m0ar m1ar ndt) s = .next (s.result 5 .invalidConfiguration 0) := by
  simp only [exec, execCfg, onChannel_of_lt hc, if_neg hen, if_neg (mt not_or.2 (not_not.2 hst)), if_pos hv]

/-- CFG passes its checks and writes the descriptor (R66, R68). -/
theorem exec_cfg_of_valid (hv : cfgValid h par m0ar m1ar ndt = true) :
    exec (.cfg c h par m0ar m1ar ndt) s =
      .next (({ s.modCh c.toNat (·.configure h par m0ar m1ar ndt) with clkEn := true } : State).result 5 .ok 0) := by
  simp only [exec, execCfg, onChannel_of_lt hc, if_neg hen, if_neg (mt not_or.2 (not_not.2 hst)), hv,
    Bool.true_eq_false, if_false]

end cfg

/-- START on a channel that is not CONFIGURED (R70). -/
theorem exec_start_of_ne (h : (s.ch c.toNat).cstate ≠ .configured) :
    exec (.start c) s = .next (s.result 1 .invalidStateError 0) := by
  simp only [exec, execStart, onChannel_of_lt hc, if_pos h]

/-- START on a CONFIGURED channel (R70). -/
theorem exec_start_of_configured (h : (s.ch c.toNat).cstate = .configured) :
    exec (.start c) s = .next { s.modCh c.toNat Channel.arm with hw := .startWait c.toNat s.tick } := by
  simp only [exec, execStart, onChannel_of_lt hc, if_neg (not_not.2 h)]

/-- STOP's issue step (R72). -/
theorem exec_stop :
    exec (.stop c) s = .next { s.modCh c.toNat Channel.requestDisable with hw := .stopWait c.toNat s.tick } := by
  simp only [exec, execStop, onChannel_of_lt hc]

/-- CLRF (R75). -/
theorem exec_clrf (mask : BitVec 5) :
    exec (.clrf c mask) s =
      .next ((s.modCh c.toNat fun ch => { ch with flags := ch.flags.clear (.ofBits mask) }).result 1 .ok 0) := by
  simp only [exec, execClrf, onChannel_of_lt hc]

end answers

/-- Settles O13: the checks pass, so the channel is configured and `clk_en` set. -/
theorem acceptedCfgWritesTheDescriptor : Obligations.AcceptedCfgWritesTheDescriptor := by
  intro s c h par m0ar m1ar ndt hc hreq hack hst hv
  have hen : ¬ (s.ch c.toNat).enabled = true := by simp [Channel.enabled, hreq, hack]
  exact ⟨_, exec_cfg_of_valid hc h par m0ar m1ar ndt hen hst hv,
    onlyChannel_of_modify (f := (·.configure h par m0ar m1ar ndt)) hc rfl, rfl⟩

/-- Settles O14: each failed check answers its status and nothing else. -/
theorem rejectedCfgChangesNothing : Obligations.RejectedCfgChangesNothing := by
  intro s c h par m0ar m1ar ndt st ch there enabled resting hcase
  have hiff : ch.enabled = true ↔ enabled := ch.enabled_iff
  obtain ⟨hc, rfl⟩ | ⟨hc, hen, rfl⟩ | ⟨hc, hen, hst, rfl⟩ | ⟨hc, hen, hst, hv, rfl⟩ := hcase
  · exact invalidChannelHasNoOtherEffect s c _ (Nat.not_lt.1 hc) (.inl ⟨h, par, m0ar, m1ar, ndt, rfl⟩)
  · exact exec_cfg_of_enabled hc h par m0ar m1ar ndt (hiff.2 hen)
  · exact exec_cfg_of_state hc h par m0ar m1ar ndt (mt hiff.1 hen) hst
  · exact exec_cfg_of_invalid hc h par m0ar m1ar ndt (mt hiff.1 hen) hst hv

/-- Settles O15: START arms the channel and opens its wait, or is refused. -/
theorem startArmsAConfiguredChannel : Obligations.StartArmsAConfiguredChannel :=
  fun _ _ hc => ⟨exec_start_of_ne hc, fun h =>
    ⟨_, exec_start_of_configured hc h, onlyChannel_of_modify (f := Channel.arm) hc rfl, rfl⟩⟩

/-- Settles O17: STOP requests the disable and opens its wait, with no check of the lifecycle state. -/
theorem stopRequestsTheDisable : Obligations.StopRequestsTheDisable :=
  fun _ _ hc => ⟨_, exec_stop hc, onlyChannel_of_modify (f := Channel.requestDisable) hc rfl, rfl⟩

/-- Clearing one flag with its mask bit (R75). -/
theorem and_not_eq_ite (f m : Bool) : (f && !m) = if m then false else f := by
  cases m <;> simp

/-- Settles O20: the channel's flags become `clear` of the mask, class by class. -/
theorem clrfClearsTheSelectedFlags : Obligations.ClrfClearsTheSelectedFlags := by
  intro s c mask hc
  refine ⟨_, (s.ch c.toNat).flags.clear (.ofBits mask), exec_clrf hc mask, ?_, ?_, ?_, ?_, ?_,
    onlyChannel_of_modify (f := fun ch => { ch with flags := ch.flags.clear (.ofBits mask) }) hc rfl, rfl⟩
  all_goals exact and_not_eq_ite _ _

/-! ## The poll steps of START and STOP (R71, R73) -/

/-- A host that waits takes its poll step (R31). -/
theorem perform_host_of_wait {s : State} (hw : s.hw ≠ .none) : perform .host s = .next (pollStep s) := by
  simp only [perform, hostStep, if_neg hw]

/-- A host that waits is enabled by its poll condition alone, while the machine has no fault and the notifier does
not hold it (R31, R91). -/
theorem enabled_host_of_wait {s : State} (hf : s.faults = []) (hn : s.ntf = .idle) (hw : s.hw ≠ .none) :
    s.enabled .host = s.pollReady := by
  simp [enabled_eq_guard hf, State.guard, State.hostReady, hn, hw]

/-- The remaining count as a result value is `ndtr` (R73, R76). -/
theorem Channel.toNat_remaining (ch : Channel) : ch.remaining.toNat = ch.ndtr.toNat :=
  BitVec.toNat_setWidth_of_le (by decide)

section polls

variable {s : State} {c : Nat} {t0 : Word}

/-- The poll condition of START_WAIT (R71). -/
theorem pollReady_startWait (hw : s.hw = .startWait c t0) :
    s.pollReady = true ↔ (s.ch c).cstate ≠ .armed ∨ s.params.ackTimeout ≤ (s.tick - t0).toNat := by
  simp only [State.pollReady, hw, Bool.or_eq_true, bne_iff_ne, decide_eq_true_eq]
  rfl

/-- The poll condition of STOP_WAIT (R73). -/
theorem pollReady_stopWait (hw : s.hw = .stopWait c t0) :
    s.pollReady = true ↔ (s.ch c).enAck = false ∨ s.params.ackTimeout ≤ (s.tick - t0).toNat := by
  simp only [State.pollReady, hw, Bool.or_eq_true, Bool.not_eq_true', decide_eq_true_eq]
  rfl

end polls

/-- Settles O16: the poll condition is R71's; a channel that has left ARMED is answered first, whatever the ticks. -/
theorem startPollEndsTheWait : Obligations.StartPollEndsTheWait := by
  intro s c t0 hf hn hw hc
  have hwait : s.hw ≠ .none := by simp [hw]
  have hpoll : pollStep s = startPoll c s := by simp only [pollStep, hw]
  rw [enabled_host_of_wait hf hn hwait, perform_host_of_wait hwait, hpoll]
  refine ⟨pollReady_startWait hw, fun hst => ?_, fun hst => ⟨_, rfl, ?_⟩⟩
  · rw [startPoll, if_pos hst]
    rfl
  · rw [startPoll, if_neg (not_not.2 hst)]
    exact ⟨onlyChannel_of_modify (f := fun ch => { ch with enReq := false }.ackTimedOut) hc rfl, rfl⟩

/-- Settles O18: the poll condition is R73's; an acknowledged disable is answered first, whatever the ticks. -/
theorem stopPollEndsTheWait : Obligations.StopPollEndsTheWait := by
  intro s c t0 hf hn hw hc
  have hwait : s.hw ≠ .none := by simp [hw]
  have hpoll : pollStep s = stopPoll c s := by simp only [pollStep, hw]
  rw [enabled_host_of_wait hf hn hwait, perform_host_of_wait hwait, hpoll]
  refine ⟨pollReady_stopWait hw, fun hack => ⟨_, _, rfl, (s.ch c).toNat_remaining, ?_⟩,
    fun hack => ⟨_, _, rfl, (s.ch c).toNat_remaining, ?_⟩⟩
  · rw [stopPoll, if_pos hack]
    exact ⟨onlyChannel_of_modify (f := Channel.release) hc rfl, rfl⟩
  · rw [stopPoll, if_neg (by simp [hack])]
    exact ⟨onlyChannel_of_modify (f := Channel.ackTimedOut) hc rfl, rfl⟩

end Sys2Proof.Machine
end

section
/-! SUPPORT. The transfer engine (R79 to R88, R100): an element transfer field by field, what any number of transfers
leaves of a channel, the owners of the slots from cycle to cycle, and the acknowledgement and error steps. -/

namespace Sys2Proof.Machine

open Safety

namespace Channel

/-! ## One element transfer (R80, R81) -/

/-- An element transfer, field by field (R80): the half point raises HT and enters slot 1 of HALVES; the last element
raises TC, and completes a one-shot channel or wraps a circular one into the next slot. -/
theorem advance_eq (ch : Channel) :
    ch.advance =
      { ch with
        ndtr := if ch.ndtr = 1 ∧ ch.scheme ≠ .oneshot then ch.reload else ch.ndtr - 1
        flags := { ch.flags with tc := ch.flags.tc || decide (ch.ndtr = 1), ht := ch.flags.ht || ch.atHalf }
        enAck := if ch.ndtr = 1 ∧ ch.scheme = .oneshot then false else ch.enAck
        enReq := if ch.ndtr = 1 ∧ ch.scheme = .oneshot then false else ch.enReq
        cstate := if ch.ndtr = 1 ∧ ch.scheme = .oneshot ∧ ch.cstate = .running then .completed else ch.cstate
        ct := if ch.ndtr = 1 ∧ ch.scheme = .dual then !ch.ct else ch.ct
        own0 := if ch.ndtr = 1 ∧ (ch.scheme = .halves ∨ ch.scheme = .dual ∧ ch.ct = true) then .hw else ch.own0
        own1 := if (ch.atHalf = true ∧ ch.scheme = .halves) ∨ (ch.ndtr = 1 ∧ ch.scheme = .dual ∧ ch.ct = false)
          then .hw else ch.own1 } := by
  by_cases h : ch.ndtr = 1#16
  · rw [advance_last h, endCycle_eq, countElement_scheme, countElement_eq]
    cases ch.scheme <;> cases ch.atHalf <;> simp [h, Flags.raised]
  · rw [advance_mid h, countElement_eq]
    cases ch.atHalf <;> simp [h, Flags.raised]

/-- A circular channel wraps into slot 0 in HALVES, and in DUAL where the current target is 1 (R80). -/
theorem enters_slot0_iff (ch : Channel) :
    (ch.scheme = .halves ∨ ch.scheme = .dual ∧ ch.ct = true) ↔ ch.circ = true ∧ (ch.dbm = true → ch.ct = true) := by
  rw [scheme_halves, scheme_dual]
  cases ch.dbm <;> simp

end Channel

/-- Settles O34: the element is in RAM, so its channel advances. -/
theorem transferCountsAndSwaps : Obligations.TransferCountsAndSwaps := by
  intro s c hc hack _ ch n j half last hram
  have hhalf : ch.atHalf = decide half := by
    rw [Bool.eq_iff_iff, Channel.atHalf_eq, decide_eq_true_eq]
    rfl
  have henAck : (if last ∧ ch.circ = false then false else ch.enAck) = !decide (last ∧ ch.circ = false) := by
    rw [show ch.enAck = true from hack, Bool.if_false_left, Bool.and_true]
  refine ⟨transferStep c s, ch.advance, perform_xfer_of_ram (allRam_eq_true.2 hram), ?_, ch.advance_fixed, ?_⟩
  · obtain ⟨m, e, -⟩ := transferStep_state c s
    exact onlyChannel_of_modify hc (congrArg State.chs e)
  · rw [ch.advance_eq, hhalf]
    simp only [Channel.enters_slot0_iff]
    simp only [Channel.scheme_oneshot, Channel.scheme_halves, Channel.scheme_dual, ne_eq, Bool.not_eq_false,
      decide_eq_true_eq, and_assoc]
    exact ⟨rfl, rfl, henAck, rfl, rfl, rfl, rfl, rfl⟩

namespace Channel

/-! ## Any number of transfers (R82, R88) -/

@[simp] theorem advance_iterate_scheme (ch : Channel) (k : Nat) : (advance^[k] ch).scheme = ch.scheme := by
  induction k with
  | zero => rfl
  | succ k ih => rw [Function.iterate_succ_apply', advance_scheme, ih]

@[simp] theorem advance_iterate_reload (ch : Channel) (k : Nat) : (advance^[k] ch).reload = ch.reload := by
  induction k with
  | zero => rfl
  | succ k ih => rw [Function.iterate_succ_apply', advance_reload, ih]

/-- A channel with `k` more elements of its cycle counted and flags `f`: in HALVES the engine enters slot 1 where it
passes the half point (R80). -/
def counted (ch : Channel) (k : Nat) (f : Flags) : Channel :=
  { ch with
    ndtr := ch.ndtr - BitVec.ofNat 16 k, flags := f
    own1 := if ch.scheme = .halves ∧ ch.index < ch.count / 2 ∧ ch.count / 2 ≤ ch.index + k then .hw else ch.own1 }

section counted

variable (ch : Channel) (k : Nat) (f : Flags)

@[simp] theorem counted_scheme : (ch.counted k f).scheme = ch.scheme := rfl
@[simp] theorem counted_cstate : (ch.counted k f).cstate = ch.cstate := rfl
@[simp] theorem counted_ct : (ch.counted k f).ct = ch.ct := rfl
@[simp] theorem counted_reload : (ch.counted k f).reload = ch.reload := rfl
@[simp] theorem counted_own0 : (ch.counted k f).own0 = ch.own0 := rfl

theorem counted_own1 :
    (ch.counted k f).own1 =
      if ch.scheme = .halves ∧ ch.index < ch.count / 2 ∧ ch.count / 2 ≤ ch.index + k then .hw else ch.own1 := rfl

end counted

/-- What is left of a cycle after `k` more elements. -/
theorem counted_ndtr {ch : Channel} {k : Nat} (hk : k ≤ ch.ndtr.toNat) (f : Flags) :
    (ch.counted k f).ndtr.toNat = ch.ndtr.toNat - k := by
  have := ch.ndtr.isLt
  have hofNat : (BitVec.ofNat 16 k).toNat = k := BitVec.toNat_ofNat .. ▸ Nat.mod_eq_of_lt (by omega)
  exact (BitVec.toNat_sub_of_le (by rw [BitVec.le_def, hofNat]; exact hk)).trans (by rw [hofNat])

/-- No element counted. -/
theorem counted_zero (ch : Channel) : ch.counted 0 ch.flags = ch := by
  have hnot : ¬ (ch.scheme = .halves ∧ ch.index < ch.count / 2 ∧ ch.count / 2 ≤ ch.index + 0) := by omega
  rw [counted, if_neg hnot]
  simp

/-- One element more (R80). -/
theorem countElement_counted {ch : Channel} (hle : ch.ndtr.toNat ≤ ch.reload.toNat) {k : Nat}
    (hk : k < ch.ndtr.toNat) (f : Flags) :
    (ch.counted k f).countElement = ch.counted (k + 1) (ch.counted k f).countElement.flags := by
  have hindex : (ch.counted k f).index = ch.index + k := by
    simp only [index, counted_ndtr hk.le, counted_reload]
    omega
  have hhalf : (ch.counted k f).atHalf = true ↔ ch.index + (k + 1) = ch.count / 2 := by
    rw [atHalf_eq, hindex]
    simp only [count, counted_reload]
    omega
  have hndtr : (ch.counted k f).ndtr - 1 = ch.ndtr - BitVec.ofNat 16 (k + 1) := by
    rw [BitVec.ofNat_add, ← BitVec.sub_sub]
    rfl
  have hpass : ((ch.index + (k + 1) = ch.count / 2 ∧ ch.scheme = .halves) ∨
        (ch.scheme = .halves ∧ ch.index < ch.count / 2 ∧ ch.count / 2 ≤ ch.index + k)) ↔
      (ch.scheme = .halves ∧ ch.index < ch.count / 2 ∧ ch.count / 2 ≤ ch.index + (k + 1)) := by
    rw [and_comm, ← and_or_left]
    exact and_congr_right fun _ => by omega
  rw [countElement_eq]
  simp only [hndtr, hhalf, counted_own1, counted_scheme, ← ite_or, hpass]
  rfl

/-- Fewer transfers than the cycle has elements left count them (R82). -/
theorem advance_iterate_of_lt {ch : Channel} (hle : ch.ndtr.toNat ≤ ch.reload.toNat) {k : Nat}
    (hk : k < ch.ndtr.toNat) : ∃ f, advance^[k] ch = ch.counted k f := by
  induction k with
  | zero => exact ⟨_, ch.counted_zero.symm⟩
  | succ k ih =>
    obtain ⟨f, ih⟩ := ih (Nat.lt_of_succ_lt hk)
    have hne : (ch.counted k f).ndtr ≠ 1 := ne_of_apply_ne BitVec.toNat <| by
      rw [counted_ndtr (Nat.le_of_succ_le hk.le)]
      exact Nat.ne_of_gt (Nat.lt_sub_of_add_lt (Nat.add_comm 1 k ▸ hk))
    rw [Function.iterate_succ_apply', ih, advance_mid hne]
    exact ⟨_, countElement_counted hle (Nat.lt_of_succ_lt hk) f⟩

/-- The transfers of all elements left count them and end the cycle (R80). -/
theorem advance_iterate_ndtr {ch : Channel} (hle : ch.ndtr.toNat ≤ ch.reload.toNat) (hpos : 1 ≤ ch.ndtr.toNat) :
    ∃ f, advance^[ch.ndtr.toNat] ch = (ch.counted ch.ndtr.toNat f).endCycle := by
  obtain ⟨k, hk⟩ := Nat.exists_eq_add_of_le' hpos
  obtain ⟨f, e⟩ := advance_iterate_of_lt hle (k := k) (by omega)
  have hlast : (ch.counted k f).ndtr = 1 := BitVec.eq_of_toNat_eq <| by
    rw [counted_ndtr (by omega), hk, Nat.add_sub_cancel_left]
    rfl
  rw [hk, Function.iterate_succ_apply', e, advance_last hlast]
  exact ⟨_, congrArg endCycle (countElement_counted hle (by omega) f)⟩

end Channel

/-- Settles O40: the transfers before the last count the elements, and the last ends the cycle. -/
theorem oneShotCompletesAfterItsCount : Obligations.OneShotCompletesAfterItsCount := by
  intro ch k hs hst hack hfull hpos _
  have hle : ch.ndtr.toNat ≤ ch.reload.toNat := by rw [hfull]
  rw [← hfull] at hpos ⊢
  refine ⟨fun hk => ?_, fun hk => ?_⟩
  · obtain ⟨f, e⟩ := Channel.advance_iterate_of_lt hle hk
    rw [e]
    exact ⟨hst, hack, Channel.counted_ndtr hk.le f⟩
  · obtain ⟨f, e⟩ := Channel.advance_iterate_ndtr hle hpos
    have hzero : (ch.counted ch.ndtr.toNat f).ndtr = 0 :=
      BitVec.eq_of_toNat_eq (by rw [Channel.counted_ndtr le_rfl, Nat.sub_self]; rfl)
    rw [hk, e, Channel.endCycle_eq]
    simp [hs, hst, hzero, Flags.raised]

namespace Channel

/-- A whole cycle of a circular channel from its full count goes back to the full count and, in DUAL, to the other
target (R80, R82). -/
theorem cycle_ndtr_ct {ch : Channel} (hs : ch.scheme ≠ .oneshot) (hfull : ch.ndtr = ch.reload)
    (hpos : 1 ≤ ch.reload.toNat) :
    (advance^[ch.reload.toNat] ch).ndtr = ch.reload ∧
      (advance^[ch.reload.toNat] ch).ct = if ch.scheme = .dual then !ch.ct else ch.ct := by
  obtain ⟨f, e⟩ := advance_iterate_ndtr (ch := ch) (by rw [hfull]) (by rw [hfull]; exact hpos)
  rw [← hfull, e, endCycle_eq]
  simp [hs, hfull]

/-- Any number of whole cycles (R82). -/
theorem cycles_ndtr_ct {ch : Channel} (hs : ch.scheme ≠ .oneshot) (hfull : ch.ndtr = ch.reload)
    (hpos : 1 ≤ ch.reload.toNat) (q : Nat) :
    (advance^[ch.reload.toNat * q] ch).ndtr = ch.reload ∧
      (advance^[ch.reload.toNat * q] ch).ct = if ch.scheme = .dual ∧ q % 2 = 1 then !ch.ct else ch.ct := by
  induction q with
  | zero => simp [hfull]
  | succ q ih =>
    obtain ⟨hndtr, hct⟩ := ih
    obtain ⟨hndtr', hct'⟩ := cycle_ndtr_ct (ch := advance^[ch.reload.toNat * q] ch) (by simpa using hs)
      (by simpa using hndtr) (by simpa using hpos)
    rw [advance_iterate_reload, ← Function.iterate_add_apply, Nat.add_comm] at hndtr' hct'
    refine ⟨hndtr', hct'.trans ?_⟩
    rw [hct, advance_iterate_scheme]
    have hodd : (q + 1) % 2 = 1 ↔ ¬ q % 2 = 1 := by omega
    by_cases hd : ch.scheme = .dual <;> by_cases hq : q % 2 = 1 <;> simp [hd, hodd, hq]

/-- Where a circular channel stands after `k` transfers from its full count (R82). -/
theorem advance_iterate_circular {ch : Channel} (hs : ch.scheme ≠ .oneshot) (hfull : ch.ndtr = ch.reload)
    (hpos : 1 ≤ ch.reload.toNat) (k : Nat) :
    (advance^[k] ch).ndtr.toNat = ch.reload.toNat - k % ch.reload.toNat ∧
      (advance^[k] ch).ct = if ch.scheme = .dual ∧ k / ch.reload.toNat % 2 = 1 then !ch.ct else ch.ct := by
  obtain ⟨hndtr, hct⟩ := cycles_ndtr_ct hs hfull hpos (k / ch.reload.toNat)
  have hr : k % ch.reload.toNat < ch.reload.toNat := Nat.mod_lt k hpos
  obtain ⟨f, e⟩ := advance_iterate_of_lt (ch := advance^[ch.reload.toNat * (k / ch.reload.toNat)] ch)
    (k := k % ch.reload.toNat) (by rw [hndtr, advance_iterate_reload]) (by rw [hndtr]; exact hr)
  rw [← Function.iterate_add_apply, Nat.mod_add_div] at e
  rw [e, counted_ndtr (by rw [hndtr]; exact hr.le), hndtr, counted_ct, hct]
  exact ⟨rfl, rfl⟩

end Channel

/-- Settles O39: a one-shot channel counts down, and a circular one is in its last cycle. -/
theorem swapSchedule : Obligations.SwapSchedule := by
  intro ch k hfull hct hpos n d
  have hcircular := fun hs => Channel.advance_iterate_circular (ch := ch) hs hfull hpos k
  refine ⟨fun hs hk => ?_, fun hs _ => ?_, fun hs => ?_⟩
  · obtain ⟨f, e⟩ := Channel.advance_iterate_of_lt (ch := ch) (k := k) (by rw [hfull]) (by rw [hfull]; exact hk)
    have hndtr : (ch.counted k f).ndtr.toNat = n - k := by rw [Channel.counted_ndtr (hfull ▸ hk.le), hfull]
    exact ⟨(congrArg (·.ndtr.toNat) e).trans hndtr, by rw [Channel.curSlot_eq, Channel.advance_iterate_scheme, hs]⟩
  · obtain ⟨hndtr, -⟩ := hcircular (by simp [hs])
    have hr : k % n < n := Nat.mod_lt k hpos
    refine ⟨hndtr, ?_⟩
    rw [Channel.curSlot_eq, Channel.advance_iterate_scheme, hs, Channel.advance_iterate_reload, hndtr]
    exact congrArg (decide <| n / 2 ≤ ·) (Nat.sub_sub_self hr.le)
  · obtain ⟨hndtr, hct'⟩ := hcircular (by simp [hs])
    refine ⟨hndtr, ?_⟩
    rw [Channel.curSlot_eq, Channel.advance_iterate_scheme, hs]
    refine hct'.trans ?_
    simp only [hs, hct, true_and, Bool.not_false, Bool.if_true_left, Bool.or_false]
    rfl

namespace Channel

/-! ## The owners of the slots from cycle to cycle (R93, R94, R100) -/

theorem setOwn_eq (ch : Channel) (sl : Slot) (o : Owner) :
    ch.setOwn sl o = { ch with own0 := if sl then ch.own0 else o, own1 := if sl then o else ch.own1 } := by
  cases sl <;> rfl

/-- A boundary class of a running engine gives the slot the engine is not in to the application (R93). -/
theorem ownEffect_of_boundary {ch : Channel} {k : Cls} (hb : isBoundary k ch.scheme = true)
    (hack : ch.enAck = true) : ch.ownEffect k = ch.setOwn (!ch.curSlot) .app := by
  simp [ownEffect, hb, hack]

/-- The engine runs in slot `sl`, which is the hardware's, with `left` elements left of its cycle of `n`, and the other
slot is `o`'s (R24, R25). -/
structure InSlot (sch : Scheme) (n : BitVec 16) (left : Nat) (sl : Slot) (o : Owner) (ch : Channel) : Prop where
  scheme  : ch.scheme = sch
  enAck   : ch.enAck = true
  reload  : ch.reload = n
  ndtr    : ch.ndtr.toNat = left
  curSlot : ch.curSlot = sl
  own0    : ch.own0 = if sl then o else .hw
  own1    : ch.own1 = if sl then .hw else o

/-- The slots both owned by the hardware, the handoff of a boundary leaves it the one the engine is in (R93). -/
theorem InSlot.handoff {sch : Scheme} {n : BitVec 16} {left : Nat} {sl : Slot} {ch : Channel} {k : Cls}
    (h : InSlot sch n left sl .hw ch) (hb : isBoundary k sch = true) : InSlot sch n left sl .app (ch.ownEffect k) := by
  obtain ⟨hs, hack, hreload, hndtr, hcur, hown0, hown1⟩ := h
  rw [ite_self] at hown0 hown1
  rw [ownEffect_of_boundary (hs.symm ▸ hb) hack, setOwn_eq, hcur]
  refine ⟨hs, hack, hreload, hndtr, ?_, ?_, ?_⟩
  · rw [← hcur, curSlot_eq, curSlot_eq]
    rfl
  · cases sl <;> simp [hown0]
  · cases sl <;> simp [hown1]

theorem endCycle_dual {ch : Channel} (hs : ch.scheme = .dual) :
    ch.endCycle =
      { ch with
        flags := ch.flags.raised .tc, ndtr := ch.reload, ct := !ch.ct
        own0 := if ch.ct then .hw else ch.own0, own1 := if ch.ct then ch.own1 else .hw } := by
  simp only [endCycle, hs, setOwn_eq, Bool.not_eq_true']
  cases ch.ct <;> rfl

theorem endCycle_halves {ch : Channel} (hs : ch.scheme = .halves) :
    ch.endCycle = { ch with flags := ch.flags.raised .tc, ndtr := ch.reload, own0 := .hw } := by
  simp only [endCycle, hs]

theorem curSlot_dual {ch : Channel} (hs : ch.scheme = .dual) : ch.curSlot = ch.ct := by
  rw [curSlot_eq, hs]

/-- A cycle of DUAL brings the engine into the other slot, and makes both the hardware's (R80, R100). -/
theorem InSlot.dual_cycle {n : BitVec 16} {sl : Slot} {o : Owner} {ch : Channel}
    (h : InSlot .dual n n.toNat sl o ch) (hpos : 1 ≤ n.toNat) :
    InSlot .dual n n.toNat (!sl) .hw (advance^[n.toNat] ch) := by
  obtain ⟨hs, hack, rfl, hfull, hcur, hown0, hown1⟩ := h
  rw [curSlot_dual hs] at hcur
  obtain ⟨f, e⟩ := advance_iterate_ndtr hfull.le (hfull.symm ▸ hpos)
  rw [hfull, endCycle_dual (ch := ch.counted _ f) hs] at e
  have hkept : (ch.counted ch.reload.toNat f).own1 = ch.own1 := if_neg (by simp [hs])
  rw [e, hkept]
  refine ⟨hs, hack, rfl, rfl, ?_, ?_, ?_⟩
  · refine (curSlot_dual ?_).trans (congrArg not hcur)
    exact hs
  · cases sl <;> simp [hcur, hown0]
  · cases sl <;> simp [hcur, hown1]

/-- The first half of a cycle of HALVES brings the engine into slot 1, and makes both slots the hardware's
(R80, R100). -/
theorem InSlot.halves_first {n : BitVec 16} {o : Owner} {ch : Channel} (h : InSlot .halves n n.toNat false o ch)
    (hn : 2 ≤ n.toNat) : InSlot .halves n (n.toNat - n.toNat / 2) true .hw (advance^[n.toNat / 2] ch) := by
  obtain ⟨hs, hack, rfl, hfull, -, hown0, -⟩ := h
  have hlt : ch.reload.toNat / 2 < ch.ndtr.toNat := by omega
  obtain ⟨f, e⟩ := advance_iterate_of_lt hfull.le hlt
  have hndtr : (ch.counted (ch.reload.toNat / 2) f).ndtr.toNat = ch.reload.toNat - ch.reload.toNat / 2 := by
    rw [counted_ndtr hlt.le, hfull]
  rw [e]
  refine ⟨hs, hack, rfl, hndtr, ?_, hown0, ?_⟩
  · rw [curSlot_eq, counted_scheme, hs, hndtr]
    exact decide_eq_true (by rw [counted_reload]; omega)
  · rw [counted_own1]
    exact if_pos ⟨hs, by simp only [index, count]; omega, by simp only [index, count]; omega⟩

/-- The second half brings it into slot 0 again, and makes both slots the hardware's (R80, R100). -/
theorem InSlot.halves_second {n : BitVec 16} {o : Owner} {ch : Channel}
    (h : InSlot .halves n (n.toNat - n.toNat / 2) true o ch) (hn : 2 ≤ n.toNat) :
    InSlot .halves n n.toNat false .hw (advance^[n.toNat - n.toNat / 2] ch) := by
  obtain ⟨hs, hack, rfl, hleft, -, -, hown1⟩ := h
  obtain ⟨f, e⟩ := advance_iterate_ndtr (ch := ch) (by omega) (by omega)
  rw [hleft, endCycle_halves (ch := ch.counted _ f) hs] at e
  have hkept : (ch.counted (ch.reload.toNat - ch.reload.toNat / 2) f).own1 = ch.own1 :=
    if_neg fun h => by
      have := h.2.1
      simp only [index, count] at this
      omega
  rw [e, hkept]
  refine ⟨hs, hack, rfl, rfl, (curSlot_halves ?_).trans (decide_eq_false ?_), rfl, hown1⟩
  · exact hs
  · simp only [index, count, counted_reload]
    omega

/-- After `q` cycles of DUAL, each with its handoff, the engine is in slot `q mod 2`, which alone is the hardware's
(R100). -/
theorem InSlot.dual_rounds {n : BitVec 16} {ch : Channel} (h : InSlot .dual n n.toNat false .app ch)
    (hpos : 1 ≤ n.toNat) (q : Nat) :
    InSlot .dual n n.toNat (decide (q % 2 = 1)) .app ((fun d => (advance^[n.toNat] d).ownEffect .tc)^[q] ch) := by
  induction q with
  | zero => exact h
  | succ q ih =>
    have hodd : (!decide (q % 2 = 1)) = decide ((q + 1) % 2 = 1) := by
      rw [← decide_not, decide_eq_decide]
      omega
    rw [Function.iterate_succ_apply', ← hodd]
    exact (ih.dual_cycle hpos).handoff rfl

/-- After any number of cycles of HALVES, with the handoff of each half, the engine is in slot 0, which alone is the
hardware's (R100). -/
theorem InSlot.halves_rounds {n : BitVec 16} {ch : Channel} (h : InSlot .halves n n.toNat false .app ch)
    (hn : 2 ≤ n.toNat) (q : Nat) :
    InSlot .halves n n.toNat false .app
      ((fun d => (advance^[n.toNat - n.toNat / 2] ((advance^[n.toNat / 2] d).ownEffect .ht)).ownEffect .tc)^[q]
        ch) := by
  induction q with
  | zero => exact h
  | succ q ih =>
    rw [Function.iterate_succ_apply']
    exact (((ih.halves_first hn).handoff rfl).halves_second hn).handoff rfl

/-- The TC event of DUAL is about the slot the engine has left (R94). -/
theorem eventSlot_dual {ch : Channel} (hs : ch.scheme = .dual) : ch.eventSlot .tc = !ch.curSlot := by
  simp [eventSlot, curSlot_dual hs, hs]

/-- The HT event of HALVES is about slot 0 and the TC event about slot 1 (R94). -/
theorem eventSlot_halves {ch : Channel} (hs : ch.scheme = .halves) :
    ch.eventSlot .ht = false ∧ ch.eventSlot .tc = true := by
  simp [eventSlot, hs]

end Channel

/-- Settles O49: the handoff after each cycle of DUAL, and after each half of HALVES, leaves the engine's slot alone to
the hardware, and the next one is entered from there. -/
theorem dualSlotsAlternate : Obligations.DualSlotsAlternate := by
  intro ch n hack hct hfull hpos hown0 hown1 count
  have hndtr : ch.ndtr.toNat = count := congrArg BitVec.toNat hfull
  refine ⟨fun hs => ?_, fun hs hn => ?_⟩
  · intro cycle round d
    have hstart : Channel.InSlot .dual ch.reload count false .app ch :=
      ⟨hs, hack, rfl, hndtr, (Channel.curSlot_dual hs).trans hct, hown0, hown1⟩
    have hd : Channel.InSlot .dual ch.reload count (decide (n % 2 = 1)) .app d := hstart.dual_rounds hpos n
    have hcycle := hd.dual_cycle hpos
    have hslot : (cycle d).eventSlot .tc = decide (n % 2 = 1) := by
      rw [Channel.eventSlot_dual hcycle.scheme, hcycle.curSlot, Bool.not_not]
    refine ⟨hd.own0.trans ?_, hd.own1.trans ?_, hcycle.own0.trans (ite_self _), hcycle.own1.trans (ite_self _), hslot⟩
    all_goals rcases Nat.mod_two_eq_zero_or_one n with h | h <;> simp [h]
  · intro first second d
    have hcur : ch.curSlot = false := by
      rw [Channel.curSlot_halves hs, decide_eq_false_iff_not]
      simp only [Channel.count, Channel.index]
      omega
    have hstart : Channel.InSlot .halves ch.reload count false .app ch := ⟨hs, hack, rfl, hndtr, hcur, hown0, hown1⟩
    have hd : Channel.InSlot .halves ch.reload count false .app d := hstart.halves_rounds hn n
    have hfirst := hd.halves_first hn
    have hhandoff := hfirst.handoff (k := .ht) rfl
    have hsecond := hhandoff.halves_second hn
    exact ⟨hd.own0, hd.own1, hfirst.own0, hfirst.own1, (Channel.eventSlot_halves hfirst.scheme).1, hhandoff.own0,
      hhandoff.own1, hsecond.own0, hsecond.own1, (Channel.eventSlot_halves hsecond.scheme).2⟩

/-! ## Acknowledgements and errors (R79, R83 to R85) -/

/-- Settles O33: the guards are those of R79 and R85, and each step updates its channel. -/
theorem engineAcknowledgesEnableAndDisable : Obligations.EngineAcknowledgesEnableAndDisable := by
  intro s c hf hc
  have hon := onlyChannel_of_modify (t := ackOnStep c s) (f := fun ch => { ch with enAck := true, cstate := .running })
    hc rfl
  have hoff := onlyChannel_of_modify (t := ackOffStep c s) (f := fun ch => { ch with enAck := false }) hc rfl
  refine ⟨?_, ⟨_, rfl, hon, rfl⟩, ?_, ⟨_, rfl, hoff, rfl⟩⟩
  · simp [enabled_eq_guard hf, State.guard, hc, Channel.enPending, and_assoc]
  · simp [enabled_eq_guard hf, State.guard, hc, Channel.disPending]

/-- The flags with an error class set (R83). -/
theorem raised_err (f : Flags) (k : ErrCls) :
    f.raised k.cls =
      { f with te := f.te || decide (k = .te), fe := f.fe || decide (k = .fe), dme := f.dme || decide (k = .dme) } := by
  cases k <;> simp [Flags.raised, ErrCls.cls]

/-- A transfer step whose target is not all RAM is a bus error (R84). -/
theorem perform_xfer_of_not_ram {s : State} {c : Nat} (h : (s.ch c).targetInRam s.params = false) :
    perform (.xfer c) s = .next (errStep c .te s) := by
  simp only [perform, xferStep, h, Bool.false_eq_true, if_false]

/-- Settles O38: an error step, be it the bus error of a transfer outside RAM, fails its channel. -/
theorem errorsEndTheTransfer : Obligations.ErrorsEndTheTransfer := by
  intro s c k hf hc hack ch i ended
  have hended : ∀ e, ended e (errStep c e s) := by
    intro e
    have honly := onlyChannel_of_modify (t := errStep c e s) (f := Channel.fail e) hc rfl
    rw [Channel.fail, raised_err] at honly
    cases e <;> exact ⟨honly, rfl⟩
  refine ⟨?_, ⟨_, rfl, hended k⟩, fun hn => ?_, fun hn hram => ⟨errStep c .te s, ?_, hended .te⟩⟩
  · simp [enabled_eq_guard hf, State.guard, hc, hack]
  · simpa [enabled_eq_guard hf, State.guard, hc, hack] using hn
  · obtain ⟨b, hb, hno⟩ := hram
    have htarget : ch.targetInRam s.params = false := Bool.eq_false_iff.2 fun h =>
      Bool.noConfusion ((allRam_eq_true.1 h b hb).symm.trans hno)
    exact perform_xfer_of_not_ram htarget

end Sys2Proof.Machine
end

section
/-! SUPPORT. Liveness of a one-shot transfer (R87, R88): what a step can leave of a transfer that nothing disturbs, and
the fair run on which it completes. -/

namespace Sys2Proof.Machine

open Safety

/-! ## A transfer that nothing disturbs -/

/-- The channel after an update of one channel. -/
theorem ch_of_modify {s t : State} {c d : Nat} {f : Channel → Channel} (hc : c < s.numChannels)
    (ht : t.chs = s.chs.modify d f) : t.ch c = if c = d then f (s.ch c) else s.ch c := by
  rw [State.ch_congr (t := s.modCh d f) ht]
  split
  · next e => subst e; exact s.modCh_ch_same c f hc
  · next ne => exact s.modCh_ch_ne d c f ne

/-- One-shot channel `c` transfers in `s`, and nothing disturbs it: its engine runs with elements left, all its element
bytes are RAM, no error is admitted, and the host neither has requested its disable nor waits for one. -/
structure Undisturbed (c : Nat) (s : State) : Prop where
  lt      : c < s.numChannels
  scheme  : (s.ch c).scheme = .oneshot
  running : (s.ch c).cstate = .running
  enAck   : (s.ch c).enAck = true
  enReq   : (s.ch c).enReq = true
  ndtr    : 1 ≤ (s.ch c).ndtr.toNat ∧ (s.ch c).ndtr.toNat ≤ (s.ch c).reload.toNat
  waits   : s.hw.stopping c = false
  admits  : ∀ k, s.params.admits k = false
  ram     : ∀ i, i < (s.ch c).reload.toNat → ∀ k, k < (s.ch c).ub → s.params.isRam ((s.ch c).maddr i + k) = true

/-- The next element of an undisturbed transfer is in RAM. -/
theorem Undisturbed.targetInRam {c : Nat} {s : State} (h : Undisturbed c s) :
    (s.ch c).targetInRam s.params = true := by
  obtain ⟨hpos, hle⟩ := h.ndtr
  exact allRam_eq_true.2 (h.ram _ (by simp only [Channel.index]; omega))

/-- Its transfer step is enabled. -/
theorem Undisturbed.enabled_xfer {c : Nat} {s : State} (h : Undisturbed c s) (hf : s.faults = []) :
    s.enabled (.xfer c) = true := by
  have hne : (s.ch c).ndtr ≠ 0 := fun e => by
    have := h.ndtr.1
    rw [e] at this
    exact absurd this (by decide)
  simpa [enabled_eq_guard hf, State.guard, h.lt, h.enAck] using hne

/-- The transfer of channel `c` stands from `s` to `t`: its engine runs on with the same elements left, and the host
waits for no disable of it. -/
structure Stands (c : Nat) (s t : State) : Prop where
  cstate : (t.ch c).cstate = (s.ch c).cstate
  enAck  : (t.ch c).enAck = (s.ch c).enAck
  ndtr   : (t.ch c).ndtr = (s.ch c).ndtr
  waits  : t.hw.stopping c = false

theorem stands_of_ch_eq {c : Nat} {s t : State} (h : t.ch c = s.ch c) (hw : t.hw.stopping c = false) : Stands c s t :=
  ⟨by rw [h], by rw [h], by rw [h], hw⟩

/-- An update of another channel leaves a transfer standing. -/
theorem stands_of_modify_ne {c d : Nat} {f : Channel → Channel} {s t : State} (hc : c < s.numChannels) (hne : c ≠ d)
    (ht : t.chs = s.chs.modify d f) (hw : t.hw.stopping c = false) : Stands c s t :=
  stands_of_ch_eq ((ch_of_modify hc ht).trans (if_neg hne)) hw

/-- An update that keeps what a transfer rests on leaves it standing. -/
theorem stands_of_modify {c d : Nat} {f : Channel → Channel} {s t : State} (hc : c < s.numChannels)
    (hf : (f (s.ch c)).cstate = (s.ch c).cstate ∧ (f (s.ch c)).enAck = (s.ch c).enAck ∧
      (f (s.ch c)).ndtr = (s.ch c).ndtr)
    (ht : t.chs = s.chs.modify d f) (hw : t.hw.stopping c = false) : Stands c s t := by
  obtain ⟨h1, h2, h3⟩ := hf
  have hch := ch_of_modify hc ht
  split at hch
  · exact ⟨by rw [hch, h1], by rw [hch, h2], by rw [hch, h3], hw⟩
  · exact stands_of_ch_eq hch hw

theorem stands_transferStep_ne {c d : Nat} {s : State} (hc : c < s.numChannels) (hne : c ≠ d)
    (hw : s.hw.stopping c = false) : Stands c s (transferStep d s) := by
  obtain ⟨m, e, -⟩ := transferStep_state d s
  exact stands_of_modify_ne hc hne (congrArg State.chs e) (by rw [e]; exact hw)

/-- The class loop of a dispatch writes of a channel only its owners and queue (R92 to R94). -/
theorem Dispatched.stands {c d : Nat} {s t : State} (h : Dispatched d s t) (hw : s.hw.stopping c = false) :
    Stands c s t := by
  have hwait : t.hw.stopping c = false := h.hw_eq ▸ hw
  by_cases hc : c = d
  · obtain ⟨o0, o1, q, e, -, -⟩ := h.own
    rw [← hc] at e
    exact ⟨by rw [e], by rw [e], by rw [e], hwait⟩
  · exact stands_of_ch_eq (h.other c hc) hwait

theorem Stands.trans {c : Nat} {s t u : State} (h : Stands c s t) (h' : Stands c t u) : Stands c s u :=
  ⟨h'.cstate.trans h.cstate, h'.enAck.trans h.enAck, h'.ndtr.trans h.ndtr, h'.waits⟩

theorem stands_dispatchStep {c : Nat} {s : State} (hc : c < s.numChannels) (hw : s.hw.stopping c = false) :
    Stands c s (dispatchStep s) := by
  unfold dispatchStep
  split
  · exact stands_of_ch_eq rfl hw
  · next d m _ =>
    refine (stands_of_modify hc ?_ rfl ?_).trans ((dispatchClasses_dispatched d m dispatchOrder _).stands ?_)
    · exact ⟨rfl, rfl, rfl⟩
    · exact hw
    · exact hw

theorem stands_tickStep {c : Nat} {s : State} (hw : s.hw.stopping c = false) : Stands c s (tickStep s) := by
  have hch : (tickStep s).ch c = (s.ch c).age := List.getD_map s.chs Channel.reset Channel.age
  rw [Channel.age] at hch
  split at hch <;> exact ⟨by rw [hch], by rw [hch], by rw [hch], hw⟩

/-- The host's wait for the disable of another channel. -/
theorem ne_of_not_stopping {c d : Nat} {w : Wait} (h : w.stopping c = false) (hw : w.stopping d = true) : c ≠ d := by
  rintro rfl
  rw [h] at hw
  cases hw

/-- A disable requested of an undisturbed transfer's channel would leave it RUNNING with its request withdrawn. -/
theorem ne_of_requestDisable {c d : Nat} {s t : State} (hu : Undisturbed c s)
    (ht : t.chs = s.chs.modify d Channel.requestDisable)
    (hreq : (t.ch c).cstate = .running → (t.ch c).enReq = true) : c ≠ d := fun e => by
  rw [ch_of_modify hu.lt ht, if_pos e] at hreq
  cases hreq hu.running

/-- Each rule of the machine leaves an undisturbed transfer standing, but for the transfer of its own element, as long
as the channel's enable stays requested (R86, R88). -/
theorem Effect.stands {s t : State} {m : Move} {c : Nat} (h : Effect s m t) (hg : s.guard m = true)
    (hm : m ≠ .xfer c) (hu : Undisturbed c s) (hreq : (t.ch c).cstate = .running → (t.ch c).enReq = true) :
    Stands c s t := by
  have hc := hu.lt
  have hrun := hu.running
  have hwait := hu.waits
  cases h
  case cfg d h par m0ar m1ar ndt hw hi hd en st ok =>
    refine stands_of_modify_ne hc ?_ rfl hwait
    rintro rfl
    simp [Channel.enabled, hu.enAck] at en
  case start d hw hi hd st =>
    refine stands_of_modify_ne hc ?_ rfl rfl
    rintro rfl
    simp [hrun] at st
  case sack d hw hi hd st ak r v =>
    refine stands_of_modify_ne hc ?_ rfl hwait
    rintro rfl
    simp [hrun] at st
  case startLate d t0 hw st =>
    refine stands_of_modify_ne hc ?_ rfl rfl
    rintro rfl
    simp [hrun] at st
  case swaitTaken d t0 n hw st r =>
    refine stands_of_modify_ne hc ?_ rfl rfl
    rintro rfl
    simp [hrun] at st
  case stopDone d t0 hw _ | stopLate d t0 hw _ | swaitStopped d t0 hw _ | swaitLate d t0 hw _ =>
    exact stands_of_modify_ne hc (ne_of_not_stopping hwait (by simp [hw, Wait.stopping])) rfl rfl
  case stop d hw hi hd =>
    have hne : c ≠ d.toNat := ne_of_requestDisable hu rfl hreq
    exact stands_of_modify_ne hc hne rfl (by simpa [Wait.stopping] using hne.symm)
  case swaitTimeout d t0 n hw st st' =>
    have hne : c ≠ d := ne_of_requestDisable hu rfl hreq
    exact stands_of_modify_ne hc hne rfl (by simpa [Wait.stopping] using hne.symm)
  case clrf | sevt =>
    refine stands_of_modify hc ?_ rfl hwait
    exact ⟨rfl, rfl, rfl⟩
  case ackOn d =>
    refine stands_of_modify hc ?_ rfl hwait
    exact ⟨hrun.symm, hu.enAck.symm, rfl⟩
  case ackOff d =>
    refine stands_of_modify_ne hc ?_ rfl hwait
    rintro rfl
    simp [State.guard, Channel.disPending, hu.enReq] at hg
  case error d k =>
    refine stands_of_modify_ne hc ?_ rfl hwait
    simp [State.guard, hu.admits] at hg
  case transfer d _ => exact stands_transferStep_ne hc (fun e => hm (by rw [e])) hwait
  case busError d _ => exact stands_of_modify_ne hc (fun e => hm (by rw [e])) rfl hwait
  case dispatch => exact stands_dispatchStep hc hwait
  case tick => exact stands_tickStep hwait
  case swait | dly | startDone | swaitReported | dlyDone => exact stands_of_ch_eq rfl rfl
  case illegal | malformed | answer | hostFault | store | snapshot => exact stands_of_ch_eq rfl hwait

/-! ## A step of an undisturbed transfer -/

/-- The transfer of channel `c` has completed (R88). -/
def TransferDone (c : Nat) (s : State) : Prop :=
  (s.ch c).cstate = .completed ∧ (s.ch c).ndtr = 0 ∧ (s.ch c).enAck = false ∧ (s.ch c).flags.tc = true

/-- In a scheme but DUAL the elements' addresses are a matter of the descriptor alone (R78). -/
theorem SameDescriptor.maddr {ch d : Channel} (h : SameDescriptor ch d) (hs : ch.scheme ≠ .dual) (i : Nat) :
    d.maddr i = ch.maddr i := by
  have hds : d.scheme ≠ .dual := by
    rw [h]
    exact hs
  rw [Channel.maddr, Channel.maddr, Channel.base_of_not_dual hs, Channel.base_of_not_dual hds, h]
  rfl

/-- A step keeps the scheme, the count and the element addresses of an undisturbed transfer, since CFG is refused on
its channel, and the parameters. So it stays undisturbed while its engine runs on with elements left. -/
theorem Undisturbed.of_step {c : Nat} {s t : State} (hu : Undisturbed c s) (h : step s = .next t)
    (hrun : (t.ch c).cstate = .running) (hack : (t.ch c).enAck = true) (hreq : (t.ch c).enReq = true)
    (hpos : 1 ≤ (t.ch c).ndtr.toNat) (hle : (t.ch c).ndtr.toNat ≤ (s.ch c).ndtr.toNat)
    (hwait : t.hw.stopping c = false) : Undisturbed c t := by
  obtain ⟨-, -, -, hparams, -, hnum, -⟩ := stepOnlyAppends s t h
  obtain hsame | ⟨hen, -⟩ := step_descriptor h c
  case inr => simp [Channel.enabled, hu.enAck] at hen
  have hmaddr := hsame.maddr (by simp [hu.scheme])
  have hreload : (t.ch c).reload = (s.ch c).reload := by rw [hsame]
  have hub : (t.ch c).ub = (s.ch c).ub := by rw [hsame]; rfl
  have hscheme : (t.ch c).scheme = (s.ch c).scheme := by rw [hsame]; rfl
  refine ⟨hnum ▸ hu.lt, hscheme.trans hu.scheme, hrun, hack, hreq, ⟨hpos, ?_⟩, hwait, hparams ▸ hu.admits, ?_⟩
  · rw [hreload]
    exact hle.trans hu.ndtr.2
  · simp only [hreload, hub, hmaddr, hparams]
    exact hu.ram

/-- The transfer of an element of an undisturbed transfer leaves one element less, or completes it (R80). -/
theorem Undisturbed.transfer_or_done {c : Nat} {s t : State} (hu : Undisturbed c s) (h : step s = .next t)
    (ht : t.ch c = (s.ch c).advance) (hwait : t.hw.stopping c = false) :
    TransferDone c t ∨ (Undisturbed c t ∧ (t.ch c).ndtr.toNat < (s.ch c).ndtr.toNat) := by
  have hpos := hu.ndtr.1
  by_cases hlast : (s.ch c).ndtr = 1#16
  · left
    rw [TransferDone, ht, Channel.advance_eq]
    simp [hlast, hu.scheme, hu.running]
  · right
    have hndtr : (t.ch c).ndtr.toNat = (s.ch c).ndtr.toNat - 1 := by
      rw [ht, Channel.advance_ndtr hpos, if_neg (by simp [hu.scheme])]
    have hne : (s.ch c).ndtr.toNat ≠ 1 := fun e => hlast (BitVec.eq_of_toNat_eq e)
    refine ⟨hu.of_step h ?_ ?_ ?_ (by omega) (by omega) hwait, by omega⟩
    all_goals
      rw [ht, Channel.advance_eq]
      simp [hlast, hu.running, hu.enAck, hu.enReq]

/-- A step that answers a next state performs the one the scheduler picks. -/
theorem step_pick {s t : State} (h : step s = .next t) :
    s.faults = [] ∧ ∃ m u, s.pick = some (m, u) ∧ perform m u = .next t := by
  obtain ⟨hf, _, _, he, -⟩ := step_next h
  obtain ⟨m, u, hp⟩ := pick_isSome he
  exact ⟨hf, m, u, hp, step_of_pick hf hp ▸ h⟩

/-- Picking a step disturbs no transfer. -/
theorem Undisturbed.rescheduled {c : Nat} {s u : State} (hu : Undisturbed c s) (hr : Rescheduled s u) :
    Undisturbed c u := by
  obtain ⟨hc, hs, hrun, hack, hreq, hndtr, hwait, hadm, hram⟩ := hu
  rw [hr]
  exact ⟨hc, hs, hrun, hack, hreq, hndtr, hwait, hadm, hram⟩

theorem transferStep_ch_hw {c : Nat} {s : State} (hc : c < s.numChannels) :
    (transferStep c s).ch c = (s.ch c).advance ∧ (transferStep c s).hw = s.hw := by
  obtain ⟨m, e, -⟩ := transferStep_state c s
  exact ⟨(ch_of_modify hc (congrArg State.chs e)).trans (if_pos rfl), by rw [e]⟩

/-- A step completes an undisturbed transfer or leaves it undisturbed with no more elements, and with fewer where it
is the transfer's own, as long as the channel's enable stays requested (R86, R88). -/
theorem Undisturbed.next_or_done {c : Nat} {s t : State} (hu : Undisturbed c s) (h : step s = .next t)
    (hreq : (t.ch c).cstate = .running → (t.ch c).enReq = true) :
    TransferDone c t ∨ (Undisturbed c t ∧ (t.ch c).ndtr.toNat ≤ (s.ch c).ndtr.toNat ∧
      (Takes s (· = .xfer c) → (t.ch c).ndtr.toNat < (s.ch c).ndtr.toNat)) := by
  obtain ⟨hf, m, u, hp, hperf⟩ := step_pick h
  obtain ⟨he, hr⟩ := pick_some hp
  have huu := hu.rescheduled hr
  have hch : u.ch c = s.ch c := by rw [hr]; rfl
  by_cases hm : m = .xfer c
  · subst hm
    rw [perform_xfer_of_ram huu.targetInRam] at hperf
    obtain rfl := Host.Outcome.next.inj hperf
    obtain ⟨hadv, hhw⟩ := transferStep_ch_hw huu.lt
    exact (hu.transfer_or_done h (hch ▸ hadv) (hhw ▸ huu.waits)).imp_right fun ⟨hut, hlt⟩ =>
      ⟨hut, hlt.le, fun _ => hlt⟩
  · have hg : u.guard m = true := by
      rw [hr, guard_rescheduled, ← enabled_eq_guard hf]
      exact he
    obtain ⟨hst, hack, hndtr, hwait⟩ := (perform_effect hperf).stands hg hm huu hreq
    rw [hch] at hst hack hndtr
    have hrun := hst.trans hu.running
    refine .inr ⟨hu.of_step h hrun (hack.trans hu.enAck) (hreq hrun) (hndtr ▸ hu.ndtr.1) (by rw [hndtr]) hwait,
      by rw [hndtr], ?_⟩
    rintro ⟨m', u', hm', hp'⟩
    rw [hp] at hp'
    cases hp'
    exact absurd hm' hm

/-! ## The fair run (R87, R88) -/

/-- On a fair run a transfer that is undisturbed for good would leave fewer elements over and over. -/
theorem not_undisturbed_forever {r : Nat → State} {c : Nat} (hr : FairRun r) (hu : ∀ n, Undisturbed c (r n))
    (hle : ∀ n, ((r (n + 1)).ch c).ndtr.toNat ≤ ((r n).ch c).ndtr.toNat)
    (hlt : ∀ n, Takes (r n) (· = .xfer c) → ((r (n + 1)).ch c).ndtr.toNat < ((r n).ch c).ndtr.toNat) : False := by
  let left := fun n => ((r n).ch c).ndtr.toNat
  have hanti : Antitone left := antitone_nat_of_succ_le hle
  let n := Function.argmin left
  obtain ⟨k, hk, htake⟩ := hr.transfer c n fun k _ => ⟨_, rfl, (hu k).enabled_xfer (step_pick (hr.run k)).1⟩
  exact Function.not_lt_argmin left (k + 1) ((hlt k htake).trans_le (hanti hk))

/-- Settles O41: while the transfer has not completed it stays undisturbed, so a fair run would take its elements
without end. -/
theorem fairOneShotRunCompletes : Obligations.FairOneShotRunCompletes := by
  intro r c hr hc hs hrun hack hndtr hinv hadm hram hreq
  by_contra hno
  have hpos : 1 ≤ ((r 0).ch c).ndtr.toNat := Nat.pos_of_ne_zero fun e => hndtr (BitVec.eq_of_toNat_eq e)
  have hwait : (r 0).hw.stopping c = false := Bool.eq_false_iff.2 fun h =>
    Bool.noConfusion (((hinv c hc).stopReq h).symm.trans (hreq 0 hrun))
  have hstep := fun n (hu : Undisturbed c (r n)) =>
    (hu.next_or_done (hr.run n) (hreq (n + 1))).resolve_left fun hdone => hno ⟨n + 1, hdone⟩
  have hall : ∀ n, Undisturbed c (r n) := fun n => by
    induction n with
    | zero => exact ⟨hc, hs, hrun, hack, hreq 0 hrun, ⟨hpos, (hinv c hc).ndtr⟩, hwait, hadm, hram⟩
    | succ n ih => exact (hstep n ih).1
  exact not_undisturbed_forever hr hall (fun n => (hstep n (hall n)).2.1) fun n => (hstep n (hall n)).2.2

end Sys2Proof.Machine
end

section
/-! SUPPORT. The notifier (R89 to R96): what it holds, its snapshot, the record and the ownership effect of a class, and
what a dispatch leaves, with room in the queue and without. -/

namespace Sys2Proof.Machine

open Safety

/-! ## The hold and the snapshot (R89 to R91) -/

/-- While the notifier is not idle the host's guard fails (R91). -/
theorem hostReady_of_snapped {s : State} {c : Nat} {m : Flags} (h : s.ntf = .snapped c m) : s.hostReady = false := by
  simp [State.hostReady, h]

/-- Settles O11: the phase stands in the guards of the host and of the notifier alone. -/
theorem notifierHoldsTheHostOnly : Obligations.NotifierHoldsTheHostOnly := by
  intro s c m hn
  refine ⟨?_, fun mv hhost hdispatch hsnap => ?_⟩
  · simp [State.enabled, State.guard, hostReady_of_snapped hn]
  · cases mv with
    | host => exact absurd rfl hhost
    | dispatch => exact absurd rfl hdispatch
    | snap d => exact absurd rfl (hsnap d)
    | ackOn d | ackOff d | xfer d | err d k | tick => rfl

/-- The interrupt line, class by class (R89). -/
theorem Channel.irq_iff (ch : Channel) :
    ch.irq = true ↔
      (ch.flags.tc = true ∧ ch.ie.tc = true) ∨ (ch.flags.ht = true ∧ ch.ie.ht = true) ∨
        (ch.flags.te = true ∧ ch.ie.te = true) ∨ (ch.flags.fe = true ∧ ch.ie.fe = true) ∨
        (ch.flags.dme = true ∧ ch.ie.dme = true) := by
  simp only [irq, Flags.meetsAny, Bool.or_eq_true, Bool.and_eq_true, or_assoc]

/-- Settles O43: the guard is the idle phase with the interrupt line, and entry writes the phase and the history. -/
theorem snapshotTakesAllFlags : Obligations.SnapshotTakesAllFlags := by
  intro s c hf hc
  refine ⟨?_, rfl⟩
  simp [enabled_eq_guard hf, State.guard, hc, Channel.irq_iff]

/-! ## The record of an event (R94) -/

namespace Channel

/-- Every event of ONESHOT is about slot 0. -/
theorem eventSlot_of_oneshot {ch : Channel} (hs : ch.scheme = .oneshot) (k : Cls) : ch.eventSlot k = false := by
  simp only [eventSlot, hs]

/-- An error of HALVES is about the current slot. -/
theorem eventSlot_of_halves {ch : Channel} {k : Cls} (hs : ch.scheme = .halves) (hht : k ≠ .ht) (htc : k ≠ .tc) :
    ch.eventSlot k = ch.curSlot := by
  simp only [eventSlot, hs, if_neg hht, if_neg htc]

/-- Every event of DUAL but TC is about the current slot. -/
theorem eventSlot_of_dual {ch : Channel} {k : Cls} (hs : ch.scheme = .dual) (htc : k ≠ .tc) :
    ch.eventSlot k = ch.curSlot := by
  simp only [eventSlot, hs, if_neg htc, curSlot_dual hs]

end Channel

/-- Settles O45: the outcome by class, and the slot by scheme and class. -/
theorem eventRecordOfAClass : Obligations.EventRecordOfAClass := by
  intro ch k e
  refine ⟨rfl, ?_, ?_, ?_, fun hcirc => ?_, fun hcirc hdbm => ?_, fun hcirc hdbm => ?_⟩
  · rintro (rfl | rfl) <;> rfl
  · rintro rfl
    rfl
  · rintro (rfl | rfl) <;> rfl
  · exact ch.eventSlot_of_oneshot (Channel.scheme_oneshot.2 hcirc) k
  · have hs : ch.scheme = .halves := Channel.scheme_halves.2 ⟨hcirc, hdbm⟩
    refine ⟨?_, ?_, fun hht htc => ?_⟩
    · rintro rfl
      exact (Channel.eventSlot_halves hs).1
    · rintro rfl
      exact (Channel.eventSlot_halves hs).2
    · exact (Channel.eventSlot_of_halves hs hht htc).trans (Channel.curSlot_halves hs)
  · have hs : ch.scheme = .dual := Channel.scheme_dual.2 ⟨hcirc, hdbm⟩
    rw [← Channel.curSlot_dual hs]
    refine ⟨?_, Channel.eventSlot_of_dual hs⟩
    rintro rfl
    exact Channel.eventSlot_dual hs

/-! ## The ownership effect of a class (R93) -/

/-- The boundary classes of a scheme (R93). -/
theorem isBoundary_iff (k : Cls) (sch : Scheme) :
    isBoundary k sch = true ↔ (k = .tc ∧ sch ≠ .oneshot) ∨ (k = .ht ∧ sch = .halves) := by
  cases k <;> cases sch <;> decide

/-- The terminal classes of a scheme (R93). -/
theorem isTerminal_iff (k : Cls) (sch : Scheme) :
    isTerminal k sch = true ↔ k = .te ∨ k = .fe ∨ k = .dme ∨ (k = .tc ∧ sch = .oneshot) := by
  cases k <;> cases sch <;> decide

namespace Channel

/-- A boundary or terminal class of a stopped engine gives both slots to the application (R93). -/
theorem ownEffect_of_stopped {ch : Channel} {k : Cls}
    (h : isBoundary k ch.scheme = true ∨ isTerminal k ch.scheme = true)
    (hack : ch.enAck = false) : ch.ownEffect k = { ch with own0 := .app, own1 := .app } :=
  if_pos (by simpa [hack] using h)

/-- A class that is no boundary, nor terminal to a stopped engine, leaves the owners (R93). -/
theorem ownEffect_of_none {ch : Channel} {k : Cls} (hb : ¬ isBoundary k ch.scheme = true)
    (ht : ¬ (isTerminal k ch.scheme = true ∧ ch.enAck = false)) : ch.ownEffect k = ch := by
  refine (if_neg ?_).trans (if_neg hb)
  simpa [hb] using ht

end Channel

/-- Settles O47: the three branches of the ownership effect, over the boundary and terminal classes of the scheme. -/
theorem ownershipHandoffOfAClass : Obligations.OwnershipHandoffOfAClass := by
  intro ch k boundary terminal
  have hb : isBoundary k ch.scheme = true ↔ boundary := by
    rw [isBoundary_iff, Channel.scheme_halves, ne_eq, Channel.scheme_oneshot, Bool.not_eq_false]
  have ht : isTerminal k ch.scheme = true ↔ terminal := by
    rw [isTerminal_iff, Channel.scheme_oneshot]
  refine ⟨fun h hack => ?_, fun h hack => ?_, fun h h' => ?_⟩
  · exact Channel.ownEffect_of_stopped (h.imp hb.2 ht.2) hack
  · rw [Channel.ownEffect_of_boundary (hb.2 h) hack]
    constructor <;> intro hcur <;> rw [hcur] <;> rfl
  · exact Channel.ownEffect_of_none (mt hb.1 h) (by rwa [ht])

/-! ## What a dispatch leaves (R92 to R94) -/

/-- The channel when a dispatch of the snapshot `m` has applied the ownership effects of `ks` and delivered the events
of `ls`: the flags of the snapshot are cleared, whatever was processed (R92 to R94). -/
def Channel.afterDispatch (m : Flags) (ks ls : List Cls) (ch : Channel) : Channel :=
  { ch.handed m ks with
    flags := ch.flags.clear m, evq := ch.evq ++ (ch.due m ls).map fun k => ch.eventOf k }

namespace Channel

/-- Field by field: a dispatch writes the flags, the queue and the owners. -/
theorem afterDispatch_eq (m : Flags) (ks ls : List Cls) (ch : Channel) :
    ch.afterDispatch m ks ls =
      { ch with
        flags := ch.flags.clear m, evq := ch.evq ++ (ch.due m ls).map fun k => ch.eventOf k
        own0 := (ch.handed m ks).own0, own1 := (ch.handed m ks).own1 } := by
  obtain ⟨o0, o1, e⟩ := handed_state m ks ch
  rw [afterDispatch, e]

@[simp] theorem afterDispatch_ie (m : Flags) (ks ls : List Cls) (ch : Channel) :
    (ch.afterDispatch m ks ls).ie = ch.ie := by
  rw [afterDispatch_eq]

@[simp] theorem afterDispatch_eventOf (m : Flags) (ks ls : List Cls) (ch : Channel) (k : Cls) :
    (ch.afterDispatch m ks ls).eventOf k = ch.eventOf k := by
  rw [afterDispatch_eq]
  exact eventOf_congr k rfl rfl rfl rfl rfl

/-- Serving classes after the flags are cleared: neither reads nor writes what the other does. -/
theorem served_clear (m : Flags) (ks : List Cls) (ch : Channel) :
    ({ ch with flags := ch.flags.clear m } : Channel).served m ks = ch.afterDispatch m ks ks := by
  have hhanded := handed_congr m ks ch (ch.flags.clear m) ch.evq
  have hevent : ∀ k, ({ ch with flags := ch.flags.clear m } : Channel).eventOf k = ch.eventOf k :=
    fun k => eventOf_congr k rfl rfl rfl rfl rfl
  simp only [served, hhanded, hevent]
  rfl

/-- One more ownership effect. -/
theorem ownEffect_afterDispatch {m : Flags} {k : Cls} (hk : m.get k = true) (ks ls : List Cls) (ch : Channel) :
    (ch.afterDispatch m ks ls).ownEffect k = ch.afterDispatch m (ks ++ [k]) ls := by
  have hhanded : ch.handed m (ks ++ [k]) = (ch.handed m ks).ownEffect k := by simp [handed, hk]
  rw [afterDispatch, ownEffect_congr, afterDispatch, hhanded]

end Channel

/-- The events a dispatch delivers of the classes `ks` (R92, R94). -/
def State.deliveries (s : State) (c : Nat) (m : Flags) (ks : List Cls) : List HistEvent :=
  ((s.ch c).due m ks).map fun k => .event c ((s.ch c).eventOf k)

section dispatch

variable {s : State} {c : Nat} {m : Flags} (hn : s.ntf = .snapped c m)
include hn

theorem dispatchStep_of_snapped :
    dispatchStep s =
      dispatchClasses c m dispatchOrder (s.modCh c fun ch => { ch with flags := ch.flags.clear m }) := by
  simp only [dispatchStep, hn]

variable (hc : c < s.numChannels)
include hc

/-- With room for the events of the first classes, a dispatch serves these and goes on with the next (R92). -/
theorem dispatchStep_of_room {ks ls : List Cls} (ho : dispatchOrder = ks ++ ls)
    (hq : (s.ch c).evq.length + ((s.ch c).due m ks).length ≤ s.params.evqDepth) :
    dispatchStep s =
      dispatchClasses c m ls
        { s.modCh c (Channel.afterDispatch m ks ks) with hist := s.hist ++ s.deliveries c m ks } := by
  let u := s.modCh c fun ch => { ch with flags := ch.flags.clear m }
  have hch : u.ch c = { s.ch c with flags := (s.ch c).flags.clear m } := s.modCh_ch_same c _ hc
  have hserved : u.modCh c (Channel.served m ks) = s.modCh c (Channel.afterDispatch m ks ks) := by
    rw [State.modCh_modCh]
    exact State.modCh_congr (Channel.served_clear m ks (s.ch c))
  have hevent : ∀ k, (u.ch c).eventOf k = (s.ch c).eventOf k := fun k => by
    rw [hch]
    exact eventOf_congr k rfl rfl rfl rfl rfl
  have hdue : (u.ch c).due m ks = (s.ch c).due m ks := by rw [hch]; rfl
  have hcu : c < u.numChannels := hc.trans_eq (s.modCh_numChannels c _).symm
  rw [dispatchStep_of_snapped hn, ho, dispatchClasses_room hcu ks ls ?_, hserved, hdue]
  · simp only [hevent]
    rfl
  · rw [hdue, hch]
    exact hq

/-- A dispatch that finds the queue full at the event of `k` applies the ownership effect of `k` and raises the fault
(R94, R121). -/
theorem dispatchStep_of_full {ks ls : List Cls} {k : Cls} (ho : dispatchOrder = ks ++ k :: ls) (hk : m.get k = true)
    (hi : (s.ch c).ie.get k = true)
    (hq : (s.ch c).evq.length + ((s.ch c).due m ks).length = s.params.evqDepth) :
    dispatchStep s =
      ({ s.modCh c (Channel.afterDispatch m (ks ++ [k]) ks) with hist := s.hist ++ s.deliveries c m ks } : State).raise
        (.evqOverflow c ((s.ch c).eventOf k)) := by
  let u := s.modCh c (Channel.afterDispatch m ks ks)
  let v : State := { u with hist := s.hist ++ s.deliveries c m ks }
  have hch : v.ch c = (s.ch c).afterDispatch m ks ks := s.modCh_ch_same c _ hc
  have hown : u.modCh c (Channel.ownEffect k) = s.modCh c (Channel.afterDispatch m (ks ++ [k]) ks) := by
    rw [State.modCh_modCh]
    exact State.modCh_congr (Channel.ownEffect_afterDispatch hk ks ks (s.ch c))
  have hfull : (v.ch c).evq.length = v.params.evqDepth := by
    rw [hch, Channel.afterDispatch, List.length_append, List.length_map]
    exact hq
  have hcv : c < v.numChannels := hc.trans_eq (s.modCh_numChannels c _).symm
  have hiv : (v.ch c).ie.get k = true := by simpa [hch] using hi
  rw [dispatchStep_of_room hn hc ho hq.le, dispatchClasses_full hcv ls hk hiv hfull, hch, Channel.afterDispatch_eventOf,
    ← hown]
  rfl

end dispatch

/-- A state whose channel `c` alone is as a dispatch leaves it, field by field. -/
theorem onlyChannel_afterDispatch {s t : State} {c : Nat} {m : Flags} {ks ls : List Cls} (hc : c < s.numChannels)
    (ht : t.chs = s.chs.modify c (Channel.afterDispatch m ks ls)) :
    OnlyChannel s t c
      { s.ch c with
        flags := (s.ch c).flags.clear m
        evq := (s.ch c).evq ++ ((s.ch c).due m ls).map fun k => (s.ch c).eventOf k
        own0 := ((s.ch c).handed m ks).own0, own1 := ((s.ch c).handed m ks).own1 } :=
  Channel.afterDispatch_eq m ks ls (s.ch c) ▸ onlyChannel_of_modify hc ht

/-- Settles O44: with room for every event all the classes are served, and the notifier returns. -/
theorem dispatchDeliversInOrder : Obligations.DispatchDeliversInOrder := by
  intro s c m hn hc ch taken due handed hq
  refine ⟨_, congrArg Host.Outcome.next (dispatchStep_of_room hn hc (List.append_nil _).symm hq), ?_, rfl⟩
  exact onlyChannel_afterDispatch (ks := dispatchOrder) (ls := dispatchOrder) hc rfl

/-- Settles O46: the classes before the full queue are served, and the class that finds it raises the fault. -/
theorem deliveryIntoAFullQueueIsAFault : Obligations.DeliveryIntoAFullQueueIsAFault := by
  intro s c m before after k hf hc hn ho ch due handed f hk hi hq
  refine ⟨_, congrArg Host.Outcome.next (dispatchStep_of_full hn hc ho hk hi hq), ?_, ?_, ?_⟩
  · exact onlyChannel_afterDispatch (ks := before ++ [k]) (ls := before) hc rfl
  · simp only [State.raise, State.modCh_faults, hf]
    rfl
  · simp only [step, State.raise_faults, State.modCh_faults, hf]
    rfl

/-! ## The slot of a running engine (R93) -/

/-- From `ch` to `d` the engine stays enabled and in its slot, and the owner of that slot stays. -/
structure KeepsSlot (ch d : Channel) : Prop where
  enAck   : d.enAck = ch.enAck
  curSlot : d.curSlot = ch.curSlot
  owner   : d.own ch.curSlot = ch.own ch.curSlot

theorem KeepsSlot.trans {ch d e : Channel} (h : KeepsSlot ch d) (h' : KeepsSlot d e) : KeepsSlot ch e where
  enAck := h'.enAck.trans h.enAck
  curSlot := h'.curSlot.trans h.curSlot
  owner := (h.curSlot ▸ h'.owner).trans h.owner

/-- What is neither an owner nor read by the current slot can be written. -/
theorem keepsSlot_write (ch : Channel) (f : Flags) (q : List EventRec) :
    KeepsSlot ch { ch with flags := f, evq := q } :=
  ⟨rfl, by rw [Channel.curSlot_eq, Channel.curSlot_eq]; rfl, rfl⟩

/-- Giving away the other slot keeps this one. -/
theorem own_setOwn_not (ch : Channel) (sl : Slot) (o : Owner) : (ch.setOwn (!sl) o).own sl = ch.own sl := by
  cases sl <;> rfl

/-- The ownership effect of a class leaves a running engine its slot: a boundary gives away the other one. -/
theorem keepsSlot_ownEffect {ch : Channel} (hack : ch.enAck = true) (k : Cls) : KeepsSlot ch (ch.ownEffect k) := by
  by_cases hb : isBoundary k ch.scheme = true
  · rw [Channel.ownEffect_of_boundary hb hack]
    refine ⟨by rw [Channel.setOwn_eq], ?_, own_setOwn_not ch ch.curSlot .app⟩
    rw [Channel.setOwn_eq, Channel.curSlot_eq, Channel.curSlot_eq]
    rfl
  · rw [Channel.ownEffect_of_none hb (by simp [hack])]
    exact ⟨rfl, rfl, rfl⟩

/-- So do all the classes of a dispatch, whether or not one overflows. -/
theorem keepsSlot_dispatchClasses {c : Nat} (m : Flags) (ks : List Cls) {s : State} (hc : c < s.numChannels)
    (hack : (s.ch c).enAck = true) : KeepsSlot (s.ch c) ((dispatchClasses c m ks s).ch c) := by
  induction ks generalizing s with
  | nil => exact ⟨rfl, rfl, rfl⟩
  | cons k ks ih =>
    let t := s.modCh c (Channel.ownEffect k)
    have hct : c < t.numChannels := by simpa [t] using hc
    have hch : t.ch c = (s.ch c).ownEffect k := s.modCh_ch_same c _ hc
    have hown : KeepsSlot (s.ch c) (t.ch c) := hch ▸ keepsSlot_ownEffect hack k
    have hackt : (t.ch c).enAck = true := hown.enAck.trans hack
    have hdeliver : KeepsSlot (t.ch c) ((deliver c k t).ch c) := by
      rw [deliver, State.record_ch, State.modCh_ch_same _ _ _ hct]
      exact keepsSlot_write (t.ch c) (t.ch c).flags _
    rw [dispatchClasses]
    dsimp only
    split
    · split
      · split
        · exact hown
        · exact hown.trans (hdeliver.trans (ih (by simpa [deliver] using hct) (hdeliver.enAck.trans hackt)))
      · exact hown.trans (ih hct hackt)
    · exact ih hc hack

/-- Settles O48: neither the clearing of the flags nor the classes touch the engine's slot. -/
theorem dispatchKeepsTheEnginesSlot : Obligations.DispatchKeepsTheEnginesSlot := by
  intro s t c m hn hc hack hperf
  obtain rfl : dispatchStep s = t := Host.Outcome.next.inj hperf
  let u := s.modCh c fun ch => { ch with flags := ch.flags.clear m }
  have hch : u.ch c = { s.ch c with flags := (s.ch c).flags.clear m } := s.modCh_ch_same c _ hc
  have hclear : KeepsSlot (s.ch c) (u.ch c) := hch ▸ keepsSlot_write (s.ch c) _ (s.ch c).evq
  have hclasses := keepsSlot_dispatchClasses m dispatchOrder (s := u) (by simpa [u] using hc)
    (hclear.enAck.trans hack)
  rw [dispatchStep_of_snapped hn]
  have hkeeps := hclear.trans hclasses
  exact ⟨hkeeps.owner, hkeeps.curSlot⟩

end Sys2Proof.Machine
end

section
/-! SUPPORT. The lifecycle of a channel over a step (R109, R135): the change each rule makes to a channel keeps the
lifecycle invariant, and every change of the lifecycle state is one of the transitions. -/

namespace Sys2Proof.Machine

/-! ## The host's wait and a channel -/

namespace Wait

/-- The wait is no STOP_WAIT, SWAIT_POLL or SWAIT_STOP of channel `c`: the waits R135 speaks of. -/
def Spares (w : Wait) (c : Nat) : Prop := w.stopping c = false ∧ w.inSwait c = false

variable {c d : Nat} (t0 n : Word)

@[simp] theorem spares_none : Wait.none.Spares c := ⟨rfl, rfl⟩
@[simp] theorem spares_startWait : (Wait.startWait d t0).Spares c := ⟨rfl, rfl⟩
@[simp] theorem spares_dlyWait : (Wait.dlyWait t0 n).Spares c := ⟨rfl, rfl⟩
@[simp] theorem spares_stopWait : (Wait.stopWait d t0).Spares c ↔ d ≠ c := by simp [Spares, stopping, inSwait]
@[simp] theorem spares_swaitPoll : (Wait.swaitPoll d t0 n).Spares c ↔ d ≠ c := by simp [Spares, stopping, inSwait]
@[simp] theorem spares_swaitStop : (Wait.swaitStop d t0).Spares c ↔ d ≠ c := by simp [Spares, stopping, inSwait]

/-- A STOP_WAIT is a wait for a disable. -/
theorem stopping_of_inStopWait {w : Wait} (h : w.inStopWait c = true) : w.stopping c = true := by
  cases w <;> simp_all [inStopWait, stopping]

theorem Spares.inStopWait {w : Wait} (h : w.Spares c) : w.inStopWait c = false :=
  Bool.eq_false_iff.2 fun e => Bool.noConfusion ((stopping_of_inStopWait e).symm.trans h.1)

end Wait

/-- From `s` to `t` the host's wait is the same as far as R135 speaks of channel `c`, but that a SWAIT may have
ended. -/
structure WaitKept (c : Nat) (s t : State) : Prop where
  stopping   : t.hw.stopping c = s.hw.stopping c
  inStopWait : t.hw.inStopWait c = s.hw.inStopWait c
  inSwait    : t.hw.inSwait c = true → s.hw.inSwait c = true

theorem waitKept_of_eq {c : Nat} {s t : State} (hw : t.hw = s.hw) : WaitKept c s t :=
  ⟨by rw [hw], by rw [hw], by rw [hw]; exact id⟩

theorem waitKept_of_spares {c : Nat} {s t : State} (hs : s.hw.Spares c) (ht : t.hw.Spares c) : WaitKept c s t :=
  ⟨ht.1.trans hs.1.symm, ht.inStopWait.trans hs.inStopWait.symm, fun e => by simp [ht.2] at e⟩

/-! ## The engine's changes by lifecycle state -/

namespace Channel

variable {ch : Channel}

/-- An error ends a RUNNING transfer (R83). -/
theorem fail_of_running (hst : ch.cstate = .running) (k : ErrCls) :
    ch.fail k = { ch with
      cstate := .error, perr := k.perr, enReq := false, enAck := false, flags := ch.flags.raised k.cls
      ndtr := ch.ndtr } := by
  rw [fail, if_pos hst, if_pos hst]

/-- A channel already in ERROR keeps its pending error (R83). -/
theorem fail_of_error (hst : ch.cstate = .error) (k : ErrCls) :
    ch.fail k = { ch with
      cstate := .error, perr := ch.perr, enReq := false, enAck := false, flags := ch.flags.raised k.cls
      ndtr := ch.ndtr } := by
  simp [fail, hst]

/-- The last element of a one-shot transfer. -/
theorem advance_of_ends (h : ch.ndtr = 1 ∧ ch.scheme = .oneshot) :
    ch.advance = { ch with
      ndtr := 0, flags := ch.advance.flags, enAck := false, enReq := false
      cstate := if ch.cstate = .running then .completed else ch.cstate } := by
  rw [advance_eq]
  simp [h]

/-- Any other element: the transfer goes on, in this cycle or the next. -/
theorem advance_of_goesOn (h : ¬ (ch.ndtr = 1 ∧ ch.scheme = .oneshot)) :
    ch.advance = { ch with
      ndtr := ch.advance.ndtr, flags := ch.advance.flags, ct := ch.advance.ct, own0 := ch.advance.own0
      own1 := ch.advance.own1 } := by
  have hrun : ¬ (ch.ndtr = 1 ∧ ch.scheme = .oneshot ∧ ch.cstate = .running) := fun ⟨e, e', _⟩ => h ⟨e, e'⟩
  rw [advance_eq]
  simp only [if_neg h, if_neg hrun]

/-- It leaves a count within the cycle. -/
theorem advance_ndtr_bounds (h : ¬ (ch.ndtr = 1 ∧ ch.scheme = .oneshot)) (hpos : 1 ≤ ch.ndtr.toNat)
    (hle : ch.ndtr.toNat ≤ ch.reload.toNat) :
    1 ≤ ch.advance.ndtr.toNat ∧ ch.advance.ndtr.toNat ≤ ch.reload.toNat := by
  have hone : ch.ndtr.toNat = 1 → ch.scheme ≠ .oneshot := fun e e' => h ⟨BitVec.eq_of_toNat_eq e, e'⟩
  rw [advance_ndtr hpos]
  split
  · exact ⟨hpos.trans hle, le_rfl⟩
  · next hmid =>
    have hne : ch.ndtr.toNat ≠ 1 := fun e => hmid ⟨e, hone e⟩
    omega

end Channel

/-! ## Changes of a channel that keep its lifecycle state -/

/-- From `ch` to `d` the enables are kept or fall, the slots are kept or go to the application, a queue within `n`
stays within it, and of the rest only the flags and the age change. -/
def Subsides (n : Nat) (ch d : Channel) : Prop :=
  ∃ r a f o0 o1 q g,
    d = { ch with enReq := r, enAck := a, flags := f, own0 := o0, own1 := o1, evq := q, ackAge := g } ∧
      (r = ch.enReq ∨ r = false) ∧ (a = ch.enAck ∨ a = false) ∧ (o0 = ch.own0 ∨ o0 = .app) ∧
      (o1 = ch.own1 ∨ o1 = .app) ∧ (ch.evq.length ≤ n → q.length ≤ n)

theorem Subsides.refl (n : Nat) (ch : Channel) : Subsides n ch ch :=
  ⟨_, _, _, _, _, _, _, rfl, .inl rfl, .inl rfl, .inl rfl, .inl rfl, id⟩

namespace ChannelInv

variable {s t : State} {c : Nat}

/-- Only a transfer that runs or has ended in error has its enable acknowledged. -/
theorem cstate_of_enAck (h : ChannelInv s c) (hack : (s.ch c).enAck = true) :
    (s.ch c).cstate = .running ∨ (s.ch c).cstate = .error := by
  cases hst : (s.ch c).cstate with
  | idle => simp [(h.rest (.inl hst)).2.1] at hack
  | configured => simp [(h.rest (.inr hst)).2.1] at hack
  | armed => simp [(h.armed hst).1] at hack
  | running => exact .inl rfl
  | completed => simp [(h.completed hst).2.1] at hack
  | error => exact .inr rfl

/-- A transfer that has ended has no enable requested. -/
theorem enReq_of_ended (h : ChannelInv s c)
    (hst : (s.ch c).cstate = .completed ∨ (s.ch c).cstate = .error) : (s.ch c).enReq = false :=
  hst.elim (fun e => (h.completed e).1) h.errReq

/-- What SWAIT's poll consumes has a stopped engine (R103). -/
theorem enAck_of_consumed (h : ChannelInv s c)
    (hst : (s.ch c).cstate = .completed ∨ (s.ch c).cstate = .error ∧ (s.ch c).enAck = false) :
    (s.ch c).enAck = false :=
  hst.elim (fun e => (h.completed e).2.1) And.right

/-- A channel that is in no error has no pending error. -/
theorem perr_of_ne_error (h : ChannelInv s c) (hst : (s.ch c).cstate ≠ .error) : (s.ch c).perr = .none :=
  not_not.1 (mt h.perr.1 hst)

/-- A change that keeps the lifecycle state, with what R135 asks of the enables and the wait together. -/
theorem of_subsides (h : ChannelInv s c) (hd : Subsides s.params.evqDepth (s.ch c) (t.ch c))
    (hp : t.params = s.params)
    (harmed : (s.ch c).cstate = .armed → (t.ch c).enReq = true ∨ t.hw.inStopWait c = true)
    (hrunning : (s.ch c).cstate = .running →
      ((t.ch c).enAck = true ∧ (t.ch c).enReq = true) ∨ t.hw.stopping c = true)
    (hstop : t.hw.stopping c = true → (t.ch c).enReq = false)
    (hswait : t.hw.inSwait c = true → (s.ch c).scheme = .oneshot ∧
      ((s.ch c).cstate = .running ∨ (s.ch c).cstate = .completed ∨ (s.ch c).cstate = .error)) :
    ChannelInv t c := by
  obtain ⟨r, a, f, o0, o1, q, g, e, hr, ha, h0, h1, hq⟩ := hd
  rw [e] at harmed hrunning hstop
  have falls {b b' : Bool} (hb : b = b' ∨ b = false) (e' : b' = false) : b = false := hb.elim (·.trans e') id
  have goes {o o' : Owner} (ho : o = o' ∨ o = .app) (e' : o' = .app) : o = .app := ho.elim (·.trans e') id
  constructor <;> rw [e]
  case rest =>
    intro hst
    obtain ⟨er, ea, e0, e1⟩ := h.rest hst
    exact ⟨falls hr er, falls ha ea, goes h0 e0, goes h1 e1⟩
  case armed => exact fun hst => ⟨falls ha (h.armed hst).1, harmed hst⟩
  case running => exact hrunning
  case completed =>
    intro hst
    obtain ⟨er, ea, en⟩ := h.completed hst
    exact ⟨falls hr er, falls ha ea, en⟩
  case perr => exact h.perr
  case ndtr => exact h.ndtr
  case evq => exact hp ▸ hq h.evq
  case ct => exact h.ct
  case errReq => exact fun hst => falls hr (h.errReq hst)
  case stopReq => exact hstop
  case live => exact h.live
  case swait => exact hswait

/-- A change that keeps the lifecycle state, the enable request and the wait. -/
theorem of_kept (h : ChannelInv s c) (hd : Subsides s.params.evqDepth (s.ch c) (t.ch c)) (hp : t.params = s.params)
    (hw : WaitKept c s t) (hreq : (t.ch c).enReq = (s.ch c).enReq)
    (hack : (t.ch c).enAck = (s.ch c).enAck ∨ (s.ch c).enReq = false) : ChannelInv t c := by
  obtain ⟨hstop, hin, hsw⟩ := hw
  refine h.of_subsides hd hp (fun e => ?_) (fun e => ?_) ?_ fun e => h.swait (hsw e)
  · rw [hreq, hin]
    exact (h.armed e).2
  · rw [hreq, hstop]
    exact (h.running e).imp_left fun ⟨ea, er⟩ => ⟨(hack.resolve_right (by simp [er])).trans ea, er⟩
  · rw [hreq, hstop]
    exact h.stopReq

theorem of_ch_eq (h : ChannelInv s c) (hch : t.ch c = s.ch c) (hp : t.params = s.params) (hw : WaitKept c s t) :
    ChannelInv t c :=
  h.of_kept (hch ▸ .refl _ _) hp hw (by rw [hch]) (.inl (by rw [hch]))

/-- A change of the flags, the age or the queue, which does not grow. -/
theorem of_bookkeeping (h : ChannelInv s c) {f : Flags} {q : List EventRec} {g : Nat}
    (hch : t.ch c = { s.ch c with flags := f, evq := q, ackAge := g }) (hq : q.length ≤ (s.ch c).evq.length)
    (hp : t.params = s.params) (hw : t.hw = s.hw) : ChannelInv t c :=
  h.of_kept ⟨_, _, _, _, _, _, _, hch, .inl rfl, .inl rfl, .inl rfl, .inl rfl, hq.trans⟩ hp (waitKept_of_eq hw)
    (by rw [hch]) (.inl (by rw [hch]))

/-- A SWAIT that begins, on a one-shot channel that runs or has ended where it is of this channel (R102). -/
theorem beginSwait (h : ChannelInv s c) (hch : t.ch c = s.ch c) (hp : t.params = s.params) (hs : s.hw = .none)
    {d : Nat} {t0 n : Word} (ht : t.hw = .swaitPoll d t0 n)
    (hd : d = c → (s.ch c).scheme = .oneshot ∧
      ((s.ch c).cstate = .running ∨ (s.ch c).cstate = .completed ∨ (s.ch c).cstate = .error)) : ChannelInv t c := by
  have harmed := h.armed
  have hrunning := h.running
  rw [hs] at harmed hrunning
  refine h.of_subsides (hch ▸ .refl _ _) hp ?_ ?_ ?_ ?_ <;> rw [ht]
  · exact fun e => hch ▸ (harmed e).2
  · exact fun e => hch ▸ hrunning e
  · exact fun e => by cases e
  · exact fun e => hd (by simpa [Wait.inSwait] using e)

/-- A requested disable that the host waits for (R72, R103). -/
theorem requestDisable (h : ChannelInv s c) (hch : t.ch c = (s.ch c).requestDisable) (hp : t.params = s.params)
    (hstop : t.hw.stopping c = true) (harmed : (s.ch c).cstate = .armed → t.hw.inStopWait c = true)
    (hsw : t.hw.inSwait c = true → s.hw.inSwait c = true) : ChannelInv t c :=
  h.of_subsides ⟨_, _, _, _, _, _, _, hch, .inr rfl, .inl rfl, .inl rfl, .inl rfl, id⟩ hp
    (fun e => .inr (harmed e)) (fun _ => .inr hstop) (fun _ => by rw [hch, Channel.requestDisable_enReq])
    fun e => h.swait (hsw e)

/-- An acknowledged disable (R85). -/
theorem ackOff (h : ChannelInv s c) (hch : t.ch c = { s.ch c with enAck := false }) (hp : t.params = s.params)
    (hw : WaitKept c s t) (hreq : (s.ch c).enReq = false) : ChannelInv t c :=
  h.of_kept ⟨_, _, _, _, _, _, _, hch, .inl rfl, .inr rfl, .inl rfl, .inl rfl, id⟩ hp hw (by rw [hch]) (.inr hreq)

/-! ## Changes of the lifecycle state -/

/-- A channel released with its engine off (R73, R103, R104, R106). -/
theorem release (h : ChannelInv s c) (hch : t.ch c = (s.ch c).release) (hp : t.params = s.params)
    (hw : t.hw = .none) (hreq : (s.ch c).enReq = false) (hack : (s.ch c).enAck = false) : ChannelInv t c := by
  constructor <;> rw [hch]
  case ct => exact h.ct
  all_goals simp [hp, hw, hreq, hack, h.ndtr, h.evq, Wait.stopping, Wait.inSwait]

/-- A channel in error with its enable withdrawn (R71, R73, R83, R104). -/
theorem error (h : ChannelInv s c) {p : PErr} {f : Flags} {a : Bool} {n : BitVec 16}
    (hch : t.ch c =
      { s.ch c with cstate := .error, perr := p, enReq := false, enAck := a, flags := f, ndtr := n })
    (hne : p ≠ .none) (hn : n.toNat ≤ (s.ch c).ndtr.toNat) (hp : t.params = s.params)
    (hw : t.hw.inSwait c = true → s.hw.inSwait c = true) : ChannelInv t c := by
  have hle := hn.trans h.ndtr
  constructor <;> rw [hch]
  case ct => exact h.ct
  case swait => exact fun e => ⟨(h.swait (hw e)).1, .inr (.inr rfl)⟩
  all_goals simp [hp, hne, hle, h.evq]

/-- A wait for a disable that timed out (R73, R104). -/
theorem ackTimedOut (h : ChannelInv s c) (hch : t.ch c = (s.ch c).ackTimedOut) (hp : t.params = s.params)
    (hw : t.hw = .none) (hreq : (s.ch c).enReq = false) : ChannelInv t c := by
  have e : (s.ch c).ackTimedOut =
      { s.ch c with
        cstate := .error, perr := .ackto, enReq := false, enAck := (s.ch c).enAck, flags := (s.ch c).flags
        ndtr := (s.ch c).ndtr } := by simp [Channel.ackTimedOut, hreq]
  exact h.error (hch.trans e) (by simp) le_rfl hp (by simp [hw, Wait.inSwait])

/-- A configured channel (R66, R68). -/
theorem configure (h : ChannelInv s c) {d : CfgHead} {par m0ar m1ar ndt : Word}
    (hch : t.ch c = (s.ch c).configure d par m0ar m1ar ndt) (hp : t.params = s.params) (hw : t.hw = .none)
    (hst : (s.ch c).cstate = .idle ∨ (s.ch c).cstate = .configured)
    (hv : cfgValid d par m0ar m1ar ndt = true) : ChannelInv t c := by
  obtain ⟨hreq, hack, h0, h1⟩ := h.rest hst
  obtain ⟨-, -, -, hpos, -⟩ := (configurationValidity d par m0ar m1ar ndt).1 hv
  constructor <;> rw [hch]
  case live => exact fun _ => (BitVec.toNat_setWidth 16 ndt).symm ▸ hpos
  all_goals simp [hp, hw, hreq, hack, h0, h1, h.evq, Wait.stopping, Wait.inSwait]

/-- An armed channel (R70). -/
theorem arm (h : ChannelInv s c) (hch : t.ch c = (s.ch c).arm) (hp : t.params = s.params) {t0 : Word}
    (hw : t.hw = .startWait c t0) (hst : (s.ch c).cstate = .configured) : ChannelInv t c := by
  obtain ⟨-, hack, -, -⟩ := h.rest (.inr hst)
  have hperr := h.perr_of_ne_error (by simp [hst])
  constructor <;> rw [hch]
  case ct => exact h.ct
  all_goals simp [hp, hw, hack, hperr, hst, h.live, h.ndtr, h.evq, Wait.stopping, Wait.inSwait]

/-- An acknowledged enable (R79). -/
theorem ackOn (h : ChannelInv s c) (hch : t.ch c = { s.ch c with enAck := true, cstate := .running })
    (hp : t.params = s.params) (hw : WaitKept c s t) (hreq : (s.ch c).enReq = true)
    (hst : (s.ch c).cstate = .armed) : ChannelInv t c := by
  have hperr := h.perr_of_ne_error (by simp [hst])
  constructor <;> rw [hch]
  case ct => exact h.ct
  case stopReq => exact hw.stopping ▸ h.stopReq
  case swait => exact fun e => ⟨(h.swait (hw.inSwait e)).1, .inl rfl⟩
  all_goals simp [hp, hreq, hperr, hst, h.live, h.ndtr, h.evq]

/-- A spontaneous error or a bus error (R83, R84). -/
theorem fail (h : ChannelInv s c) {k : ErrCls} (hch : t.ch c = (s.ch c).fail k) (hp : t.params = s.params)
    (hw : WaitKept c s t) (hack : (s.ch c).enAck = true) : ChannelInv t c := by
  obtain hst | hst := h.cstate_of_enAck hack
  · have hk : k.perr ≠ .none := by cases k <;> decide
    exact h.error (hch.trans (Channel.fail_of_running hst k)) hk le_rfl hp hw.inSwait
  · exact h.error (hch.trans (Channel.fail_of_error hst k)) (h.perr.2 hst) le_rfl hp hw.inSwait

/-! ## An element transfer (R80) -/

/-- A transfer goes on, in this cycle or the next. -/
theorem goesOn (h : ChannelInv s c) {n : BitVec 16} {f : Flags} {x : Slot} {o0 o1 : Owner}
    (hch : t.ch c = { s.ch c with ndtr := n, flags := f, ct := x, own0 := o0, own1 := o1 })
    (hp : t.params = s.params) (hw : WaitKept c s t) (hack : (s.ch c).enAck = true)
    (hpos : 1 ≤ n.toNat) (hle : n.toNat ≤ (s.ch c).reload.toNat) (hx : x = true → (s.ch c).scheme = .dual) :
    ChannelInv t c := by
  have hst := h.cstate_of_enAck hack
  constructor <;> rw [hch]
  case running => exact hw.stopping ▸ h.running
  case ndtr => exact hle
  case evq => exact hp ▸ h.evq
  case ct => exact hx
  case live => exact fun _ => hpos
  case perr => exact h.perr
  case errReq => exact h.errReq
  case stopReq => exact hw.stopping ▸ h.stopReq
  case swait => exact fun e => h.swait (hw.inSwait e)
  all_goals obtain e | e := hst <;> simp [e]

/-- The last element of a one-shot transfer completes it. -/
theorem complete (h : ChannelInv s c) {f : Flags}
    (hch : t.ch c = { s.ch c with ndtr := 0, flags := f, enAck := false, enReq := false, cstate := .completed })
    (hp : t.params = s.params) (hw : WaitKept c s t) (hst : (s.ch c).cstate = .running) : ChannelInv t c := by
  have hperr := h.perr_of_ne_error (by simp [hst])
  constructor <;> rw [hch]
  case ct => exact h.ct
  case swait => exact fun e => ⟨(h.swait (hw.inSwait e)).1, .inr (.inl rfl)⟩
  all_goals simp [hp, hperr, h.evq]

/-- An element of a transfer, by whether it ends a one-shot transfer (R80). -/
theorem advance (h : ChannelInv s c) (hch : t.ch c = (s.ch c).advance) (hp : t.params = s.params)
    (hw : WaitKept c s t) (hack : (s.ch c).enAck = true) (hn : (s.ch c).ndtr ≠ 0) : ChannelInv t c := by
  by_cases hlast : (s.ch c).ndtr = 1 ∧ (s.ch c).scheme = .oneshot
  · obtain hst | hst := h.cstate_of_enAck hack
    · have hend := Channel.advance_of_ends hlast
      rw [if_pos hst] at hend
      exact h.complete (hch.trans hend) hp hw hst
    · have hend := Channel.advance_of_ends hlast
      rw [if_neg (by simp [hst]), hst] at hend
      exact h.error (hch.trans hend) (h.perr.2 hst) (Nat.zero_le _) hp hw.inSwait
  · have hpos : 1 ≤ (s.ch c).ndtr.toNat := Nat.pos_of_ne_zero fun e => hn (BitVec.eq_of_toNat_eq e)
    obtain ⟨hpos', hle⟩ := Channel.advance_ndtr_bounds hlast hpos h.ndtr
    refine h.goesOn (hch.trans (Channel.advance_of_goesOn hlast)) hp hw hack hpos' hle fun hct => ?_
    rw [Channel.advance_ct] at hct
    split at hct
    · next e => exact e.2
    · exact h.ct hct

end ChannelInv

/-! ## The lifecycle invariant over a step (R135) -/

/-! What the guards of the other agents say of the channel. -/

section guards

variable {s : State} {c : Nat}

theorem guard_ackOn (h : s.guard (.ackOn c) = true) : (s.ch c).enReq = true ∧ (s.ch c).cstate = .armed := by
  simp only [State.guard, Channel.enPending, Bool.and_eq_true, beq_iff_eq] at h
  obtain ⟨-, ⟨hreq, -⟩, hst⟩ := h
  exact ⟨hreq, hst⟩

theorem guard_ackOff (h : s.guard (.ackOff c) = true) : (s.ch c).enReq = false := by
  simp only [State.guard, Channel.disPending, Bool.and_eq_true, Bool.not_eq_true'] at h
  obtain ⟨-, hreq, -⟩ := h
  exact hreq

theorem guard_xfer (h : s.guard (.xfer c) = true) : (s.ch c).enAck = true ∧ (s.ch c).ndtr ≠ 0 := by
  simp only [State.guard, Bool.and_eq_true, bne_iff_ne] at h
  obtain ⟨⟨-, hack⟩, hn⟩ := h
  exact ⟨hack, hn⟩

theorem guard_err {k : ErrCls} (h : s.guard (.err c k) = true) : (s.ch c).enAck = true := by
  simp only [State.guard, Bool.and_eq_true] at h
  obtain ⟨⟨-, hack⟩, -⟩ := h
  exact hack

theorem guard_snap (h : s.guard (.snap c) = true) : c < s.numChannels := by
  simp only [State.guard, Bool.and_eq_true, decide_eq_true_eq] at h
  obtain ⟨⟨hc, -⟩, -⟩ := h
  exact hc

end guards

/-- A rule that updates channel `d` and writes no wait but one of `d`: channel `c` is another, which keeps its
invariant, or is `d`. -/
theorem channelInv_of_modify {s t : State} {c d : Nat} {f : Channel → Channel} (h : ChannelInv s c)
    (hc : c < s.numChannels) (ht : t.chs = s.chs.modify d f) (hp : t.params = s.params)
    (hne : d ≠ c → WaitKept c s t) (heq : d = c → t.ch c = f (s.ch c) → ChannelInv t c) : ChannelInv t c := by
  have hch := ch_of_modify hc ht
  split at hch
  · next e => exact heq e.symm hch
  · next e => exact h.of_ch_eq hch hp (hne (Ne.symm e))

theorem channelInv_transferStep {s : State} {c d : Nat} (h : ChannelInv s c) (hc : c < s.numChannels)
    (hack : (s.ch d).enAck = true) (hn : (s.ch d).ndtr ≠ 0) : ChannelInv (transferStep d s) c := by
  obtain ⟨m, e, -, -⟩ := transferStep_state d s
  have hw : WaitKept c s (transferStep d s) := waitKept_of_eq (by rw [e])
  have hp : (transferStep d s).params = s.params := by rw [e]
  refine channelInv_of_modify h hc (congrArg State.chs e) hp (fun _ => hw) ?_
  rintro rfl hch
  exact h.advance hch hp hw hack hn

theorem channelInv_errStep {s : State} {c d : Nat} {k : ErrCls} (h : ChannelInv s c) (hc : c < s.numChannels)
    (hack : (s.ch d).enAck = true) : ChannelInv (errStep d k s) c := by
  refine channelInv_of_modify h hc rfl rfl (fun _ => waitKept_of_eq rfl) ?_
  rintro rfl hch
  exact h.fail hch rfl (waitKept_of_eq rfl) hack

/-- The class loop of a dispatch gives slots to the application and keeps the queue within its depth. -/
theorem Dispatched.channelInv {s t : State} {c d : Nat} (hd : Dispatched d s t) (h : ChannelInv s c) :
    ChannelInv t c := by
  have hp : t.params = s.params := by rw [hd.rest]
  by_cases hcd : c = d
  · subst hcd
    obtain ⟨o0, o1, q, e, h0, h1⟩ := hd.own
    have hq := hd.queue
    rw [e] at hq
    exact h.of_kept ⟨_, _, _, o0, o1, _, _, e, .inl rfl, .inl rfl, h0, h1, hq⟩ hp (waitKept_of_eq hd.hw_eq)
      (by rw [e]) (.inl (by rw [e]))
  · exact h.of_ch_eq (hd.other c hcd) hp (waitKept_of_eq hd.hw_eq)

theorem channelInv_clearFlags {s t : State} {c d : Nat} {m : Flags} (h : ChannelInv s c) (hc : c < s.numChannels)
    (ht : t.chs = s.chs.modify d fun ch => { ch with flags := ch.flags.clear m }) (hp : t.params = s.params)
    (hw : t.hw = s.hw) : ChannelInv t c := by
  refine channelInv_of_modify h hc ht hp (fun _ => waitKept_of_eq hw) fun _ hch => ?_
  exact h.of_bookkeeping hch le_rfl hp hw

theorem channelInv_dispatchStep {s : State} {c : Nat} (h : ChannelInv s c) (hc : c < s.numChannels) :
    ChannelInv (dispatchStep s) c := by
  unfold dispatchStep
  split
  · exact h
  · next d m _ =>
    exact (dispatchClasses_dispatched d m dispatchOrder _).channelInv (channelInv_clearFlags h hc rfl rfl rfl)

theorem channelInv_tickStep {s : State} {c : Nat} (h : ChannelInv s c) : ChannelInv (tickStep s) c := by
  have hch : (tickStep s).ch c = (s.ch c).age := List.getD_map s.chs Channel.reset Channel.age
  rw [Channel.age] at hch
  split at hch
  · exact h.of_bookkeeping hch le_rfl rfl rfl
  · exact h.of_ch_eq hch rfl (waitKept_of_eq rfl)

/-- Each rule of the machine keeps the invariant of each channel. -/
theorem Effect.channelInv {s t : State} {m : Move} {c : Nat} (he : Effect s m t) (hg : s.guard m = true)
    (hc : c < s.numChannels) (h : ChannelInv s c) : ChannelInv t c := by
  cases he
  case illegal | malformed | answer | hostFault | store | snapshot => exact h.of_ch_eq rfl rfl (waitKept_of_eq rfl)
  case dly hw _ | startDone hw _ | dlyDone hw =>
    exact h.of_ch_eq rfl rfl (waitKept_of_spares (by simp [hw]) (by simp))
  case swaitReported d _ _ hw _ _ _ =>
    refine h.of_ch_eq rfl rfl ⟨?_, ?_, ?_⟩ <;> simp [hw, Wait.stopping, Wait.inStopWait, Wait.inSwait]
  case swait hw _ _ sc st => exact h.beginSwait rfl rfl hw rfl (by rintro rfl; exact ⟨sc, st⟩)
  case cfg d a par m0ar m1ar ndt hw _ _ _ st ok =>
    refine channelInv_of_modify h hc rfl rfl (fun _ => waitKept_of_eq rfl) ?_
    rintro rfl hch
    exact h.configure hch rfl hw st ok
  case start d hw _ _ st =>
    refine channelInv_of_modify h hc rfl rfl (fun _ => waitKept_of_spares (by simp [hw]) (by simp)) ?_
    rintro rfl hch
    exact h.arm hch rfl rfl st
  case stop d hw _ _ =>
    refine channelInv_of_modify h hc rfl rfl (fun ne => waitKept_of_spares (by simp [hw]) (by simpa using ne)) ?_
    rintro rfl hch
    exact h.requestDisable hch rfl (by simp [Wait.stopping]) (by simp [Wait.inStopWait]) (by simp [Wait.inSwait])
  case swaitTimeout d t0 n hw st st' =>
    refine channelInv_of_modify h hc rfl rfl
      (fun ne => waitKept_of_spares (by simpa [hw] using ne) (by simpa using ne)) ?_
    rintro rfl hch
    have hsw : s.hw.inSwait d = true := by simp [hw, Wait.inSwait]
    have hrun : (s.ch d).cstate = .running := by simpa [st, st'] using (h.swait hsw).2
    exact h.requestDisable hch rfl (by simp [Wait.stopping]) (by simp [hrun]) fun _ => hsw
  case clrf => exact channelInv_clearFlags h hc rfl rfl rfl
  case sevt d e q hw _ _ ev =>
    refine channelInv_of_modify h hc rfl rfl (fun _ => waitKept_of_eq rfl) ?_
    rintro rfl hch
    exact h.of_bookkeeping hch (by simp [ev]) rfl rfl
  case sack d hw _ _ st ak r v =>
    refine channelInv_of_modify h hc rfl rfl (fun _ => waitKept_of_eq rfl) ?_
    rintro rfl hch
    exact h.release hch rfl hw (h.enReq_of_ended st) ak
  case startLate d t0 hw st =>
    refine channelInv_of_modify h hc rfl rfl (fun _ => waitKept_of_spares (by simp [hw]) (by simp)) ?_
    rintro rfl hch
    exact h.error hch (by simp) le_rfl rfl (by simp [Wait.inSwait])
  case stopDone d t0 hw ak | swaitStopped d t0 hw ak =>
    refine channelInv_of_modify h hc rfl rfl (fun ne => waitKept_of_spares (by simpa [hw] using ne) (by simp)) ?_
    rintro rfl hch
    exact h.release hch rfl rfl (h.stopReq (by simp [hw, Wait.stopping])) ak
  case stopLate d t0 hw ak | swaitLate d t0 hw ak =>
    refine channelInv_of_modify h hc rfl rfl (fun ne => waitKept_of_spares (by simpa [hw] using ne) (by simp)) ?_
    rintro rfl hch
    exact h.ackTimedOut hch rfl rfl (h.stopReq (by simp [hw, Wait.stopping]))
  case swaitTaken d t0 n hw st r =>
    refine channelInv_of_modify h hc rfl rfl (fun ne => waitKept_of_spares (by simpa [hw] using ne) (by simp)) ?_
    rintro rfl hch
    exact h.release hch rfl rfl (h.enReq_of_ended (st.imp_right And.left)) (h.enAck_of_consumed st)
  case ackOn d =>
    refine channelInv_of_modify h hc rfl rfl (fun _ => waitKept_of_eq rfl) ?_
    rintro rfl hch
    obtain ⟨hreq, hst⟩ := guard_ackOn hg
    exact h.ackOn hch rfl (waitKept_of_eq rfl) hreq hst
  case ackOff d =>
    refine channelInv_of_modify h hc rfl rfl (fun _ => waitKept_of_eq rfl) ?_
    rintro rfl hch
    exact h.ackOff hch rfl (waitKept_of_eq rfl) (guard_ackOff hg)
  case transfer d _ =>
    obtain ⟨hack, hn⟩ := guard_xfer hg
    exact channelInv_transferStep h hc hack hn
  case busError d _ => exact channelInv_errStep h hc (guard_xfer hg).1
  case error d k => exact channelInv_errStep h hc (guard_err hg)
  case dispatch => exact channelInv_dispatchStep h hc
  case tick => exact channelInv_tickStep h

theorem dispatchStep_hw (s : State) : (dispatchStep s).hw = s.hw := by
  unfold dispatchStep
  split
  · rfl
  · exact (dispatchClasses_dispatched ..).hw_eq

theorem dispatchStep_ntf (s : State) : (dispatchStep s).ntf = s.ntf ∨ (dispatchStep s).ntf = .idle := by
  unfold dispatchStep
  split
  · exact .inl rfl
  · exact (dispatchClasses_dispatched ..).phase

/-- Each rule of the machine keeps the wait's channel: a wait is opened on a channel whose number was checked, goes on
or ends (R31, R57). -/
theorem Effect.waitInv {s t : State} {m : Move} (he : Effect s m t) (h : WaitInv s) : WaitInv t := by
  have hn := he.extends.numChannels
  have keep (hw : t.hw = s.hw) : WaitInv t := by
    unfold WaitInv
    rwa [hw, hn]
  cases he
  case start hc _ | stop hc | swait hc _ _ => exact hc.trans_eq hn.symm
  case swaitTimeout d _ _ hw _ _ =>
    have hd : d < s.numChannels := by simpa only [WaitInv, hw] using h
    exact hd.trans_eq hn.symm
  case dly | startDone | startLate | stopDone | stopLate | swaitTaken | swaitReported | swaitStopped | swaitLate |
      dlyDone => exact trivial
  case transfer c _ =>
    obtain ⟨m, e, -, -⟩ := transferStep_state c s
    exact keep (by rw [e])
  case dispatch => exact keep (dispatchStep_hw s)
  all_goals exact keep rfl

/-- Each rule of the machine keeps the phase's channel (R30). -/
theorem Effect.notifierInv {s t : State} {m : Move} (he : Effect s m t) (hg : s.guard m = true)
    (h : NotifierInv s) : NotifierInv t := by
  have hn := he.extends.numChannels
  have keep (hntf : t.ntf = s.ntf) : NotifierInv t := by
    unfold NotifierInv
    rwa [hntf, hn]
  cases he
  case snapshot c => exact (guard_snap hg).trans_eq hn.symm
  case transfer c _ =>
    obtain ⟨m, e, -, -⟩ := transferStep_state c s
    exact keep (by rw [e])
  case dispatch =>
    obtain hntf | hntf := dispatchStep_ntf s
    · exact keep hntf
    · simp only [NotifierInv, hntf]
  all_goals exact keep rfl

/-- An enabled step's guard holds also where the choice or a draw is used up. -/
theorem Rescheduled.guard {s u : State} {m : Move} (hu : Rescheduled s u) (he : s.enabled m = true) :
    u.guard m = true := by
  rw [hu, guard_rescheduled]
  exact (Bool.and_eq_true_iff.1 he).2

/-- Settles O55: a step is a rule of the machine, and each rule keeps the invariant of each channel and the channels
that the wait and the notifier name. -/
theorem stepKeepsTheLifecycle : Obligations.StepKeepsTheLifecycle := by
  intro s t hinv hwait hntf h
  obtain ⟨-, m, u, hen, hu, hp⟩ := step_next h
  have he := perform_effect hp
  have hg := hu.guard hen
  have hlife : LifecycleInv u := by
    rw [hu]
    exact fun c hc => (hinv c hc).of_ch_eq rfl rfl (waitKept_of_eq rfl)
  refine ⟨fun c hc => ?_, he.waitInv (hu ▸ hwait), he.notifierInv hg (hu ▸ hntf)⟩
  rw [he.extends.numChannels] at hc
  exact he.channelInv hg hc (hlife c hc)

/-! ## The transitions of the lifecycle state (R109) -/

/-- The transitions of channel `c` from `ch` to `d` under the host's wait `w`, by R109's table and R104, each with the
step that makes it. -/
inductive Transition (c : Nat) (w : Wait) (ch d : Channel) : Move → Prop
  | configured (hto : d.cstate = .configured) (hw : w = .none) (st : ch.cstate = .idle) : Transition c w ch d .host
  | armed (hto : d.cstate = .armed) (hw : w = .none) (st : ch.cstate = .configured) : Transition c w ch d .host
  | running (hto : d.cstate = .running) (st : ch.cstate = .armed) : Transition c w ch d (.ackOn c)
  | completed (hto : d.cstate = .completed) (st : ch.cstate = .running) (sc : ch.scheme = .oneshot) :
      Transition c w ch d (.xfer c)
  | failed {m : Move} (hto : d.cstate = .error) (hm : m = .xfer c ∨ ∃ k, m = .err c k) (st : ch.cstate = .running) :
      Transition c w ch d m
  | startLate (hto : d.cstate = .error) (pe : d.perr = .ackto) (hw : ∃ t0, w = .startWait c t0)
      (st : ch.cstate = .armed) : Transition c w ch d .host
  | stopLate (hto : d.cstate = .error) (pe : d.perr = .ackto) (hw : w.stopping c = true) (ak : ch.enAck = true)
      (st : ch.cstate ≠ .idle) : Transition c w ch d .host
  | stopped (hto : d.cstate = .idle) (ak : ch.enAck = false) (hw : w.stopping c = true) : Transition c w ch d .host
  | consumed (hto : d.cstate = .idle) (ak : ch.enAck = false) (st : ch.cstate = .completed ∨ ch.cstate = .error)
      (hw : w = .none ∨ ∃ t0 n, w = .swaitPoll c t0 n) : Transition c w ch d .host

section changed

variable {s t : State} {c d : Nat} {f : Channel → Channel}

/-- A rule that updates channel `d` changes the lifecycle state of no other. -/
theorem eq_of_cstate_ne (hc : c < s.numChannels) (ht : t.chs = s.chs.modify d f)
    (hne : (t.ch c).cstate ≠ (s.ch c).cstate) : d = c ∧ t.ch c = f (s.ch c) := by
  have hch := ch_of_modify hc ht
  split at hch
  · next e => exact ⟨e.symm, hch⟩
  · exact absurd (congrArg Channel.cstate hch) hne

/-- Nor does one whose update keeps the lifecycle state. -/
theorem cstate_of_modify (hc : c < s.numChannels) (ht : t.chs = s.chs.modify d f)
    (hf : (f (s.ch c)).cstate = (s.ch c).cstate) : (t.ch c).cstate = (s.ch c).cstate := by
  by_contra hne
  exact hne ((congrArg Channel.cstate (eq_of_cstate_ne hc ht hne).2).trans hf)

theorem Dispatched.cstate_eq (h : Dispatched d s t) (c : Nat) : (t.ch c).cstate = (s.ch c).cstate := by
  by_cases hc : c = d
  · obtain ⟨o0, o1, q, e, -, -⟩ := h.own
    rw [hc, e]
  · rw [h.other c hc]

theorem cstate_dispatchStep (hc : c < s.numChannels) : ((dispatchStep s).ch c).cstate = (s.ch c).cstate := by
  unfold dispatchStep
  split
  · rfl
  · exact ((dispatchClasses_dispatched ..).cstate_eq c).trans (cstate_of_modify hc rfl rfl)

theorem cstate_tickStep (s : State) (c : Nat) : ((tickStep s).ch c).cstate = (s.ch c).cstate := by
  have hch : (tickStep s).ch c = (s.ch c).age := List.getD_map s.chs Channel.reset Channel.age
  rw [hch, Channel.age]
  split <;> rfl

end changed

section engine

variable {ch d : Channel} {c : Nat} (w : Wait)

/-- An error of the engine changes the lifecycle state of a RUNNING channel alone (R83, R84). -/
theorem transition_of_fail {m : Move} {k : ErrCls} (hm : m = .xfer c ∨ ∃ k, m = .err c k) (hd : d = ch.fail k)
    (hne : d.cstate ≠ ch.cstate) : Transition c w ch d m := by
  subst hd
  have hrun : ch.cstate = .running := by
    by_contra e
    exact hne (if_neg e)
  exact .failed (by rw [Channel.fail_of_running hrun]) hm hrun

/-- An element transfer changes the lifecycle state where it completes a RUNNING one-shot transfer (R80). -/
theorem transition_of_advance (hd : d = ch.advance) (hne : d.cstate ≠ ch.cstate) :
    Transition c w ch d (.xfer c) := by
  subst hd
  by_cases hlast : ch.ndtr = 1 ∧ ch.scheme = .oneshot
  · have hend := congrArg Channel.cstate (Channel.advance_of_ends hlast)
    split at hend
    · next hrun => exact .completed hend hrun hlast.2
    · exact absurd hend hne
  · exact absurd (congrArg Channel.cstate (Channel.advance_of_goesOn hlast)) hne

end engine

/-- Each rule of the machine that changes a lifecycle state makes one of the transitions. -/
theorem Effect.transition {s t : State} {m : Move} {c : Nat} (he : Effect s m t) (hg : s.guard m = true)
    (hc : c < s.numChannels) (h : ChannelInv s c) (hne : (t.ch c).cstate ≠ (s.ch c).cstate) :
    Transition c s.hw (s.ch c) (t.ch c) m := by
  cases he
  case cfg d a par m0ar m1ar ndt hw _ _ _ st _ =>
    obtain ⟨rfl, hch⟩ := eq_of_cstate_ne hc rfl hne
    have hto := congrArg Channel.cstate hch
    exact .configured hto hw (st.resolve_right fun e => hne (hto.trans e.symm))
  case start d hw _ _ st =>
    obtain ⟨rfl, hch⟩ := eq_of_cstate_ne hc rfl hne
    exact .armed (congrArg Channel.cstate hch) hw st
  case ackOn d =>
    obtain ⟨rfl, hch⟩ := eq_of_cstate_ne hc rfl hne
    exact .running (congrArg Channel.cstate hch) (guard_ackOn hg).2
  case transfer d _ =>
    obtain ⟨m, e, -, -⟩ := transferStep_state d s
    obtain ⟨rfl, hch⟩ := eq_of_cstate_ne hc (congrArg State.chs e) hne
    exact transition_of_advance s.hw hch hne
  case busError d _ =>
    obtain ⟨rfl, hch⟩ := eq_of_cstate_ne hc rfl hne
    exact transition_of_fail s.hw (.inl rfl) hch hne
  case error d k =>
    obtain ⟨rfl, hch⟩ := eq_of_cstate_ne hc rfl hne
    exact transition_of_fail s.hw (.inr ⟨k, rfl⟩) hch hne
  case startLate d t0 hw st =>
    obtain ⟨rfl, hch⟩ := eq_of_cstate_ne hc rfl hne
    exact .startLate (congrArg Channel.cstate hch) (congrArg Channel.perr hch) ⟨t0, hw⟩ st
  case stopLate d t0 hw ak | swaitLate d t0 hw ak =>
    obtain ⟨rfl, hch⟩ := eq_of_cstate_ne hc rfl hne
    have hidle : (s.ch d).cstate ≠ .idle := by
      obtain e | e := h.cstate_of_enAck ak <;> simp [e]
    exact .stopLate (congrArg Channel.cstate hch) (congrArg Channel.perr hch) (by simp [hw, Wait.stopping]) ak hidle
  case stopDone d t0 hw ak | swaitStopped d t0 hw ak =>
    obtain ⟨rfl, hch⟩ := eq_of_cstate_ne hc rfl hne
    exact .stopped (congrArg Channel.cstate hch) ak (by simp [hw, Wait.stopping])
  case sack d hw _ _ st ak r v =>
    obtain ⟨rfl, hch⟩ := eq_of_cstate_ne hc rfl hne
    exact .consumed (congrArg Channel.cstate hch) ak st (.inl hw)
  case swaitTaken d t0 n hw st r =>
    obtain ⟨rfl, hch⟩ := eq_of_cstate_ne hc rfl hne
    exact .consumed (congrArg Channel.cstate hch) (h.enAck_of_consumed st) (st.imp_right And.left) (.inr ⟨t0, n, hw⟩)
  case stop | clrf | sevt | swaitTimeout | ackOff => exact absurd (cstate_of_modify hc rfl rfl) hne
  case dispatch => exact absurd (cstate_dispatchStep hc) hne
  case tick => exact absurd (cstate_tickStep s c) hne
  all_goals exact absurd rfl hne

/-- Settles O59: an enabled step is a rule of the machine, which makes one of the transitions. -/
theorem lifecycleTransitions : Obligations.LifecycleTransitions := by
  intro s u t m c hinv _ hc hen hu hp hne
  have hg : u.guard m = true := Rescheduled.guard hu hen
  have htr : Transition c s.hw (s.ch c) (t.ch c) m := by
    obtain ⟨l, n, rfl⟩ : ∃ l n, u = { s with sched := l, draws := n } := ⟨_, _, hu⟩
    exact (perform_effect hp).transition hg hc ((hinv c hc).of_ch_eq rfl rfl (waitKept_of_eq rfl)) hne
  cases htr with
  | configured hto hw st => simp [hto, hw, st]
  | armed hto hw st => simp [hto, hw, st]
  | running hto st => simp [hto, st]
  | completed hto st sc => simp [hto, st, sc]
  | failed hto hm st => simp [hto, hm, st]
  | startLate hto pe hw st => simp [hto, pe, hw, st]
  | stopLate hto pe hw ak st => simp [hto, pe, hw, ak, st]
  | stopped hto ak hw => simp [hto, ak, hw]
  | consumed hto ak st hw => simp [hto, ak, st, hw]

end Sys2Proof.Machine
end

section
/-! SUPPORT. The session commands (R101 to R106, R108): the answer of each, the polls of SWAIT, and what a timed-out
SWAIT reports. -/

namespace Sys2Proof.Machine

open Safety

/-- The status of a consumed ERROR, by its pending error (R101). -/
theorem outcomeMap_spec (p : PErr) :
    (p = .te → outcomeMap p = .transferError) ∧ (p = .fe ∨ p = .dme → outcomeMap p = .fifoError) ∧
      (p = .ackto → outcomeMap p = .hardwareAcknowledgeTimeout) := by
  cases p <;> simp [outcomeMap]

/-- No ERROR is reported as a timeout of SWAIT. -/
theorem outcomeMap_ne_timeoutError (p : PErr) : outcomeMap p ≠ .timeoutError := by
  cases p <;> simp [outcomeMap]

theorem stoppedStatus_of_error {ch : Channel} (h : ch.cstate = .error) : stoppedStatus ch = outcomeMap ch.perr := by
  simp only [stoppedStatus, h]

/-- The status of a stopped channel, by its lifecycle state (R101, R104, R106). -/
theorem stoppedStatus_spec (ch : Channel) :
    (ch.cstate = .completed → stoppedStatus ch = .ok) ∧
      (ch.cstate = .error → (ch.perr = .te → stoppedStatus ch = .transferError) ∧
        (ch.perr = .fe ∨ ch.perr = .dme → stoppedStatus ch = .fifoError) ∧
        (ch.perr = .ackto → stoppedStatus ch = .hardwareAcknowledgeTimeout)) ∧
      (ch.cstate ≠ .completed → ch.cstate ≠ .error → stoppedStatus ch = .timeoutError) := by
  refine ⟨fun h => by simp only [stoppedStatus, h], fun h => ?_, fun hc he => ?_⟩
  · rw [stoppedStatus_of_error h]
    exact outcomeMap_spec ch.perr
  · cases h : ch.cstate <;> simp_all [stoppedStatus]

/-! ## The answers of SWAIT and SACK -/

section answers

variable {s : State} {c : BitVec 4} (hc : c.toNat < s.numChannels)
include hc

/-- SWAIT opens its poll (R102). -/
theorem exec_swait_of_polls (n : Word) (hs : (s.ch c.toNat).scheme = .oneshot)
    (hst : (s.ch c.toNat).cstate = .running ∨ (s.ch c.toNat).cstate = .completed ∨ (s.ch c.toNat).cstate = .error) :
    exec (.swait c n) s = .next { s with hw := .swaitPoll c.toNat s.tick n } := by
  simp only [exec, execSwait, onChannel_of_lt hc]
  rw [if_neg (by tauto)]

/-- SWAIT is refused (R102). -/
theorem exec_swait_of_not (n : Word)
    (h : ¬ ((s.ch c.toNat).scheme = .oneshot ∧ ((s.ch c.toNat).cstate = .running ∨
      (s.ch c.toNat).cstate = .completed ∨ (s.ch c.toNat).cstate = .error))) :
    exec (.swait c n) s = .next (s.result 2 .invalidStateError 0) := by
  simp only [exec, execSwait, onChannel_of_lt hc]
  rw [if_pos (by tauto)]

/-- SACK consumes a terminal state of a stopped engine (R106). -/
theorem exec_sack_of_terminal (hst : (s.ch c.toNat).cstate = .completed ∨ (s.ch c.toNat).cstate = .error)
    (hack : (s.ch c.toNat).enAck = false) :
    exec (.sack c) s = .next ((s.modCh c.toNat Channel.release).result 1 (stoppedStatus (s.ch c.toNat))
      (s.ch c.toNat).remaining) := by
  obtain e | e := hst <;> simp [exec, execSack, onChannel_of_lt hc, stoppedStatus, e, hack]

/-- SACK is refused (R106). -/
theorem exec_sack_of_not (h : ¬ (((s.ch c.toNat).cstate = .completed ∨ (s.ch c.toNat).cstate = .error) ∧
      (s.ch c.toNat).enAck = false)) : exec (.sack c) s = .next (s.result 1 .invalidStateError 0) := by
  simp only [exec, execSack, onChannel_of_lt hc]
  rw [if_neg (by tauto), if_neg (by tauto)]

end answers

/-- Settles O22: the one-shot scheme is `circ = 0`, and SWAIT's check has the two branches. -/
theorem swaitOpensThePoll : Obligations.SwaitOpensThePoll := by
  intro s c n hc ch polls
  have hiff : polls ↔
      ch.scheme = .oneshot ∧ (ch.cstate = .running ∨ ch.cstate = .completed ∨ ch.cstate = .error) := by
    rw [Channel.scheme_oneshot]
  exact ⟨fun h => exec_swait_of_not hc n (mt hiff.2 h), fun h => exec_swait_of_polls hc n (hiff.1 h).1 h.2⟩

/-- Settles O25: a terminal state is released with the status of a stopped channel, and any other is refused. -/
theorem sackConsumesATerminalState : Obligations.SackConsumesATerminalState := by
  intro s c hc ch terminal
  refine ⟨fun ⟨hst, hack⟩ _ => ?_, exec_sack_of_not hc⟩
  obtain ⟨hok, herr, -⟩ := stoppedStatus_spec ch
  exact ⟨_, _, _, exec_sack_of_terminal hc hst hack, ch.toNat_remaining, hok, herr,
    onlyChannel_of_modify (f := Channel.release) hc rfl, rfl⟩

/-! ## The polls -/

section polls

variable {s : State} {c : Nat} {t0 n : Word}

/-- The poll condition of SWAIT_POLL (R103). -/
theorem pollReady_swaitPoll (hw : s.hw = .swaitPoll c t0 n) :
    s.pollReady = true ↔
      (s.ch c).cstate = .completed ∨ (s.ch c).cstate = .error ∨ n.toNat ≤ (s.tick - t0).toNat := by
  simp only [State.pollReady, hw, Bool.or_eq_true, beq_iff_eq, decide_eq_true_eq, or_assoc]
  rfl

/-- The poll condition of SWAIT_STOP (R104). -/
theorem pollReady_swaitStop (hw : s.hw = .swaitStop c t0) :
    s.pollReady = true ↔ (s.ch c).enAck = false ∨ s.params.ackTimeout ≤ (s.tick - t0).toNat := by
  simp only [State.pollReady, hw, Bool.or_eq_true, Bool.not_eq_true', decide_eq_true_eq]
  rfl

/-- The poll condition of DLY_WAIT (R108). -/
theorem pollReady_dlyWait (hw : s.hw = .dlyWait t0 n) : s.pollReady = true ↔ n.toNat ≤ (s.tick - t0).toNat := by
  simp only [State.pollReady, hw, decide_eq_true_eq]
  rfl

theorem perform_swaitPoll (hw : s.hw = .swaitPoll c t0 n) : perform .host s = .next (swaitPollStep c s) := by
  rw [perform_host_of_wait (by simp [hw])]
  simp only [pollStep, hw]

theorem perform_swaitStop (hw : s.hw = .swaitStop c t0) : perform .host s = .next (swaitStopStep c s) := by
  rw [perform_host_of_wait (by simp [hw])]
  simp only [pollStep, hw]

theorem perform_dlyWait (hw : s.hw = .dlyWait t0 n) : perform .host s = .next (dlyPoll s) := by
  rw [perform_host_of_wait (by simp [hw])]
  simp only [pollStep, hw]

/-- COMPLETED is consumed (R103). -/
theorem swaitPollStep_of_completed (h : (s.ch c).cstate = .completed) :
    swaitPollStep c s = (s.modCh c Channel.release).finish 2 .ok (s.ch c).remaining := by
  simp only [swaitPollStep, h]

/-- ERROR is reported, and consumed where the engine is stopped (R103). -/
theorem swaitPollStep_of_error (h : (s.ch c).cstate = .error) :
    swaitPollStep c s =
      (s.modCh c fun ch => if ch.enAck = false then ch.release else ch).finish 2 (outcomeMap (s.ch c).perr)
        (s.ch c).remaining := by
  cases hack : (s.ch c).enAck with
  | false =>
    rw [State.modCh_congr (g := Channel.release) (by simp [hack])]
    simp only [swaitPollStep, h, hack, if_true]
  | true =>
    rw [State.modCh_congr (g := id) (by simp [hack]), show s.modCh c id = s by simp [State.modCh]]
    simp only [swaitPollStep, h, hack, Bool.true_eq_false, if_false]

/-- The timeout of a RUNNING channel requests its disable (R103). -/
theorem swaitPollStep_of_running (h : (s.ch c).cstate = .running) :
    swaitPollStep c s = { s.modCh c Channel.requestDisable with hw := .swaitStop c s.tick } := by
  simp only [swaitPollStep, h, swaitPollStep.timedOut]

/-- An acknowledged disable ends the SWAIT (R104). -/
theorem swaitStopStep_of_off (h : (s.ch c).enAck = false) :
    swaitStopStep c s = (s.modCh c Channel.release).finish 2 (stoppedStatus (s.ch c)) (s.ch c).remaining :=
  if_pos h

/-- A disable that was not acknowledged in time ends it in ERROR (R104). -/
theorem swaitStopStep_of_on (h : (s.ch c).enAck = true) :
    swaitStopStep c s =
      (s.modCh c Channel.ackTimedOut).finish 2 .hardwareAcknowledgeTimeout (s.ch c).remaining :=
  if_neg (by simp [h])

end polls

/-- Settles O23: the poll condition is R103's, and the lifecycle state chooses the branch before the ticks are read. -/
theorem swaitPollReportsTheOutcome : Obligations.SwaitPollReportsTheOutcome := by
  intro s c t0 n hf hn hw hc ch released
  rw [enabled_host_of_wait hf hn (by simp [hw]), perform_swaitPoll hw]
  refine ⟨pollReady_swaitPoll hw, fun hst => ?_, fun hst _ => ?_, fun hst => ?_⟩
  · rw [swaitPollStep_of_completed hst]
    exact ⟨_, _, rfl, ch.toNat_remaining, onlyChannel_of_modify (f := Channel.release) hc rfl, rfl⟩
  · rw [swaitPollStep_of_error hst]
    obtain ⟨hte, hfifo, hackto⟩ := outcomeMap_spec ch.perr
    exact ⟨_, _, _, rfl, ch.toNat_remaining, hte, hfifo, hackto,
      onlyChannel_of_modify (f := fun ch => if ch.enAck = false then ch.release else ch) hc rfl, rfl⟩
  · rw [swaitPollStep_of_running hst]
    exact ⟨_, rfl, onlyChannel_of_modify (f := Channel.requestDisable) hc rfl, rfl⟩

/-- Settles O24: the poll condition is R104's; an acknowledged disable is answered first, whatever the ticks. -/
theorem swaitStopReportsTheFinalCount : Obligations.SwaitStopReportsTheFinalCount := by
  intro s c t0 hf hn hw hc ch
  rw [enabled_host_of_wait hf hn (by simp [hw]), perform_swaitStop hw]
  refine ⟨pollReady_swaitStop hw, fun hack _ => ?_, fun hack => ?_⟩
  · rw [swaitStopStep_of_off hack]
    obtain ⟨hok, herr, hlate⟩ := stoppedStatus_spec ch
    exact ⟨_, _, _, rfl, ch.toNat_remaining, hok, herr, hlate,
      onlyChannel_of_modify (f := Channel.release) hc rfl, rfl⟩
  · rw [swaitStopStep_of_on hack]
    exact ⟨_, _, rfl, ch.toNat_remaining, onlyChannel_of_modify (f := Channel.ackTimedOut) hc rfl, rfl⟩

/-- Settles O27: the issue step opens the wait, whose poll condition is R108's. -/
theorem dlyWaitsForTheTicks : Obligations.DlyWaitsForTheTicks := by
  refine fun s n t0 => ⟨rfl, fun hf hn hw => ?_⟩
  rw [enabled_host_of_wait hf hn (by simp [hw]), perform_dlyWait hw]
  exact ⟨pollReady_dlyWait hw, rfl⟩

/-- SWAIT's stop step answers `TimeoutError` only where the disable was acknowledged in neither COMPLETED nor ERROR. -/
theorem of_swaitStopStep_timeoutError {s : State} {c : Nat} {v : Word}
    (h : (swaitStopStep c s).hist = s.hist ++ [resultOf s .timeoutError v]) :
    stoppedStatus (s.ch c) = .timeoutError ∧ v = (s.ch c).remaining := by
  cases hack : (s.ch c).enAck with
  | true =>
    rw [swaitStopStep_of_on hack] at h
    simp [resultOf] at h
  | false =>
    rw [swaitStopStep_of_off hack] at h
    obtain ⟨-, hst, hv⟩ : _ ∧ stoppedStatus (s.ch c) = .timeoutError ∧ (s.ch c).remaining = v := by
      simpa [resultOf] using h
    exact ⟨hst, hv.symm⟩

/-- Settles O28: the channel of a SWAIT has run or ended, and only a RUNNING one, with elements left, reports so. -/
theorem timeoutErrorReportsWhatIsLeft : Obligations.TimeoutErrorReportsWhatIsLeft := by
  intro s t c t0 v hinv hc hw hp hhist
  rw [perform_swaitStop hw] at hp
  obtain rfl := Host.Outcome.next.inj hp
  obtain ⟨hst, rfl⟩ := of_swaitStopStep_timeoutError hhist
  rw [(s.ch c).toNat_remaining]
  obtain ⟨-, hrun | hdone | herr⟩ := (hinv c hc).swait (by simp [hw, Wait.inSwait])
  · exact ⟨(hinv c hc).live (.inr (.inr hrun)), rfl⟩
  · simp [stoppedStatus, hdone] at hst
  · exact absurd (stoppedStatus_of_error herr ▸ hst) (outcomeMap_ne_timeoutError _)

end Sys2Proof.Machine
end

section
/-! SUPPORT. The faults of a host access (R113, R114): HRD and HWR raise the fault their check answers. -/

namespace Sys2Proof.Machine

open Safety

theorem exec_hrd_of_fault {s : State} {sz : BitVec 2} {a : Word} {f : Fault}
    (h : s.haccCheck a.toNat (accessBytes sz) = some f) : exec (.hrd sz a) s = .next (s.raise f) := by
  simp only [exec, execHrd, h]

theorem exec_hwr_of_fault {s : State} {sz : BitVec 2} {a : Word} {f : Fault}
    (h : s.haccCheck a.toNat (accessBytes sz) = some f) (v : Word) : exec (.hwr sz a v) s = .next (s.raise f) := by
  simp only [exec, execHwr, h]

/-- Settles O29: the first failing check gives the fault, and both commands raise it. -/
theorem hostAccessFaults : Obligations.HostAccessFaults := by
  intro s sz a v _ n faulted both inRam
  have hboth {f : Fault} (h : s.haccCheck a.toNat n = some f) : both f :=
    ⟨exec_hrd_of_fault h, exec_hwr_of_fault h v⟩
  obtain ⟨hmisaligned, hnotRam, howned⟩ := haccCheck_some (s := s) (a := a.toNat) (n := n)
  refine ⟨fun hal => hboth (hmisaligned hal), fun hal hram => hboth (hnotRam hal hram), fun hal hram htouch => ?_⟩
  obtain ⟨c, sl, hslot, hcheck⟩ := howned hal hram htouch
  exact ⟨c, sl, hslot, hboth hcheck⟩

end Sys2Proof.Machine
end

section
/-! SUPPORT. The exceptions and bounds of the machine: a recorded fault (R121), the tick and when it may advance (R128,
R129), and the acknowledgement bounds over a step (R129). -/

namespace Sys2Proof.Machine

/-! ## A recorded fault (R121) -/

/-- Settles O8: a step asks for no recorded fault before its own guard, and the machine answers the first. -/
theorem recordedFaultStopsEveryAgent : Obligations.RecordedFaultStopsEveryAgent := by
  intro s f l hf
  refine ⟨?_, fun m => ?_⟩
  · simp only [step, hf]
  · simp [State.enabled, hf]

/-! ## The pending acknowledgements (R15, R128) -/

namespace Channel

variable {ch : Channel}

theorem enPending_iff : ch.enPending = true ↔ ch.enReq = true ∧ ch.enAck = false ∧ ch.cstate = .armed := by
  simp [enPending, and_assoc]

theorem disPending_iff : ch.disPending = true ↔ ch.enReq = false ∧ ch.enAck = true := by
  simp [disPending]

theorem ackPending_iff : ch.ackPending = true ↔ ch.enPending = true ∨ ch.disPending = true := by
  rw [ackPending, Bool.or_eq_true]

/-- The acknowledgement age alone changes over a tick (R128). -/
theorem age_eq (ch : Channel) :
    ch.age = { ch with ackAge := if ch.ackPending = true then ch.ackAge + 1 else ch.ackAge } := by
  rw [age]
  split <;> rfl

end Channel

/-! ## The tick (R128) -/

theorem tickStep_ch (s : State) (c : Nat) : (tickStep s).ch c = (s.ch c).age :=
  List.getD_map s.chs Channel.reset Channel.age

/-- Settles O50: the tick ages every channel, which counts where an enable or a disable is pending. -/
theorem tickAgesPendingAcknowledgements : Obligations.TickAgesPendingAcknowledgements := by
  intro s
  have htick : (tickStep s).tick.toNat = (s.tick.toNat + 1) % 4294967296 := BitVec.toNat_add s.tick 1
  refine ⟨tickStep s, rfl, htick, (Effect.tick (s := s)).extends.numChannels, fun c _ => ?_, rfl⟩
  rw [tickStep_ch, Channel.age_eq]
  simp only [Channel.ackPending_iff, Channel.enPending_iff, Channel.disPending_iff]

/-! ## When the tick may advance (R129) -/

/-- A pending acknowledgement has reached its bound (R129, condition 3). -/
theorem ackBoundReached_iff {p : Config} {ch : Channel} :
    ackBoundReached p ch = true ↔
      (ch.disPending = true ∧ Config.disAckBound ≤ ch.ackAge) ∨
        (ch.enPending = true ∧ ∃ b, p.enAckBound = some b ∧ b ≤ ch.ackAge) := by
  cases h : p.enAckBound <;> simp [ackBoundReached, h]

/-- A test holds of some channel of the list where it holds of some channel number. -/
theorem any_chs_iff {s : State} {f : Channel → Bool} :
    s.chs.any f = true ↔ ∃ c, c < s.numChannels ∧ f (s.ch c) = true := by
  rw [List.any_eq_true]
  constructor
  · rintro ⟨ch, hmem, hf⟩
    obtain ⟨c, hc, rfl⟩ := exists_ch_of_mem hmem
    exact ⟨c, hc, hf⟩
  · rintro ⟨c, hc, hf⟩
    have hget : s.ch c = s.chs[c] := List.getD_eq_getElem s.chs Channel.reset hc
    exact ⟨s.ch c, hget ▸ List.getElem_mem hc, hf⟩

/-- The three conditions of `tick_allowed()` (R129). -/
theorem enabled_tick_iff {s : State} :
    s.enabled .tick = true ↔
      s.faults = [] ∧ ¬ s.pollReady = true ∧
        ¬ (s.params.hangAdmitted = false ∧ ∃ c, c < s.numChannels ∧ ackBoundReached s.params (s.ch c) = true) := by
  rw [← any_chs_iff]
  simp [State.enabled, State.guard, State.tickAllowed, or_iff_not_imp_left, and_assoc]

/-- Settles O51: the conditions of R129, with each wait's poll condition and the bounds written out. -/
theorem tickIsHeldByPollsAndBounds : Obligations.TickIsHeldByPollsAndBounds := by
  intro s waited polls due
  have hpolls : s.pollReady = true ↔ polls := by
    simp only [polls]
    split
    · next hw => simp [State.pollReady, hw]
    · next hw => exact pollReady_startWait hw
    · next hw => exact pollReady_stopWait hw
    · next hw => exact pollReady_swaitPoll hw
    · next hw => exact pollReady_swaitStop hw
    · next hw => exact pollReady_dlyWait hw
  have hdue (ch : Channel) : ackBoundReached s.params ch = true ↔ due ch := by
    simp only [ackBoundReached_iff, Channel.enPending_iff, Channel.disPending_iff, and_assoc]
    rfl
  rw [enabled_tick_iff, hpolls]
  simp only [hdue]

/-! ## The awaited acknowledgement (R129) -/

/-- The channel whose acknowledgement the host waits for, and the tick since when (R31). -/
def Wait.awaited : Wait → Option (Nat × Word)
  | .none => Option.none
  | .startWait c t0 => some (c, t0)
  | .stopWait c t0 => some (c, t0)
  | .swaitPoll .. => Option.none
  | .swaitStop c t0 => some (c, t0)
  | .dlyWait .. => Option.none

theorem Wait.stopping_of_disable {w : Wait} {c : Nat} {t0 : Word} (hw : w = .stopWait c t0 ∨ w = .swaitStop c t0) :
    w.stopping c = true := by
  obtain rfl | rfl := hw <;> exact beq_self_eq_true c

/-- The host waits since `t0` for an acknowledgement of channel `c` that has not come and is bounded by `b` ticks: a
disable, or an enable where its bound is finite (R129). -/
inductive State.Awaits (s : State) (c : Nat) (t0 : Word) : Nat → Prop
  | disable (hw : s.hw = .stopWait c t0 ∨ s.hw = .swaitStop c t0) (ak : (s.ch c).enAck = true) :
      Awaits s c t0 Config.disAckBound
  | enable {b : Nat} (hw : s.hw = .startWait c t0) (hb : s.params.enAckBound = some b)
      (st : (s.ch c).cstate = .armed) : Awaits s c t0 b

/-- The acknowledgement bounds, said once for every wait (R129). -/
theorem ackBoundInv_iff {s : State} :
    AckBoundInv s ↔ ∀ c t0 b, s.Awaits c t0 b → s.elapsed t0 ≤ (s.ch c).ackAge ∧ (s.ch c).ackAge ≤ b := by
  constructor
  · rintro ⟨hstop, hswait, hstart⟩ c t0 b ha
    cases ha with
    | disable hw ak => exact hw.elim (hstop c t0 · ak) (hswait c t0 · ak)
    | enable hw hb st => exact hstart c t0 b hw hb st
  · intro h
    exact
      { stop := fun c t0 hw ak => h c t0 _ (.disable (.inl hw) ak)
        swait := fun c t0 hw ak => h c t0 _ (.disable (.inr hw) ak)
        start := fun c t0 b hw hb st => h c t0 b (.enable hw hb st) }

/-- A number that is no channel reads as the reset channel. -/
theorem State.ch_of_ge {s : State} {c : Nat} (h : s.numChannels ≤ c) : s.ch c = Channel.reset :=
  List.getD_eq_default s.chs Channel.reset h

namespace State.Awaits

variable {s t : State} {c : Nat} {t0 : Word} {b : Nat}

theorem awaited (h : s.Awaits c t0 b) : s.hw.awaited = some (c, t0) := by
  cases h with
  | disable hw _ => obtain hw | hw := hw <;> rw [hw] <;> rfl
  | enable hw _ _ => rw [hw]; rfl

/-- No acknowledgement is awaited of a number that is no channel. -/
theorem lt (h : s.Awaits c t0 b) : c < s.numChannels := by
  by_contra hge
  have hreset := State.ch_of_ge (Nat.not_lt.1 hge)
  cases h with
  | disable _ ak => simp [hreset, Channel.reset] at ak
  | enable _ _ st => simp [hreset, Channel.reset] at st

/-- The acknowledgement is one R128 ages: the host has withdrawn the enable it waits to see off, and still requests the
one it waits to see on (R135). -/
theorem pending (h : s.Awaits c t0 b) (hinv : ChannelInv s c) :
    ((s.ch c).disPending = true ∧ b = Config.disAckBound) ∨
      ((s.ch c).enPending = true ∧ s.params.enAckBound = some b) := by
  cases h with
  | disable hw ak =>
    exact .inl ⟨Channel.disPending_iff.2 ⟨hinv.stopReq (Wait.stopping_of_disable hw), ak⟩, rfl⟩
  | enable hw hb st =>
    obtain ⟨hack, hreq⟩ := hinv.armed st
    have hreq : (s.ch c).enReq = true := hreq.resolve_right (by simp [hw, Wait.inStopWait])
    exact .inr ⟨Channel.enPending_iff.2 ⟨hreq, hack, st⟩, hb⟩

/-- A wait within its bound has not reached a timeout above the bound. -/
theorem elapsed_lt (h : s.Awaits c t0 b) (hinv : AckBoundInv s) {n : Nat} (hb : b < n) : s.elapsed t0 < n := by
  obtain ⟨helapsed, hage⟩ := ackBoundInv_iff.1 hinv c t0 b h
  omega

end State.Awaits

/-! ## The acknowledgement bounds over a step -/

/-- From `ch` to `d` no acknowledgement comes to be awaited: the enable is not acknowledged anew but where it is
requested, and the channel is not armed anew. -/
structure AwaitKept (ch d : Channel) : Prop where
  enAck : d.enAck = true → ch.enAck = true ∨ ch.enReq = true
  armed : d.cstate = .armed → ch.cstate = .armed

theorem AwaitKept.of_eq {ch d : Channel} (hack : d.enAck = ch.enAck) (hst : d.cstate = ch.cstate) : AwaitKept ch d :=
  ⟨fun e => .inl (hack ▸ e), fun e => hst ▸ e⟩

namespace Channel

theorem awaitKept_advance (ch : Channel) : AwaitKept ch ch.advance := by
  rw [advance_eq]
  constructor <;> dsimp only <;> split
  · exact fun e => nomatch e
  · exact .inl
  · exact fun e => nomatch e
  · exact id

theorem awaitKept_fail (ch : Channel) (k : ErrCls) : AwaitKept ch (ch.fail k) := by
  refine ⟨fun e => (nomatch e), fun e => ?_⟩
  simp only [fail] at e
  split at e
  · exact nomatch e
  · exact e

theorem advance_ackAge (ch : Channel) : ch.advance.ackAge = ch.ackAge := by
  rw [advance_fixed]

end Channel

section bounds

variable {s t : State}

/-- An acknowledgement awaited under the same wait was awaited before. -/
theorem State.Awaits.of_kept {c : Nat} {t0 : Word} {b : Nat} (ha : t.Awaits c t0 b) (hw : t.hw = s.hw)
    (hp : t.params = s.params) (hinv : ChannelInv s c) (hk : AwaitKept (s.ch c) (t.ch c)) : s.Awaits c t0 b := by
  cases ha with
  | disable hwait ak =>
    rw [hw] at hwait
    have hreq := hinv.stopReq (Wait.stopping_of_disable hwait)
    exact .disable hwait ((hk.enAck ak).resolve_right (by simp [hreq]))
  | enable hwait hb st => exact .enable (hw ▸ hwait) (hp ▸ hb) (hk.armed st)

/-- A step that keeps the wait and the tick, and brings no channel to be awaited or to age, keeps the bounds. -/
theorem ackBoundInv_of_kept (h : AckBoundInv s) (hinv : LifecycleInv s) (hx : Extends s t) (hw : t.hw = s.hw)
    (htick : t.tick = s.tick)
    (hk : ∀ c, c < s.numChannels → AwaitKept (s.ch c) (t.ch c) ∧ (t.ch c).ackAge = (s.ch c).ackAge) :
    AckBoundInv t := by
  refine ackBoundInv_iff.2 fun c t0 b ha => ?_
  have hc : c < s.numChannels := hx.numChannels ▸ ha.lt
  obtain ⟨hkept, hage⟩ := hk c hc
  rw [hage, State.elapsed, htick]
  exact ackBoundInv_iff.1 h c t0 b (ha.of_kept hw hx.params (hinv c hc) hkept)

/-- So does an engine's step that does so to its own channel. -/
theorem ackBoundInv_of_modify (h : AckBoundInv s) (hinv : LifecycleInv s) (hx : Extends s t) (hw : t.hw = s.hw)
    (htick : t.tick = s.tick) {d : Nat} {f : Channel → Channel} (ht : t.chs = s.chs.modify d f)
    (hk : AwaitKept (s.ch d) (f (s.ch d))) (hage : (f (s.ch d)).ackAge = (s.ch d).ackAge) : AckBoundInv t := by
  refine ackBoundInv_of_kept h hinv hx hw htick fun c hc => ?_
  rw [ch_of_modify hc ht]
  split
  · next e => exact e ▸ ⟨hk, hage⟩
  · exact ⟨.of_eq rfl rfl, rfl⟩

/-- The bounds hold where the host waits for no acknowledgement, or only since this tick for one of age 0. -/
theorem ackBoundInv_of_fresh
    (h : ∀ c t0, c < t.numChannels → t.hw.awaited = some (c, t0) → t0 = t.tick ∧ (t.ch c).ackAge = 0) :
    AckBoundInv t := by
  refine ackBoundInv_iff.2 fun c t0 b ha => ?_
  obtain ⟨rfl, hage⟩ := h c t0 ha.lt ha.awaited
  simp [State.elapsed, hage]

theorem ackBoundInv_of_not_awaited (h : t.hw.awaited = none) : AckBoundInv t :=
  ackBoundInv_of_fresh fun c t0 _ e => by simp [h] at e

/-- A wait that begins with its channel's age set to 0 (R70, R72, R103). -/
theorem ackBoundInv_of_begins {d : Nat} {f : Channel → Channel} (hn : t.numChannels = s.numChannels)
    (ht : t.chs = s.chs.modify d f) (hf : (f (s.ch d)).ackAge = 0) (hw : t.hw.awaited = some (d, t.tick)) :
    AckBoundInv t := by
  refine ackBoundInv_of_fresh fun c t0 hc e => ?_
  obtain ⟨rfl, rfl⟩ : d = c ∧ t.tick = t0 := by simpa [hw] using e
  rw [ch_of_modify (hn ▸ hc) ht, if_pos rfl]
  exact ⟨rfl, hf⟩

/-- One tick adds at most 1 to the ticks since `t0`, which wrap at 2^32 (R29). -/
theorem elapsed_tickStep_le (s : State) (t0 : Word) : (tickStep s).elapsed t0 ≤ s.elapsed t0 + 1 := by
  have hsub : (tickStep s).tick - t0 = s.tick - t0 + 1 := by
    simp only [tickStep, State.record_tick]
    bv_omega
  rw [State.elapsed, hsub, BitVec.toNat_add]
  exact Nat.mod_le _ _

/-- With no hang admitted the tick advances only where an awaited acknowledgement is below its bound, which then ages
with the tick (R129). -/
theorem ackBoundInv_tickStep (h : AckBoundInv s) (hinv : LifecycleInv s) (hang : s.params.hangAdmitted = false)
    (he : s.enabled .tick = true) : AckBoundInv (tickStep s) := by
  refine ackBoundInv_iff.2 fun c t0 b ha => ?_
  have hch := tickStep_ch s c
  rw [Channel.age_eq] at hch
  have hx := (Effect.tick (s := s)).extends
  have hc : c < s.numChannels := hx.numChannels ▸ ha.lt
  have has : s.Awaits c t0 b := ha.of_kept rfl rfl (hinv c hc) (.of_eq (by rw [hch]) (by rw [hch]))
  have hpending := has.pending (hinv c hc)
  have hbelow : (s.ch c).ackAge < b := by
    obtain ⟨-, -, hbound⟩ := enabled_tick_iff.1 he
    by_contra hge
    refine hbound ⟨hang, c, hc, ackBoundReached_iff.2 (hpending.imp ?_ ?_)⟩
    · rintro ⟨hp, rfl⟩
      exact ⟨hp, Nat.not_lt.1 hge⟩
    · exact fun ⟨hp, hb⟩ => ⟨hp, b, hb, Nat.not_lt.1 hge⟩
  have hages : (s.ch c).ackPending = true := Channel.ackPending_iff.2 (hpending.symm.imp And.left And.left)
  rw [if_pos hages] at hch
  obtain ⟨helapsed, -⟩ := ackBoundInv_iff.1 h c t0 b has
  rw [hch]
  exact ⟨(elapsed_tickStep_le s t0).trans (Nat.succ_le_succ helapsed), hbelow⟩

theorem Dispatched.tick_eq {c : Nat} (h : Dispatched c s t) : t.tick = s.tick := by rw [h.rest]

theorem dispatchStep_tick (s : State) : (dispatchStep s).tick = s.tick := by
  unfold dispatchStep
  split
  · rfl
  · exact (dispatchClasses_dispatched ..).tick_eq

/-- A dispatch writes of a channel its flags, owners and queue alone (R92 to R94). -/
theorem dispatchStep_ch {c : Nat} (hc : c < s.numChannels) :
    ∃ f o0 o1 q, (dispatchStep s).ch c = { s.ch c with flags := f, own0 := o0, own1 := o1, evq := q } := by
  unfold dispatchStep
  split
  · exact ⟨_, _, _, _, rfl⟩
  · next d m _ =>
    let u := s.modCh d fun ch => { ch with flags := ch.flags.clear m }
    obtain ⟨f, hf⟩ : ∃ f, u.ch c = { s.ch c with flags := f } := by
      rw [ch_of_modify (t := u) hc rfl]
      split
      · exact ⟨_, rfl⟩
      · exact ⟨_, rfl⟩
    have hd := dispatchClasses_dispatched d m dispatchOrder u
    by_cases hcd : c = d
    · subst hcd
      obtain ⟨o0, o1, q, e, -, -⟩ := hd.own
      rw [hf] at e
      exact ⟨f, o0, o1, (s.ch c).evq ++ q, e⟩
    · exact ⟨f, _, _, _, (hd.other c hcd).trans hf⟩

/-- With no hang admitted each enabled rule of the machine keeps the acknowledgement bounds. -/
theorem Effect.ackBoundInv {m : Move} (he : Effect s m t) (hen : s.enabled m = true)
    (hang : s.params.hangAdmitted = false) (hinv : LifecycleInv s) (h : AckBoundInv s) : AckBoundInv t := by
  have hx := he.extends
  have hg : s.guard m = true := (Bool.and_eq_true_iff.1 hen).2
  cases he
  case start | stop | swaitTimeout => exact ackBoundInv_of_begins hx.numChannels rfl rfl rfl
  case swait | dly | startDone | startLate | stopDone | stopLate | swaitTaken | swaitReported | swaitStopped |
      swaitLate | dlyDone => exact ackBoundInv_of_not_awaited rfl
  case illegal hw _ _ | malformed hw _ | answer hw _ _ _ | hostFault hw _ | store hw _ _ | cfg hw _ _ _ _ _ |
      clrf hw _ _ | sack hw _ _ _ _ _ _ | sevt hw _ _ _ =>
    exact ackBoundInv_of_not_awaited (congrArg Wait.awaited hw)
  case ackOn d =>
    refine ackBoundInv_of_modify h hinv hx rfl rfl rfl ?_ rfl
    exact ⟨fun _ => .inr (guard_ackOn hg).1, fun e => nomatch e⟩
  case ackOff d =>
    refine ackBoundInv_of_modify h hinv hx rfl rfl rfl ?_ rfl
    exact ⟨fun e => (nomatch e), id⟩
  case transfer d _ =>
    have hframe := engineFrame_transferStep d s
    obtain ⟨m, e, -, -⟩ := transferStep_state d s
    exact ackBoundInv_of_modify h hinv hx hframe.hw hframe.tick (congrArg State.chs e)
      (s.ch d).awaitKept_advance (s.ch d).advance_ackAge
  case busError d _ =>
    exact ackBoundInv_of_modify h hinv hx rfl rfl rfl ((s.ch d).awaitKept_fail .te) rfl
  case error d k => exact ackBoundInv_of_modify h hinv hx rfl rfl rfl ((s.ch d).awaitKept_fail k) rfl
  case snapshot => exact ackBoundInv_of_kept h hinv hx rfl rfl fun _ _ => ⟨.of_eq rfl rfl, rfl⟩
  case dispatch =>
    refine ackBoundInv_of_kept h hinv hx (dispatchStep_hw s) (dispatchStep_tick s) fun c hc => ?_
    obtain ⟨f, o0, o1, q, e⟩ := dispatchStep_ch hc
    rw [e]
    exact ⟨.of_eq rfl rfl, rfl⟩
  case tick => exact ackBoundInv_tickStep h hinv hang hen

end bounds

section rescheduled

variable {s u : State} (hu : Rescheduled s u)
include hu

/-- What is enabled, and the invariants, are a matter of no script and no draw counter. -/
theorem Rescheduled.enabled (m : Move) : u.enabled m = s.enabled m := by
  rw [hu, State.enabled, guard_rescheduled]
  rfl

theorem Rescheduled.lifecycleInv (h : LifecycleInv s) : LifecycleInv u := by
  rw [hu]
  exact fun c hc => (h c hc).of_ch_eq rfl rfl (waitKept_of_eq rfl)

theorem Rescheduled.ackBoundInv (h : AckBoundInv s) : AckBoundInv u := by
  rw [hu]
  obtain ⟨hstop, hswait, hstart⟩ := h
  exact ⟨hstop, hswait, hstart⟩

end rescheduled

/-- A held host that is enabled has its poll condition (R31). -/
theorem pollReady_of_enabled {s : State} (he : s.enabled .host = true) (hw : s.hw ≠ .none) : s.pollReady = true := by
  simp only [State.enabled, State.guard, State.hostReady, if_neg hw, Bool.and_eq_true] at he
  obtain ⟨-, -, hready⟩ := he
  exact hready

/-- Settles O52: each rule of the machine keeps the bounds, and a wait within its bound leaves the poll no timeout. -/
theorem boundedWaitsNeverTimeOut : Obligations.BoundedWaitsNeverTimeOut := by
  refine ⟨fun s t hang hinv h hstep => ?_, fun s c t0 h htimeout he => ⟨fun hw => ?_, fun hw b hb hlt st => ?_⟩⟩
  · obtain ⟨-, m, u, hen, hu, hp⟩ := step_next hstep
    exact (perform_effect hp).ackBoundInv ((hu.enabled m).trans hen) (hu.extends.params ▸ hang)
      (hu.lifecycleInv hinv) (hu.ackBoundInv h)
  · by_contra hack
    have haw : s.Awaits c t0 Config.disAckBound := .disable hw (by simpa using hack)
    have hlt := haw.elapsed_lt h (n := s.params.ackTimeout) htimeout
    have hready : (s.ch c).enAck = false ∨ s.params.ackTimeout ≤ s.elapsed t0 := by
      obtain hw | hw := hw
      · exact (pollReady_stopWait hw).1 (pollReady_of_enabled he (by simp [hw]))
      · exact (pollReady_swaitStop hw).1 (pollReady_of_enabled he (by simp [hw]))
    exact hready.elim hack hlt.not_ge
  · have hlate := (State.Awaits.enable hw hb st).elapsed_lt h hlt
    have hready := (pollReady_startWait hw).1 (pollReady_of_enabled he (by simp [hw]))
    exact hready.elim (· st) hlate.not_ge

end Sys2Proof.Machine
end

section

/-! The reset state has the values of R134's table. -/

namespace Sys2Proof.Machine

/-- Settles O53: every channel is at reset, and each value of R134's table is the one the reset state is built with. -/
theorem resetState : Obligations.ResetState :=
  ⟨fun c _ => reset_ch c, rfl, rfl, rfl, rfl, rfl, rfl⟩

end Sys2Proof.Machine
end
